-- ==== Sys2Proof/Word.lean ====
section
/-! DEFINITION. The word types of the block: bytes, byte sequences and the 32-bit request word (00_scope.md R10, R11; 30_encoding.md R54). -/

namespace Sys2Proof

/-- A byte: 8 bits, an unsigned value 0 to 255 (R10). -/
abbrev Byte := BitVec 8

/-- A byte sequence: a finite list of bytes, index 0 first (R11). -/
abbrev Bytes := List Byte

/-- The 32-bit request word (R17, R54). -/
abbrev Word := BitVec 32

end Sys2Proof
end

