-- ==== Sys2Proof/Config.lean ====
section
/-! DEFINITION. What an implementation fixes (00_scope.md R9) and the one value the spec leaves free (IOERR when STATUS is not IoError, R21, U2). -/

namespace Sys2Proof

/-- The two values of the parameter `LENGTH_RULE` (R9, R67, R68). -/
inductive LengthRule where
  /-- R67: the historical length bytes, bit-exact; the value this hardware takes. -/
  | historical
  /-- R68: a true two-byte big-endian length; the alternative the source names. -/
  | fixed
  deriving DecidableEq, Repr

/-- A transport error value, of the spec's parameter type `IOERR_T` (R9, D32).
The block copies it and never looks inside (R21, R125), so a token that can only be compared stands for it.
DESIGN CHOICE (log entry 2), safe. -/
structure IoErr where
  token : Nat
  deriving DecidableEq, Repr, Inhabited

namespace Config

/-- `LENGTH_RULE` of this hardware (R9, D6). It enters the machine as the configuration input `State.lengthRule`. -/
def lengthRule : LengthRule := .historical

/-- `MAX_IN`, the longest operand the request channel carries (R9, R18). -/
def maxIn : Nat := 65542

/-- `MAX_OUT`, the longest result buffer (R9, R19). -/
def maxOut : Nat := 65542

/-- `ADDR_MAX`, the largest valid device address (R9, R64). -/
def addrMax : Nat := 15

/-- `ADDR_OPERAND_W`, the width of the address operand field (R9, R54). -/
def addrOperandWidth : Nat := 8

/-- The longest payload two length bytes can describe (R91, D35). -/
def maxPayload : Nat := 65535

/-- `T_READ`, the transport's timeout for each read request, in milliseconds (R9, R42). No rule of a model
without time depends on it (R159); a `Timeout` is an input of the timeline. -/
def tReadMs : Nat := 1000

/-- FREE VALUE (log entry 3): what `IOERR` holds after a response whose status is not `IoError`.
R21 calls it a don't-care value and U2 gives it the treatment 'any value'. No body: nothing evaluates it. -/
opaque freeIoErr : Nat → IoErr

end Config

end Sys2Proof
end

