-- ==== Sys2Proof/Syntax.lean ====
section
/-! DEFINITION. The seven operations (30_encoding.md R53 to R56), one constructor per row of spec/opcode_table.json, and a request as the host offers it (10_state.md R16). -/

namespace Sys2Proof

/-- An operation with the two operand fields of its request word (R54): `addr = REQ[15:8]`, `count = REQ[31:16]`.
Every constructor carries both fields, those it ignores too (R56), so that decoding loses no bit of the word.
The operand bytes travel beside the word, in `IN`. -/
inductive Instr where
  /-- READ_EXACT: read `count` bytes from the receive channel (R86). -/
  | readExact (addr : BitVec 8) (count : BitVec 16)
  /-- CHECKSUM: XOR-fold of `IN` (R89). -/
  | checksum (addr : BitVec 8) (count : BitVec 16)
  /-- ENCODE_CMD: build a command frame from `addr` and `IN` (R93). -/
  | encodeCmd (addr : BitVec 8) (count : BitVec 16)
  /-- ENCODE_ENQ: build an enquiry frame for `addr` (R95). -/
  | encodeEnq (addr : BitVec 8) (count : BitVec 16)
  /-- DECODE_RESP: read and validate one response frame from `addr` (R104). -/
  | decodeResp (addr : BitVec 8) (count : BitVec 16)
  /-- EXTRACT_PAYLOAD: slice the payload out of the frame in `IN` (R107). -/
  | extractPayload (addr : BitVec 8) (count : BitVec 16)
  /-- EXCHANGE: send the command in `IN` to `addr` and return the response payload (R111). -/
  | exchange (addr : BitVec 8) (count : BitVec 16)
  deriving DecidableEq, Repr

/-- One request on the request channel: the request word and the operand byte sequence (R16). -/
structure Request where
  word : Word
  operand : Bytes
  deriving DecidableEq, Repr

end Sys2Proof
end

