-- ==== Sys2Proof/WellFormed.lean ====
section
/-! DEFINITION. The checks a request and an operation must pass as syntax: the operand fits the request channel (10_state.md R18), the word is no reserved encoding (30_encoding.md R57), and an assembled operation leaves its ignored fields 0 (R75). -/

namespace Sys2Proof

/-- R18: the request channel carries at most `MAX_IN` operand bytes. -/
def Request.fits (r : Request) : Bool := decide (r.operand.length ≤ Config.maxIn)

/-- R57: a word is legal when its reserved bits [7:3] are 0 and its operation code [2:0] is not 7. -/
def legalWord (w : Word) : Bool := w.extractLsb' 3 5 == 0#5 && w.extractLsb' 0 3 != 7#3

/-- A request that can be offered and names one of the seven operations. -/
def Request.wellFormed (r : Request) : Bool := r.fits && legalWord r.word

/-- R75: the assembled form of an operation, in which every field the operation ignores (R56) is 0.
The block itself accepts any value there. -/
def Instr.assembled : Instr → Bool
  | .readExact addr _ => addr == 0
  | .checksum addr count => addr == 0 && count == 0
  | .encodeCmd _ count => count == 0
  | .encodeEnq _ count => count == 0
  | .decodeResp _ count => count == 0
  | .extractPayload addr count => addr == 0 && count == 0
  | .exchange _ count => count == 0

end Sys2Proof
end

