-- ==== Sys2Proof/Decode.lean ====
section
/-! DEFINITION. The request word's fields, the decoder (total, rejecting by name) and the encoder, from the tables of 30_encoding.md R54 to R57; the assembled operations of R75. -/

namespace Sys2Proof

/-- `op = REQ[2:0]` (R54). -/
def opField (w : Word) : BitVec 3 := w.extractLsb' 0 3

/-- `rsv = REQ[7:3]` (R54). -/
def rsvField (w : Word) : BitVec 5 := w.extractLsb' 3 5

/-- `addr = REQ[15:8]` (R54). -/
def addrField (w : Word) : BitVec 8 := w.extractLsb' 8 8

/-- `count = REQ[31:16]` (R54). -/
def countField (w : Word) : BitVec 16 := w.extractLsb' 16 16

/-- Why a request word is no operation (R57). -/
inductive DecodeError where
  /-- `rsv ≠ 0`, for any operation code. -/
  | reservedBits
  /-- `op = 7`. -/
  | reservedOp
  deriving DecidableEq, Repr

/-- The operation a request word names: the operation code selects it, with `rsv = 0` (R55, R57). -/
def decodeWord (w : Word) : Except DecodeError Instr :=
  if rsvField w = 0 then
    match (opField w).toNat with
    | 0 => .ok (.readExact (addrField w) (countField w))
    | 1 => .ok (.checksum (addrField w) (countField w))
    | 2 => .ok (.encodeCmd (addrField w) (countField w))
    | 3 => .ok (.encodeEnq (addrField w) (countField w))
    | 4 => .ok (.decodeResp (addrField w) (countField w))
    | 5 => .ok (.extractPayload (addrField w) (countField w))
    | 6 => .ok (.exchange (addrField w) (countField w))
    | _ => .error .reservedOp
  else .error .reservedBits

/-- The operation code of an operation (R55). -/
def Instr.opcode : Instr → BitVec 3
  | .readExact _ _ => 0
  | .checksum _ _ => 1
  | .encodeCmd _ _ => 2
  | .encodeEnq _ _ => 3
  | .decodeResp _ _ => 4
  | .extractPayload _ _ => 5
  | .exchange _ _ => 6

/-- The `addr` field of an operation's word. -/
def Instr.addr : Instr → BitVec 8
  | .readExact a _ | .checksum a _ | .encodeCmd a _ | .encodeEnq a _ | .decodeResp a _
  | .extractPayload a _ | .exchange a _ => a

/-- The `count` field of an operation's word. -/
def Instr.count : Instr → BitVec 16
  | .readExact _ c | .checksum _ c | .encodeCmd _ c | .encodeEnq _ c | .decodeResp _ c
  | .extractPayload _ c | .exchange _ c => c

/-- `{count, addr, rsv = 0, op}`, the request word of R54: each field at its place, bits [7:3] left 0. -/
def requestWord (count : BitVec 16) (addr : BitVec 8) (op : BitVec 3) : Word :=
  BitVec.ofNat 32 (count.toNat * 2 ^ 16 + addr.toNat * 2 ^ 8 + op.toNat)

/-- The request word of an operation (R54, R55). -/
def encode (i : Instr) : Word := requestWord i.count i.addr i.opcode

/-- An operation as R75 writes it: its name and the operands it reads, nothing else. -/
inductive Asm where
  | readExact (n : BitVec 16)
  | checksum (bytes : Bytes)
  | encodeCmd (a : BitVec 8) (payload : Bytes)
  | encodeEnq (a : BitVec 8)
  | decodeResp (a : BitVec 8)
  | extractPayload (frame : Bytes)
  | exchange (a : BitVec 8) (payload : Bytes)
  deriving DecidableEq, Repr

/-- The operation of an assembled line: `rsv = 0` and every ignored field 0 (R75). -/
def Asm.instr : Asm → Instr
  | .readExact n => .readExact 0 n
  | .checksum _ => .checksum 0 0
  | .encodeCmd a _ => .encodeCmd a 0
  | .encodeEnq a => .encodeEnq a 0
  | .decodeResp a => .decodeResp a 0
  | .extractPayload _ => .extractPayload 0 0
  | .exchange a _ => .exchange a 0

/-- The operand bytes of an assembled line; an operation that ignores `IN` is offered with none. -/
def Asm.operand : Asm → Bytes
  | .readExact _ | .encodeEnq _ | .decodeResp _ => []
  | .checksum b | .encodeCmd _ b | .extractPayload b | .exchange _ b => b

/-- The request an assembled line stands for (R75). -/
def Asm.request (x : Asm) : Request := ⟨encode x.instr, x.operand⟩

/-- The operation this decoder reads from a word of the opcode table: one 32-bit request word (R54), whose bits
above `nbits` are 0; a number of more than 32 bits is no request word. -/
def decodeTableWord (nbits w : Nat) : Option Instr :=
  if nbits ≤ 32 ∧ w < 2 ^ 32 then
    match decodeWord (BitVec.ofNat 32 w) with
    | .ok i => some i
    | .error _ => none
  else none

end Sys2Proof
end

