-- ==== Sys2Proof/Machine/State.lean ====
section
/-! DEFINITION. The machine's state as plain data: the block's registers (10_state.md R17 to R24), its request and response channels (R15, R16, R59), the transport it drives (20_memory.md R38 to R50) and the timeline of what the outside world does. -/

namespace Sys2Proof.Machine

/-- The steps of `DecodeFrame`, in the order DECODE_RESP and EXCHANGE take them (R24, R96). -/
inductive FrameStage where
  | rdStart | rdAddr | rdLen | rdPayload | rdEnd | rdBcc
  deriving DecidableEq, Repr

/-- The stages of ENCODE_CMD and of ENCODE_ENQ (R24). -/
inductive EncodeStage where
  | check | build
  deriving DecidableEq, Repr

/-- The stages of DECODE_RESP (R24). -/
inductive DecodeStage where
  | check
  | frame (f : FrameStage)
  deriving DecidableEq, Repr

/-- The stages of EXTRACT_PAYLOAD (R24). -/
inductive SliceStage where
  | check | slice
  deriving DecidableEq, Repr

/-- The stages of EXCHANGE (R24). -/
inductive ExchangeStage where
  | enc | txCmd | rdAck | rdAckAddr | txEnq
  | frame (f : FrameStage)
  | extract
  deriving DecidableEq, Repr

/-- The pairs (op, stage) of `BUSY(op, stage)`: each operation with the stages R24 lists for it, and no other. -/
inductive Busy where
  /-- READ_EXACT at `RX_LOOP`. -/
  | readExact
  /-- CHECKSUM at `FOLD`. -/
  | checksum
  | encodeCmd (st : EncodeStage)
  | encodeEnq (st : EncodeStage)
  | decodeResp (st : DecodeStage)
  | extractPayload (st : SliceStage)
  | exchange (st : ExchangeStage)
  deriving DecidableEq, Repr

/-- The sequencer state `SEQ` (R23). -/
inductive Sequencer where
  | idle
  | busy (b : Busy)
  deriving DecidableEq, Repr

/-- The error kinds of R124, with what they record (R125): the transport's error value for `IoError`, nothing else. -/
inductive ErrKind where
  | invalidAddress
  | emptyPayload
  | ioError (e : IoErr)
  | notAcknowledged
  | shortAck
  | ackAddressMismatch
  | malformedStart
  | addressMismatch
  | shortLength
  | lengthMismatch
  | malformedEnd
  | checksumMismatch
  | frameTooShort
  | payloadTooLong
  | illegalOperation
  deriving DecidableEq, Repr

/-- The answer to a `TxWrite` (R40). -/
inductive TxAnswer where
  | ok
  | err (e : IoErr)
  deriving DecidableEq, Repr

/-- The answer to an `RxRead` (R41). -/
inductive RxAnswer where
  | data (bytes : Bytes)
  | timeout
  | err (e : IoErr)
  deriving DecidableEq, Repr

/-- One entry of the event history (R50): a transport access of the block, with its answer. -/
inductive Event where
  /-- `TxEvent(s, answer)`. -/
  | tx (bytes : Bytes) (answer : TxAnswer)
  /-- `RxEvent(m, answer)`. -/
  | rx (limit : Nat) (answer : RxAnswer)
  deriving DecidableEq, Repr

/-- A request as it is offered. The block sees the request alone; `exchange` is the MODEL'S OWN: the number by which the outside world tells
the exchanges on the connection apart (R139: the block has no host identifiers; log entry 26). -/
structure Offer extends Request where
  exchange : Nat
  deriving DecidableEq, Repr

/-- One thing the outside world does: the host, the transport, the device behind it, or the reset input.
The timeline of these is the oracle of R43 and everything else a host may do, so a claim about every state
holds for every oracle (log entry 4). -/
inductive Input where
  /-- A host offers a request on the request channel (R16). -/
  | offer (r : Offer)
  /-- The reset input is asserted and released again, as one event: reset is a pulse, after which the very next step may accept a request
  (R142; DESIGN CHOICE, log entry 23, since the spec gives no behaviour while reset is held). If it cuts off a `TxWrite`, `reached` of its
  bytes (at most all) were on the line (R149, U4). -/
  | reset (reached : Nat)
  /-- The block makes its next move, accepting a request or handing over a response, before anything after this happens; a reset that
  follows it therefore lands after that move (R142; DESIGN CHOICE, log entry 10). Where the block has no such move to make, it is nothing. -/
  | proceed
  /-- The transport receives bytes from the device: they join the RX residue (R46). -/
  | arrive (bytes : Bytes)
  /-- The transport answers the outstanding read with the next `k` received bytes, as far as it holds them and the request allows;
  handing over none, with no error, is a `Timeout` (R41). -/
  | rxDeliver (k : Nat)
  /-- The transport answers the outstanding read with `Timeout` (R41, R42). -/
  | rxTimeout
  /-- The transport answers the outstanding read with `RxErr(e)` (R41). -/
  | rxErr (e : IoErr)
  /-- The transport answers the outstanding write with `TxOk` (R40). -/
  | txOk
  /-- The transport answers the outstanding write with `TxErr(e)`; `reached` of its bytes (at most all) were on the line (R40, U3). -/
  | txErr (e : IoErr) (reached : Nat)
  /-- The host writes to the transport itself (R51), for the exchange given (log entry 26). -/
  | hostWrite (exchange : Nat) (bytes : Bytes)
  /-- The host reads up to `n` bytes from the transport itself (R51), for the exchange given (log entry 26). -/
  | hostRead (exchange : Nat) (n : Nat)
  deriving DecidableEq, Repr

/-- Why a run stops with a fault. -/
inductive Fault where
  /-- Raised by `step` when the block waits for a transport answer and the timeline holds nothing more: the request is never
  answered, and the operation never ends (R154; U6 asks for a run with no further step of the block). Safe: the machine stops. -/
  | transportHang
  deriving DecidableEq, Repr

/-- Why a run is refused. -/
inductive Refusal where
  /-- Raised by an arm of `exec` whose operation has no meaning yet; no arm does. Safe. -/
  | notModelled (mnemonic : String)
  /-- Raised by `MemWrite` when it would make `OUT` longer than `MAX_OUT` (R37, U13: 'refuse'); R110 says no operation reaches it. Safe. -/
  | outOverflow
  /-- Raised when an input offers an operand longer than `MAX_IN`: the channel cannot carry it (R18, U14: 'refuse'). Safe. -/
  | operandTooLong
  /-- Raised when an input has the host use the transport while a transport operation waits (R51, R153, U7: 'refuse'). Safe. -/
  | transportInterference
  /-- Raised when an exchange comes back to the connection after another exchange came between: two exchanges are interleaved
  (R139, R153, U7: 'refuse'). Safe. -/
  | exchangesInterleaved
  deriving DecidableEq, Repr

/-- The whole machine. The block: its configuration input, its registers (R17 to R22) and its sequencer (R23).
Around it: the requests offered, whether a response is held, the transport, and the timeline of inputs to come. -/
structure State where
  /-- The configuration input `LENGTH_RULE` (R9, R15); no step and no reset changes it (R147). -/
  lengthRule : LengthRule
  /-- `REQ`, the accepted request word (R17). -/
  req : Word
  /-- `IN`, the accepted operand bytes (R18). -/
  inBuf : Bytes
  /-- `OUT`, the result bytes (R19). -/
  out : Bytes
  /-- `STATUS`, the code of the last finished operation (R20). -/
  status : BitVec 8
  /-- `IOERR`, the transport's error value, meaningful only when `STATUS` is `IoError` (R21). -/
  ioerr : IoErr
  /-- `ACC`, the accumulator of `ReadExact` (R22, R80). -/
  acc : Bytes
  /-- `NEED`, the number of bytes the current `ReadExact` must gather (R22). -/
  need : BitVec 16
  /-- `BCC`, the running XOR of the frame bytes seen so far (R22). -/
  bcc : Byte
  /-- `LEN`, the payload length decoded from a length field (R22, R66). -/
  len : Nat
  /-- `FBUF`, the frame being built or received (R22). -/
  fbuf : Bytes
  /-- `ABUF`, the two expected address digits (R22, R63). -/
  abuf : Bytes
  /-- `SEQ` (R23). -/
  seq : Sequencer
  /-- The response channel holds the response `(STATUS, IOERR, OUT)` of the last operation (R20, R28, R59). -/
  respPending : Bool
  /-- The requests offered and not yet accepted, oldest first; they wait outside the block (R16, R145). -/
  offered : List Offer
  /-- The RX residue: bytes received and not yet delivered to any read (R29, R46). -/
  rxResidue : Bytes
  /-- The bytes that have reached the transmit line, oldest first (R29, R40). -/
  txLine : Bytes
  /-- The event history, oldest first (R50). -/
  history : List Event
  /-- What the outside world does from here on, in order (R43, R142; log entry 4). -/
  inputs : List Input
  /-- MODEL'S OWN: the exchanges that used the connection so far, each once, the one that used it last first (R139, R153; log entry 26). -/
  exchanges : List Nat
  /-- MODEL'S OWN: how many free values have been drawn from `Config.freeIoErr` (log entry 3). -/
  freeCount : Nat
  deriving DecidableEq, Repr

/-- The machine right after reset, with nothing placed around it: R30 gives `SEQ`, `OUT`, no response pending and the
configuration; R30 leaves the other registers unset, and each holds the value of log entry 1 (DESIGN CHOICE);
outside the block nothing has happened and nothing is to come (log entry 5, DESIGN CHOICE). -/
def State.reset : State where
  lengthRule := Config.lengthRule
  req := 0
  inBuf := []
  out := []
  status := 0
  ioerr := ⟨0⟩
  acc := []
  need := 0
  bcc := 0
  len := 0
  fbuf := []
  abuf := []
  seq := .idle
  respPending := false
  offered := []
  rxResidue := []
  txLine := []
  history := []
  inputs := []
  exchanges := []
  freeCount := 0

end Sys2Proof.Machine
end

