-- ==== Sys2Proof/Machine/Flags.lean ====
section
/-! DEFINITION. The block has no flags or condition codes (10_state.md R26): its one condition is `STATUS`, whose codes stand here (30_encoding.md R58), with the checksum fold (41_codec.md R88). -/

namespace Sys2Proof.Machine

/-- Status code `OK` (R58). -/
def statusOk : BitVec 8 := 0

/-- The status code of an error kind (R58, R124). -/
def ErrKind.code : ErrKind → BitVec 8
  | .invalidAddress => 1
  | .emptyPayload => 2
  | .ioError _ => 3
  | .notAcknowledged => 4
  | .shortAck => 5
  | .ackAddressMismatch => 6
  | .malformedStart => 7
  | .addressMismatch => 8
  | .shortLength => 9
  | .lengthMismatch => 10
  | .malformedEnd => 11
  | .checksumMismatch => 12
  | .frameTooShort => 13
  | .payloadTooLong => 14
  | .illegalOperation => 15

/-- `xorfold(s)`, the XOR of every byte of `s` starting from 0x00 (R11, R88). A pure function: it writes no register
of its own (log entry 6). -/
def xorfold (s : Bytes) : Byte := s.foldl (· ^^^ ·) 0

end Sys2Proof.Machine
end

