-- ==== Sys2Proof/Machine/Operands.lean ====
section
/-! DEFINITION. Operand forms: the operands an operation reads from `REQ` and `IN` (30_encoding.md R56), and the wire formats they turn into (R60 to R73): control bytes, address digits, length field, frames. -/

namespace Sys2Proof.Machine

/-- `address = zext(REQ[15:8])` (R56). -/
def State.address (s : State) : Nat := (addrField s.req).toNat

/-- `n = zext(REQ[31:16])` (R56, R86). -/
def State.count (s : State) : BitVec 16 := countField s.req

/-- Control bytes of the wire (R60). -/
def startByte : Byte := 0x02
def endByte : Byte := 0x03
def enqByte : Byte := 0x05
def ackByte : Byte := 0x06
def nakByte : Byte := 0x15

/-- `AddrDigits(a)`: two ASCII decimal digits, tens first (R63). -/
def addrDigits (a : Nat) : Bytes := [BitVec.ofNat 8 (0x30 + a / 10), BitVec.ofNat 8 (0x30 + a % 10)]

/-- `lenenc(L)`, the bytes `(lenHigh, lenLow)` (R65, R67, R68). -/
def lenenc (rule : LengthRule) (l : Nat) : Byte × Byte :=
  match rule with
  | .historical => (0, BitVec.ofNat 8 (l % 256))
  | .fixed => (BitVec.ofNat 8 (l / 256 % 256), BitVec.ofNat 8 (l % 256))

/-- `lendec(h, l)`, the payload length of two length bytes (R66, R67, R68). -/
def lendec (rule : LengthRule) (h l : Byte) : Nat :=
  match rule with
  | .historical => 255 * h.toNat + l.toNat
  | .fixed => 256 * h.toNat + l.toNat

/-- The bytes of a frame with the given length field, from start marker through end marker (R62). -/
def frameBody (a : Nat) (h l : Byte) (payload : Bytes) : Bytes :=
  startByte :: addrDigits a ++ [h, l] ++ payload ++ [endByte]

/-- A whole frame with the given length field: the body and its checksum byte (R62, R69). -/
def frameWith (a : Nat) (h l : Byte) (payload : Bytes) : Bytes :=
  frameBody a h l payload ++ [xorfold (frameBody a h l payload)]

/-- The frame `BuildFrame(a, P)` builds: its length field is `lenenc(|P|)` (R62, R91). -/
def commandFrame (rule : LengthRule) (a : Nat) (payload : Bytes) : Bytes :=
  frameWith a (lenenc rule payload.length).1 (lenenc rule payload.length).2 payload

/-- The checks of `BuildFrame`, in its order: address, emptiness, length (R91, R127). -/
def checkCommand (a : Nat) (payload : Bytes) : Option ErrKind :=
  if Config.addrMax < a then some .invalidAddress
  else if payload.length = 0 then some .emptyPayload
  else if Config.maxPayload < payload.length then some .payloadTooLong
  else none

/-- `BuildEnq(a)` (R94), the 3-byte enquiry frame of R72. -/
def buildEnq (a : Nat) : Except ErrKind Bytes :=
  if Config.addrMax < a then .error .invalidAddress else .ok (enqByte :: addrDigits a)

end Sys2Proof.Machine
end

