-- ==== Sys2Proof/Machine/Ops.lean ====
section
/-! DEFINITION. The operations every meaning is made of: buffer access (20_memory.md R37), ending an operation with a response (00_scope.md R12, 60_exceptions.md R129), reset (70_reset_and_hazards.md R142 to R149), one exchange at a time on the connection (R153), the two transport primitives (20_memory.md R40, R41) and `ReadExact` (40_reader.md R80). -/

namespace Sys2Proof.Machine

/-- What a meaning answers. -/
abbrev Result := Host.Outcome State Fault Refusal

/-! ### Buffers -/

/-- `MemRead(addr, n)` is `IN[addr..addr+n)` (R12, R37). -/
def State.memRead (s : State) (addr n : Nat) : Bytes := (s.inBuf.drop addr).take n

/-- The whole operand, `MemRead(0, |IN|)`. -/
def State.operand (s : State) : Bytes := s.memRead 0 s.inBuf.length

/-- `MemWrite` appends to `OUT`; past `MAX_OUT` there is no result (R37). -/
def State.memWrite (s : State) (v : Bytes) : Option State :=
  if s.out.length + v.length ≤ Config.maxOut then some { s with out := s.out ++ v } else none

/-- Write `v` to `OUT` and go on; a write past `MAX_OUT` is refused (R37, U13). -/
def writeOut (v : Bytes) (s : State) (k : State → Result) : Result :=
  match s.memWrite v with
  | some s' => k s'
  | none => .refused .outOverflow

/-! ### Starting and ending an operation -/

/-- `REQ` is written by acceptance, `SEQ` leaves `IDLE` at the operation's first stage, the held response is gone,
and every operation starts with `OUT <- []` (R17, R19, R23, R28). The word of `i` is the accepted word
(`encode_decodeWord`). -/
def State.start (i : Instr) (b : Busy) (s : State) : State :=
  { s with req := encode i, seq := .busy b, out := [], respPending := false }

/-- The operation moves on to stage `b` (R24). -/
def State.goto (b : Busy) (s : State) : State := { s with seq := .busy b }

/-- Hand the response `(STATUS, IOERR, OUT)` to the response channel and return to `IDLE` (R20, R23, R129). -/
def State.respond (code : BitVec 8) (io : IoErr) (s : State) : State :=
  { s with status := code, ioerr := io, respPending := true, seq := .idle, freeCount := s.freeCount + 1 }

/-- `finish(OUT)`: status `OK` (R12). `IOERR` takes a free value (R21, U2). -/
def State.finish (s : State) : State := s.respond statusOk (Config.freeIoErr s.freeCount)

/-- The value `IOERR` takes when kind `k` is raised: the transport's own for `IoError`, else a free value (R125, U2). -/
def State.ioerrFor (k : ErrKind) (s : State) : IoErr :=
  match k with
  | .ioError e => e
  | _ => Config.freeIoErr s.freeCount

/-- `raise` for the one case in which `OUT` keeps its bytes, the `IoError` of READ_EXACT (R131). -/
def State.raiseKeeping (k : ErrKind) (s : State) : State := s.respond k.code (s.ioerrFor k)

/-- `raise K(info)`: the operation ends at once with the kind's status, and `OUT` is emptied (R129, R131).
This is the block's whole exception entry: no handler, no saved context, no return from it (R132). -/
def State.raise (k : ErrKind) (s : State) : State := ({ s with out := [] }).raiseKeeping k

/-- A request of a reserved encoding: accepted, and ended at once with no access (R57). R24 gives it no stage, so `SEQ` takes no `BUSY(op, stage)`
between its acceptance and its response (DESIGN CHOICE, log entry 25). -/
def State.illegal (w : Word) (s : State) : State := ({ s with req := w }).raise .illegalOperation

/-- The response the host reads: present only while held, `IOERR` shown only with status `IoError` (R21, R28, R59). -/
def State.response (s : State) : Option (BitVec 8 × Option IoErr × Bytes) :=
  if s.respPending then
    some (s.status, if s.status = (ErrKind.ioError s.ioerr).code then some s.ioerr else none, s.out)
  else none

/-! ### Reset -/

/-- Reset of the block: every register to its value of R30, `SEQ` to `IDLE`, the held response lost (R142, R144).
The configuration, the offered requests, the transport and which exchanges used it are not touched (R145, R147, R148). -/
def State.resetBlock (s : State) : State :=
  { State.reset with
    lengthRule := s.lengthRule, offered := s.offered, rxResidue := s.rxResidue, txLine := s.txLine,
    history := s.history, inputs := s.inputs, exchanges := s.exchanges, freeCount := s.freeCount }

/-- The next thing on the timeline is reset. -/
def resetNext : List Input → Bool
  | .reset _ :: _ => true
  | _ => false

/-- What is left of the timeline when the block has made a move. -/
def afterMove : List Input → List Input
  | .proceed :: xs => xs
  | xs => xs

/-! ### The world around the block -/

/-- A request joins the offered ones and waits there until the block takes it (R16). -/
def State.hold (r : Offer) (s : State) : State := { s with offered := s.offered ++ [r] }

/-- The transport receives bytes (R46). -/
def State.receive (bytes : Bytes) (s : State) : State := { s with rxResidue := s.rxResidue ++ bytes }

/-- Bytes reach the transmit line (R40). -/
def State.send (bytes : Bytes) (s : State) : State := { s with txLine := s.txLine ++ bytes }

/-- Record a transport access with its answer (R50). -/
def State.record (e : Event) (s : State) : State := { s with history := s.history ++ [e] }

/-- The timeline moves on. -/
def State.await (xs : List Input) (s : State) : State := { s with inputs := xs }

/-- The block makes a move, accepting a request or handing over a response: a `proceed` that let it do so is used up (log entry 10). -/
def State.moved (s : State) : State := s.await (afterMove s.inputs)

/-- The operation is at its end. If reset is next, reset wins: the operation is cut off with no response (R128, R146). Where in the computing
stages since its last access the reset landed makes no difference, since they change only registers of the block (log entry 10). Otherwise the
response is handed over. -/
def State.concluded (s : State) : State :=
  if resetNext s.inputs then (s.await s.inputs.tail).resetBlock else s.moved

/-- What an input that is no answer to the outstanding transport request, and no reset, does while the block waits: an offer is held (R16), received bytes
join the residue (R46), the host must keep off the transport (R51, U7), and an answer to a request of the other direction, there being none
outstanding, is nothing (log entry 4), as is `proceed`, the block having no move to make. -/
def State.meanwhile (x : Input) (s : State) : Except Refusal State :=
  match x with
  | .offer r => if r.fits then .ok (s.hold r) else .error .operandTooLong
  | .arrive b => .ok (s.receive b)
  | .hostWrite _ _ | .hostRead _ _ => .error .transportInterference
  | .rxDeliver _ | .rxTimeout | .rxErr _ | .txOk | .txErr _ _ | .reset _ | .proceed => .ok s

/-! ### One exchange per connection -/

/-- Exchange `x` used the connection before, and another exchange came between: a use by `x` now would interleave the two (R139, R153). -/
def returnsTo (x : Nat) : List Nat → Bool
  | [] => false
  | c :: past => x != c && past.contains x

/-- The exchanges that used the connection, once `x` has used it. -/
def joined (x : Nat) : List Nat → List Nat
  | [] => [x]
  | c :: past => if x = c then c :: past else x :: c :: past

/-- A use of the connection by exchange `x` is noted; `uses` says whether there is one. -/
def State.noted (uses : Bool) (x : Nat) (s : State) : State :=
  { s with exchanges := if uses then joined x s.exchanges else s.exchanges }

/-- What exchange `x` does comes in its turn; if it uses the connection and is interleaved with another exchange, the run is refused
(R139, R153, U7). -/
def inTurn (uses : Bool) (x : Nat) (s : State) (k : State → Result) : Result :=
  if uses && returnsTo x s.exchanges then .refused .exchangesInterleaved else k (s.noted uses x)

/-! ### TxWrite -/

/-- How a `TxWrite` ends. -/
inductive TxResult where
  | ok (s : State)
  | err (e : IoErr) (s : State)
  /-- Not answered yet: the timeline is used up. -/
  | waiting (s : State)
  /-- Cut off by reset. -/
  | cut (s : State)
  | refused (r : Refusal)

/-- `TxWrite(bytes)` waits for its answer (R40), going through the timeline in order. Its bytes reach the line when it is answered, or in part when
reset cuts it off (R146, R149). -/
def awaitTx (bytes : Bytes) : List Input → State → TxResult
  | [], s => .waiting s
  | x :: xs, s =>
    match x with
    | .txOk => .ok (((s.await xs).send bytes).record (.tx bytes .ok))
    | .txErr e reached => .err e (((s.await xs).send (bytes.take reached)).record (.tx bytes (.err e)))
    | .reset reached => .cut ((s.await xs).send (bytes.take reached)).resetBlock
    | .offer _ | .arrive _ | .hostWrite _ _ | .hostRead _ _ | .rxDeliver _ | .rxTimeout | .rxErr _ | .proceed =>
      match (s.await xs).meanwhile x with
      | .ok s' => awaitTx bytes xs s'
      | .error r => .refused r

/-- `TxWrite`, then the rest of the operation; `TxErr(e)` raises `IoError(e)` (R40). -/
def afterTx (bytes : Bytes) (s : State) (k : State → Result) : Result :=
  match awaitTx bytes s.inputs s with
  | .ok s' => k s'
  | .err e s' => .next (s'.raise (.ioError e))
  | .waiting s' => .next s'
  | .cut s' => .next s'
  | .refused r => .refused r

/-! ### RxRead and ReadExact -/

/-- How many bytes the current `ReadExact` still misses: what its next `RxRead` asks for (R80). -/
def State.missing (s : State) : Nat := s.need.toNat - s.acc.length

/-- `Data`: the next `k` received bytes leave the residue, join `ACC` and are recorded (R41, R80). -/
def State.take (k : Nat) (s : State) : State :=
  { s with
    acc := s.acc ++ s.rxResidue.take k, rxResidue := s.rxResidue.drop k,
    history := s.history ++ [.rx s.missing (.data (s.rxResidue.take k))] }

/-- How many bytes the transport hands over when it offers `k`: no more than it holds or the request allows (R41). -/
def State.granted (k : Nat) (s : State) : Nat := min k (min s.missing s.rxResidue.length)

/-- How a `ReadExact` ends (R80). -/
inductive ReadResult where
  | full (s : State)
  | short (s : State)
  | err (e : IoErr) (s : State)
  /-- Not answered yet: the timeline is used up. -/
  | waiting (s : State)
  /-- Cut off by reset. -/
  | cut (s : State)
  | refused (r : Refusal)

/-- The loop of `ReadExact` (R80): while bytes are missing, the outstanding `RxRead` asks for just those and waits for its answer (R41), going through the
timeline in order. Every round of the loop uses up one input. -/
def readLoop : List Input → State → ReadResult
  | [], s => if s.missing = 0 then .full s else .waiting s
  | x :: xs, s =>
    if s.missing = 0 then .full s
    else
      match x with
      | .rxDeliver k =>
        if s.granted k = 0 then .short ((s.await xs).record (.rx s.missing .timeout))
        else readLoop xs ((s.await xs).take (s.granted k))
      | .rxTimeout => .short ((s.await xs).record (.rx s.missing .timeout))
      | .rxErr e => .err e ((s.await xs).record (.rx s.missing (.err e)))
      | .reset _ => .cut (s.await xs).resetBlock
      | .offer _ | .arrive _ | .hostWrite _ _ | .hostRead _ _ | .txOk | .txErr _ _ | .proceed =>
        match (s.await xs).meanwhile x with
        | .ok s' => readLoop xs s'
        | .error r => .refused r

/-- Enter a reading stage: `ACC <- []`, `NEED <- n` (R80). -/
def State.enterRead (b : Busy) (n : BitVec 16) (s : State) : State :=
  { s with seq := .busy b, acc := [], need := n }

/-- `ReadExact`, then the rest of the operation; a short read raises the stage's own kind, and `RxErr(e)` raises
`IoError(e)` before the stage's check (R96, R103). -/
def afterRead (s : State) (onShort : ErrKind) (k : State → Result) : Result :=
  match readLoop s.inputs s with
  | .full s' => k s'
  | .short s' => .next (s'.raise onShort)
  | .err e s' => .next (s'.raise (.ioError e))
  | .waiting s' => .next s'
  | .cut s' => .next s'
  | .refused r => .refused r

end Sys2Proof.Machine
end

