-- ==== Sys2Proof/Machine/Reader.lean ====
section
/-! DEFINITION. The byte-stream accumulator: READ_EXACT (40_reader.md R80 to R87). -/

namespace Sys2Proof.Machine

/-- READ_EXACT at `RX_LOOP` (R86): `Full` and `Short` both finish with the gathered bytes; `RxErr(e)` raises `IoError(e)`
and `OUT` keeps them (R131). -/
def readExactLoop (s : State) : Result :=
  match readLoop s.inputs s with
  | .full s' => writeOut s'.acc s' fun t => .next t.finish
  | .short s' => writeOut s'.acc s' fun t => .next t.finish
  | .err e s' => writeOut s'.acc s' fun t => .next (t.raiseKeeping (.ioError e))
  | .waiting s' => .next s'
  | .cut s' => .next s'
  | .refused r => .refused r

/-- READ_EXACT: read exactly `count` bytes from the receive channel (R86). -/
def execReadExact (addr : BitVec 8) (count : BitVec 16) (s : State) : Result :=
  let s1 := s.start (.readExact addr count) .readExact
  readExactLoop (s1.enterRead .readExact s1.count)

end Sys2Proof.Machine
end

