-- ==== Sys2Proof/Machine/Codec.lean ====
section
/-! DEFINITION. The frame codec: CHECKSUM, ENCODE_CMD, ENCODE_ENQ and EXTRACT_PAYLOAD, and the sub-procedures EXCHANGE shares with them (41_codec.md R88 to R95, R106, R107). -/

namespace Sys2Proof.Machine

/-! ### CHECKSUM -/

/-- CHECKSUM at `FOLD` (R89). -/
def checksumFold (s : State) : Result :=
  writeOut [xorfold s.operand] s fun t => .next t.finish

/-- CHECKSUM: XOR-fold of `IN` (R89). -/
def execChecksum (addr : BitVec 8) (count : BitVec 16) (s : State) : Result :=
  checksumFold (s.start (.checksum addr count) .checksum)

/-! ### BuildFrame and ENCODE_CMD -/

/-- The building part of `BuildFrame` (R91): `FBUF` becomes the frame for the request's address and operand, `BCC` its checksum byte. -/
def State.assemble (s : State) : State :=
  let len := lenenc s.lengthRule s.operand.length
  let body := frameBody s.address len.1 len.2 s.operand
  { s with fbuf := body ++ [xorfold body], bcc := xorfold body }

/-- ENCODE_CMD at `BUILD` (R93). -/
def encodeCmdBuild (s : State) : Result :=
  let t := s.assemble
  writeOut t.fbuf t fun t => .next t.finish

/-- ENCODE_CMD at `CHECK` (R91, R93). -/
def encodeCmdCheck (s : State) : Result :=
  match checkCommand s.address s.operand with
  | some k => .next (s.raise k)
  | none => encodeCmdBuild (s.goto (.encodeCmd .build))

/-- ENCODE_CMD: build a command frame in `OUT`; no transport access (R93). -/
def execEncodeCmd (addr : BitVec 8) (count : BitVec 16) (s : State) : Result :=
  encodeCmdCheck (s.start (.encodeCmd addr count) (.encodeCmd .check))

/-! ### BuildEnq and ENCODE_ENQ -/

/-- The building part of `BuildEnq` (R94): `FBUF`, the frame being built (R22), becomes the enquiry frame (log entry 6). -/
def State.assembleEnq (s : State) : State := { s with fbuf := enqByte :: addrDigits s.address }

/-- ENCODE_ENQ at `BUILD` (R95). -/
def encodeEnqBuild (s : State) : Result :=
  let t := s.assembleEnq
  writeOut t.fbuf t fun t => .next t.finish

/-- ENCODE_ENQ at `CHECK` (R94, R95). -/
def encodeEnqCheck (s : State) : Result :=
  match buildEnq s.address with
  | .error k => .next (s.raise k)
  | .ok _ => encodeEnqBuild (s.goto (.encodeEnq .build))

/-- ENCODE_ENQ: build an enquiry frame in `OUT`; no transport access (R95). -/
def execEncodeEnq (addr : BitVec 8) (count : BitVec 16) (s : State) : Result :=
  encodeEnqCheck (s.start (.encodeEnq addr count) (.encodeEnq .check))

/-! ### ExtractPayload and EXTRACT_PAYLOAD -/

/-- Set `LEN` from the length field of a frame of at least 5 bytes (R66, R106). -/
def State.decodeLen (frame : Bytes) (s : State) : State :=
  { s with len := lendec s.lengthRule (frame.getD 3 0) (frame.getD 4 0) }

/-- The payload region of a frame, and the end of the operation that asked for it (R106, R107, R117). -/
def sliceFrame (frame : Bytes) (s : State) : Result :=
  writeOut ((frame.drop 5).take s.len) s fun t => .next t.finish

/-- `ExtractPayload(F)`: `FrameTooShort` for a frame shorter than the header or than its length field says (R106). The two
checks, then, from stage `b`, the slice. -/
def extractFrom (frame : Bytes) (b : Busy) (s : State) : Result :=
  if frame.length < 5 then .next (s.raise .frameTooShort)
  else
    let t := s.decodeLen frame
    if frame.length < 5 + t.len then .next (t.raise .frameTooShort)
    else sliceFrame frame (t.goto b)

/-- EXTRACT_PAYLOAD at `CHECK` (R107). -/
def extractPayloadCheck (s : State) : Result :=
  extractFrom s.operand (.extractPayload .slice) s

/-- EXTRACT_PAYLOAD: slice the payload out of the frame in `IN`; no transport access (R107). -/
def execExtractPayload (addr : BitVec 8) (count : BitVec 16) (s : State) : Result :=
  extractPayloadCheck (s.start (.extractPayload addr count) (.extractPayload .check))

end Sys2Proof.Machine
end

