-- ==== Sys2Proof/Machine/Decoder.lean ====
section
/-! DEFINITION. The frame decoder `DecodeFrame`, stage by stage, and DECODE_RESP (41_codec.md R96 to R104). A stage function is entered with its `ReadExact` begun; DECODE_RESP and EXCHANGE share the stages and differ in what follows the last. -/

namespace Sys2Proof.Machine

/-- The operation that runs `DecodeFrame`. -/
inductive FrameUser where
  | decodeResp
  | exchange
  deriving DecidableEq, Repr

/-- The sequencer's place while that operation is at a decoding stage (R24). -/
def FrameUser.place (u : FrameUser) (f : FrameStage) : Busy :=
  match u with
  | .decodeResp => .decodeResp (.frame f)
  | .exchange => .exchange (.frame f)

/-- Append the field just read to `FBUF` and fold it into `BCC` (R96). -/
def State.takeField (s : State) : State :=
  { s with fbuf := s.fbuf ++ s.acc, bcc := s.bcc ^^^ xorfold s.acc }

/-- `DecodeFrame` returned the frame in `FBUF`: DECODE_RESP hands over all of it (R104), EXCHANGE its payload (R117). -/
def frameDone (u : FrameUser) (s : State) : Result :=
  match u with
  | .decodeResp => writeOut s.fbuf s fun t => .next t.finish
  | .exchange => extractFrom s.fbuf (.exchange .extract) (s.goto (.exchange .extract))

/-- `RD_BCC`: the last byte must equal `BCC` (R102); it is appended and not folded. -/
def rdBcc (u : FrameUser) (s : State) : Result :=
  afterRead s .checksumMismatch fun t =>
    if t.acc.head? = some t.bcc then frameDone u { t with fbuf := t.fbuf ++ t.acc }
    else .next (t.raise .checksumMismatch)

/-- `RD_END`: the byte after the payload must be the end marker (R101). -/
def rdEnd (u : FrameUser) (s : State) : Result :=
  afterRead s .malformedEnd fun t =>
    if t.acc.head? = some endByte then rdBcc u (t.takeField.enterRead (u.place .rdBcc) 1)
    else .next (t.raise .malformedEnd)

/-- `RD_PAYLOAD`: exactly `LEN` bytes, whatever their values (R100). -/
def rdPayload (u : FrameUser) (s : State) : Result :=
  afterRead s .lengthMismatch fun t => rdEnd u (t.takeField.enterRead (u.place .rdEnd) 1)

/-- `LEN` from the two length bytes in `ACC` (R99). -/
def State.readLen (s : State) : State :=
  { s with len := lendec s.lengthRule (s.acc.getD 0 0) (s.acc.getD 1 0) }

/-- `RD_LEN`: the two length bytes, which are checked against nothing (R99). -/
def rdLen (u : FrameUser) (s : State) : Result :=
  afterRead s .shortLength fun t =>
    let t' := t.readLen.takeField
    rdPayload u (t'.enterRead (u.place .rdPayload) (BitVec.ofNat 16 t'.len))

/-- `RD_ADDR`: both address bytes must equal `ABUF` (R98). -/
def rdAddr (u : FrameUser) (s : State) : Result :=
  afterRead s .addressMismatch fun t =>
    if t.acc = t.abuf then rdLen u (t.takeField.enterRead (u.place .rdLen) 2)
    else .next (t.raise .addressMismatch)

/-- `RD_START`: the first byte must be the start marker (R97). -/
def rdStart (u : FrameUser) (s : State) : Result :=
  afterRead s .malformedStart fun t =>
    if t.acc.head? = some startByte then rdAddr u (t.takeField.enterRead (u.place .rdAddr) 2)
    else .next (t.raise .malformedStart)

/-- `DecodeFrame(a)` begins with an empty frame and fold and the expected digits, and reads the start marker (R96). -/
def decodeFrame (u : FrameUser) (s : State) : Result :=
  rdStart u (({ s with fbuf := [], bcc := 0, abuf := addrDigits s.address }).enterRead (u.place .rdStart) 1)

/-- DECODE_RESP at `CHECK`: the address before any read (R64, R104). -/
def decodeRespCheck (s : State) : Result :=
  if Config.addrMax < s.address then .next (s.raise .invalidAddress) else decodeFrame .decodeResp s

/-- DECODE_RESP: read and validate one response frame (R104). -/
def execDecodeResp (addr : BitVec 8) (count : BitVec 16) (s : State) : Result :=
  decodeRespCheck (s.start (.decodeResp addr count) (.decodeResp .check))

/-- `DecodeFrame` taken up at a stage whose read is outstanding. -/
def resumeFrame (u : FrameUser) (f : FrameStage) (s : State) : Result :=
  match f with
  | .rdStart => rdStart u s
  | .rdAddr => rdAddr u s
  | .rdLen => rdLen u s
  | .rdPayload => rdPayload u s
  | .rdEnd => rdEnd u s
  | .rdBcc => rdBcc u s

end Sys2Proof.Machine
end

