-- ==== Sys2Proof/Machine/Session.lean ====
section
/-! DEFINITION. The handshake sequencer: EXCHANGE, stage by stage (42_session.md R111 to R117). -/

namespace Sys2Proof.Machine

/-- `TX_ENQ`: the enquiry for the same address, then the response (R115, R116). `BuildEnq` cannot fail here, since
`BuildFrame` checked the address. -/
def exchangeTxEnq (s : State) : Result :=
  match buildEnq s.address with
  | .error k => .next (s.raise k)
  | .ok enquiry => afterTx enquiry s.assembleEnq (decodeFrame .exchange)

/-- `RD_ACKADDR`: both bytes must be the address digits (R114). -/
def exchangeRdAckAddr (s : State) : Result :=
  afterRead s .ackAddressMismatch fun t =>
    if t.acc = t.abuf then exchangeTxEnq (t.goto (.exchange .txEnq))
    else .next (t.raise .ackAddressMismatch)

/-- `RD_ACK`: one byte, which must be `ACK` (R113). -/
def exchangeRdAck (s : State) : Result :=
  afterRead s .shortAck fun t =>
    if t.acc.head? = some ackByte then
      exchangeRdAckAddr (({ t with abuf := addrDigits t.address }).enterRead (.exchange .rdAckAddr) 2)
    else .next (t.raise .notAcknowledged)

/-- `TX_CMD`: the command frame in `FBUF`, in one write (R112). -/
def exchangeTxCmd (s : State) : Result :=
  afterTx s.fbuf s fun t => exchangeRdAck (t.enterRead (.exchange .rdAck) 1)

/-- `ENC`: `BuildFrame` of the request's address and operand; if it raises, nothing is sent (R112). -/
def exchangeEnc (s : State) : Result :=
  match checkCommand s.address s.operand with
  | some k => .next (s.raise k)
  | none => exchangeTxCmd (s.assemble.goto (.exchange .txCmd))

/-- EXCHANGE: send a command to a device and return its response payload (R111). -/
def execExchange (addr : BitVec 8) (count : BitVec 16) (s : State) : Result :=
  exchangeEnc (s.start (.exchange addr count) (.exchange .enc))

end Sys2Proof.Machine
end

