-- ==== Sys2Proof/Machine/Sequencer.lean ====
section
/-! DEFINITION. What surrounds an operation: accepting a request (10_state.md R16), taking up an operation whose transport request was not yet answered (R24, 60_exceptions.md R141), the idle block's inputs (R51, R144), and a reset that comes before an acceptance or at an operation's end (60_exceptions.md R128, 70_reset_and_hazards.md R142, R146). -/

namespace Sys2Proof.Machine

/-- Acceptance takes the oldest offered request off the channel and latches its operand in `IN` (R16, R18). `REQ` is latched by `State.start`
or `State.illegal`. -/
def State.accept (r : Offer) (rest : List Offer) (s : State) : State :=
  { s with offered := rest, inBuf := r.operand, respPending := false }

/-- What a stage does with the transport. -/
inductive Access where
  | none | tx | rx
  deriving DecidableEq, Repr

/-- The transport access of a stage (R38, R111). -/
def Busy.access : Busy → Access
  | .readExact => .rx
  | .decodeResp (.frame _) => .rx
  | .exchange .txCmd => .tx
  | .exchange .rdAck => .rx
  | .exchange .rdAckAddr => .rx
  | .exchange .txEnq => .tx
  | .exchange (.frame _) => .rx
  | .checksum => .none
  | .encodeCmd _ => .none
  | .encodeEnq _ => .none
  | .decodeResp .check => .none
  | .extractPayload _ => .none
  | .exchange .enc => .none
  | .exchange .extract => .none

/-- Operations on the connection: those whose stages access the transport (R38, R111). -/
def usesTransport : Instr → Bool
  | .readExact _ _ | .decodeResp _ _ | .exchange _ _ => true
  | .checksum _ _ | .encodeCmd _ _ | .encodeEnq _ _ | .extractPayload _ _ => false

/-- A transport request is outstanding (R47). -/
def State.awaiting (s : State) : Bool :=
  match s.seq with
  | .idle => false
  | .busy b =>
    match b.access with
    | .none => false
    | .tx => true
    | .rx => s.missing != 0

/-- The transport never answers the outstanding request (R154, U6). -/
def State.hung (s : State) : Bool := s.awaiting && s.inputs.isEmpty

/-- An operation goes on from the stage it stands at, with its registers as they stand (R22, R24). -/
def resume (b : Busy) (s : State) : Result :=
  match b with
  | .readExact => readExactLoop s
  | .checksum => checksumFold s
  | .encodeCmd .check => encodeCmdCheck s
  | .encodeCmd .build => encodeCmdBuild s
  | .encodeEnq .check => encodeEnqCheck s
  | .encodeEnq .build => encodeEnqBuild s
  | .decodeResp .check => decodeRespCheck s
  | .decodeResp (.frame f) => resumeFrame .decodeResp f s
  | .extractPayload .check => extractPayloadCheck s
  | .extractPayload .slice => sliceFrame s.operand s
  | .exchange .enc => exchangeEnc s
  | .exchange .txCmd => exchangeTxCmd s
  | .exchange .rdAck => exchangeRdAck s
  | .exchange .rdAckAddr => exchangeRdAckAddr s
  | .exchange .txEnq => exchangeTxEnq s
  | .exchange (.frame f) => resumeFrame .exchange f s
  | .exchange .extract => extractFrom s.fbuf (.exchange .extract) s

/-- The busy block's step: it goes on, unless its transport request is never answered (R154). -/
def stepBusy (b : Busy) (s : State) : Result :=
  if s.hung then .fault .transportHang else resume b s

/-- The idle block with no request offered: the outside world does the next thing on the timeline, and with nothing
left the block waits as it is (R34). The host may use the transport (R51), one exchange after the other (R153). An answer with no request outstanding is nothing (log entry 4). A `reset` is the whole pulse, so the next
step may accept a request (log entry 23). -/
def stepIdle (s : State) : Result :=
  match s.inputs with
  | [] => .next s
  | x :: xs =>
    let t := s.await xs
    match x with
    | .offer r => if r.fits then .next (t.hold r) else .refused .operandTooLong
    | .reset _ => .next t.resetBlock
    | .arrive b => .next (t.receive b)
    | .hostWrite e b => inTurn true e t fun u => .next (u.send b)
    | .hostRead e n => inTurn true e t fun u => .next { u with rxResidue := u.rxResidue.drop n }
    | .rxDeliver _ | .rxTimeout | .rxErr _ | .txOk | .txErr _ _ | .proceed => .next t

/-- What a step makes of an operation's result: an operation at its end is cut off by a reset that is next (R128, R146). One that waits for
the transport stays so, and one that a reset has cut off at a wait is over. -/
def settle (r : Result) : Result :=
  match r with
  | .next t => .next (if t.respPending then t.concluded else t)
  | .fault f => .fault f
  | .refused x => .refused x

/-- An accepted request runs: the operation its word names, or the end of a reserved encoding (R16, R57). An operation on the connection
that would interleave its exchange with another is refused (R139, R153, U7; log entry 26). -/
def runRequest (r : Offer) (rest : List Offer) (run : Instr → State → Result) (s : State) : Result :=
  match decodeWord r.word with
  | .ok i => inTurn (usesTransport i) r.exchange (s.accept r rest) (run i)
  | .error _ => .next ((s.accept r rest).illegal r.word)

/-- The idle block with a request offered: a reset that is next comes first and leaves the request offered (R142, R144, R145); otherwise the
block accepts it and runs it (R16). Anything else that is next comes after the acceptance, a host's own use of the transport (R51) too, which the spec
does not order against it (DESIGN CHOICE, log entry 24). `run` is the meaning of an operation. -/
def stepOffered (r : Offer) (rest : List Offer) (run : Instr → State → Result) (s : State) : Result :=
  if resetNext s.inputs then stepIdle s else settle (runRequest r rest run s.moved)

/-- A request is put at the head of the channel of an idle block, with the operand bytes now in `IN`, for the exchange that used the connection
last, so that it interleaves nothing. If a reset is next on the timeline, the block accepts the request before it. -/
def State.place (w : Word) (s : State) : State :=
  { s with
    seq := .idle, offered := ⟨⟨w, s.inBuf⟩, s.exchanges.headD 0⟩ :: s.offered,
    inputs := if resetNext s.inputs then .proceed :: s.inputs else s.inputs }

end Sys2Proof.Machine
end

