-- ==== Sys2Proof/Machine/Dispatch.lean ====
section
/-! DEFINITION. The meaning of every operation, one arm per constructor of Instr. -/

namespace Sys2Proof.Machine

def exec (i : Instr) (s : State) : Host.Outcome State Fault Refusal :=
  match i with
  | .readExact addr count => Sys2Proof.Machine.execReadExact addr count s
  | .checksum addr count => Sys2Proof.Machine.execChecksum addr count s
  | .encodeCmd addr count => Sys2Proof.Machine.execEncodeCmd addr count s
  | .encodeEnq addr count => Sys2Proof.Machine.execEncodeEnq addr count s
  | .decodeResp addr count => Sys2Proof.Machine.execDecodeResp addr count s
  | .extractPayload addr count => Sys2Proof.Machine.execExtractPayload addr count s
  | .exchange addr count => Sys2Proof.Machine.execExchange addr count s

end Sys2Proof.Machine
end

