-- ==== Sys2Proof/Machine/Step.lean ====
section
/-! DEFINITION. One step of the machine: the idle block accepts the oldest offered request and runs its operation to its end or to an unanswered transport request; the busy block goes on; the idle block with no request lets the outside world act; a reset that is next comes before an acceptance and before a response. -/

namespace Sys2Proof.Machine

/-- One step (R16, R23, R57, R128). -/
def step (s : State) : Host.Outcome State Fault Refusal :=
  match s.seq with
  | .busy b => settle (stepBusy b s)
  | .idle =>
    match s.offered with
    | [] => stepIdle s
    | r :: rest => stepOffered r rest exec s

/-- The block has no program: a request word comes to run by being offered to the idle block. This offers the word
`w` first, so that the very next step accepts and runs it (log entry 7). Bits of `w` above `nbits` are 0, and one
request word has 32 bits (R54). -/
def State.withFetchWord (s : State) (nbits w : Nat) : State :=
  s.place (BitVec.ofNat 32 (w % 2 ^ nbits))

end Sys2Proof.Machine
end

