-- ==== Sys2Proof/Machine/Catalog.lean ====
section
/-! DEFINITION. The pseudo-operations: fixed command payloads handed to EXCHANGE (30_encoding.md R76, R77). They have no request word of their own. -/

namespace Sys2Proof.Machine

/-- The three card technologies (R77). -/
inductive Technology where
  | first | second | third
  deriving DecidableEq, Repr

/-- Technology bytes 0x3b, 0x3c, 0x3d (R77). -/
def Technology.byte : Technology → Byte
  | .first => 0x3b
  | .second => 0x3c
  | .third => 0x3d

/-- Key-type selectors (R77). -/
inductive KeyType where
  | keyA | keyB
  deriving DecidableEq, Repr

/-- 0x30 for key A, 0x31 for key B (R77). -/
def KeyType.byte : KeyType → Byte
  | .keyA => 0x30
  | .keyB => 0x31

/-- The pseudo-operations of R76 and R77. The sector and key bytes of load-key are the host's (U18). -/
inductive Pseudo where
  | gv | rf | ap | rs
  /-- Position command `"FC0"` to `"FC8"`. -/
  | fc (k : Fin 9)
  | dc | cp
  /-- The generic passthrough. -/
  | send (code : Bytes)
  | detect (t : Technology)
  | getId (t : Technology)
  | loadKey (sector : Bytes) (kt : KeyType) (key : Bytes)
  deriving DecidableEq, Repr

/-- The payload a pseudo-operation hands to EXCHANGE, in the ASCII codes of R13. -/
def Pseudo.payload : Pseudo → Bytes
  | .gv => [0x47, 0x56]
  | .rf => [0x52, 0x46]
  | .ap => [0x41, 0x50]
  | .rs => [0x52, 0x53]
  | .fc k => [0x46, 0x43, BitVec.ofNat 8 (0x30 + k.val)]
  | .dc => [0x44, 0x43]
  | .cp => [0x43, 0x50]
  | .send code => code
  | .detect t => [t.byte, 0x30]
  | .getId t => [t.byte, 0x31]
  | .loadKey sector kt key => [0x3b, 0x32] ++ sector ++ [kt.byte] ++ key

/-- `EXCHANGE a, <payload>` (R76, R77). -/
def Pseudo.expand (a : BitVec 8) (p : Pseudo) : Asm := .exchange a p.payload

end Sys2Proof.Machine
end

