-- ==== Sys2Proof/Safety.lean ====
section
/-! DEFINITION. The terms claims use: what the history says crossed the line (20_memory.md R50), what the timeline brought, and the invariant of a state between steps. -/

namespace Sys2Proof.Machine

/-! ### Reading the history and the timeline -/

/-- The bytes an access sent: those of a `TxEvent` answered `TxOk` (R50). -/
def Event.sent : Event → Bytes
  | .tx bytes .ok => bytes
  | .tx _ (.err _) => []
  | .rx _ _ => []

/-- The bytes an access read: those of a `Data` answer (R50). -/
def Event.got : Event → Bytes
  | .rx _ (.data bytes) => bytes
  | .rx _ .timeout => []
  | .rx _ (.err _) => []
  | .tx _ _ => []

/-- An access is a read request. -/
def Event.isRx : Event → Bool
  | .rx _ _ => true
  | .tx _ _ => false

/-- The bytes the block has sent (R50). -/
def sentBytes (h : List Event) : Bytes := h.flatMap Event.sent

/-- The writes among accesses, each with its answer. -/
def writesOf (h : List Event) : List Event := h.filter fun e => !e.isRx

/-- The bytes the block has read (R50). -/
def readBytes (h : List Event) : Bytes := h.flatMap Event.got

/-- An access R40 and R41 allow: no empty write; a read asks for at least one byte and gets no more than it asked for, and
`Data` is not empty. -/
def Event.allowed : Event → Prop
  | .tx bytes _ => bytes ≠ []
  | .rx m (.data bytes) => 1 ≤ bytes.length ∧ bytes.length ≤ m
  | .rx m .timeout => 1 ≤ m
  | .rx m (.err _) => 1 ≤ m

/-- The bytes one input brings to the transport. -/
def Input.brings : Input → Bytes
  | .arrive b => b
  | .offer _ | .reset _ | .rxDeliver _ | .rxTimeout | .rxErr _ | .txOk | .txErr _ _ | .hostWrite _ _ | .hostRead _ _ | .proceed => []

/-- The requests one input offers. -/
def Input.offers : Input → List Offer
  | .offer r => [r]
  | .arrive _ | .reset _ | .rxDeliver _ | .rxTimeout | .rxErr _ | .txOk | .txErr _ _ | .hostWrite _ _ | .hostRead _ _ | .proceed => []

/-- The bytes a stretch of the timeline brings, in order. -/
def arrivals (xs : List Input) : Bytes := xs.flatMap Input.brings

/-- The requests a stretch of the timeline offers, in order. -/
def offersIn (xs : List Input) : List Offer := xs.flatMap Input.offers

/-- A stretch of the timeline in which the transport answers read requests one after another, offering `k` bytes each time. -/
def deliveries (ks : List Nat) : List Input := ks.map Input.rxDeliver

/-- Enough answers for `n` bytes, however the transport splits them: at least `n` answers of at least one byte. -/
def Feeds (ks : List Nat) (n : Nat) : Prop := (∀ k ∈ ks, 1 ≤ k) ∧ n ≤ ks.length

/-! ### Exchanges -/

/-- The exchange that the next step lets use the connection (R51, R139): that of the request the idle block takes up, if it is an operation that
accesses the transport (R38); with no request offered, that of the host's own access, if one is next. A reset that is next comes first. -/
def State.nextUse (s : State) : Option Nat :=
  match s.seq with
  | .busy _ => none
  | .idle =>
    match s.offered with
    | r :: _ =>
      match decodeWord r.word with
      | .ok (.readExact _ _) | .ok (.decodeResp _ _) | .ok (.exchange _ _) => if resetNext s.inputs then none else some r.exchange
      | .ok (.checksum _ _) | .ok (.encodeCmd _ _) | .ok (.encodeEnq _ _) | .ok (.extractPayload _ _) | .error _ => none
    | [] =>
      match s.inputs with
      | .hostWrite x _ :: _ | .hostRead x _ :: _ => some x
      | _ => none

/-! ### Frames -/

/-- Everything around the block is as before: configuration, offered requests, transport, timeline, the exchanges that used the connection. -/
def State.SameWorld (s t : State) : Prop :=
  t.lengthRule = s.lengthRule ∧ t.offered = s.offered ∧ t.rxResidue = s.rxResidue ∧ t.txLine = s.txLine ∧
    t.history = s.history ∧ t.inputs = s.inputs ∧ t.exchanges = s.exchanges

/-- The operation ended with a response (R59). -/
def State.Ended (t : State) : Prop := t.seq = .idle ∧ t.respPending = true

/-- The operation waits for the transport with the timeline used up. -/
def State.Waits (t : State) : Prop := t.awaiting = true ∧ t.inputs = [] ∧ t.respPending = false

/-- The block stands as reset leaves it: `resetBlock` would change nothing. -/
def State.AsReset (t : State) : Prop := t.resetBlock = t

/-- The bytes of the write that is outstanding (R112, R115). -/
def State.pendingTx (s : State) : Bytes :=
  match s.seq with
  | .busy (.exchange .txCmd) => s.fbuf
  | .busy (.exchange .txEnq) => s.fbuf
  | _ => []

/-! ### The invariant -/

/-- The registers of `DecodeFrame` at a stage whose read is outstanding: `FBUF` is the frame's beginning, checked as far as it goes,
`BCC` its fold, `ABUF` the digits of `a`, `NEED` the size of the field, and `LEN` the payload length once it is known (R96). -/
def frameInv (f : FrameStage) (a : Nat) (s : State) : Prop :=
  s.abuf = addrDigits a ∧ s.bcc = xorfold s.fbuf ∧
    match f with
    | .rdStart => s.fbuf = [] ∧ s.need = 1
    | .rdAddr => s.fbuf = [startByte] ∧ s.need = 2
    | .rdLen => s.fbuf = startByte :: addrDigits a ∧ s.need = 2
    | .rdPayload => ∃ h l, s.fbuf = startByte :: addrDigits a ++ [h, l] ∧ s.len = lendec s.lengthRule h l ∧ s.need.toNat = s.len
    | .rdEnd => ∃ h l p, s.fbuf = startByte :: addrDigits a ++ [h, l] ++ p ∧ s.len = lendec s.lengthRule h l ∧
        p.length = s.len ∧ s.need = 1
    | .rdBcc => ∃ h l p, s.fbuf = frameBody a h l p ∧ s.len = lendec s.lengthRule h l ∧ p.length = s.len ∧ s.need = 1

/-- The registers of EXCHANGE at a stage whose transport request is outstanding: the command frame in `FBUF` while it is being written (R112), the size of the
acknowledgement's two fields and the expected digits (R113, R114), the enquiry in `FBUF` while it is being written (R115), then those of `DecodeFrame`. At its first and last stage it waits for nothing. -/
def exchangeInv (st : ExchangeStage) (s : State) : Prop :=
  match st with
  | .enc => False
  | .txCmd => s.fbuf = commandFrame s.lengthRule s.address s.inBuf ∧ 1 ≤ s.inBuf.length ∧ s.inBuf.length ≤ Config.maxPayload
  | .rdAck => s.need = 1
  | .rdAckAddr => s.need = 2 ∧ s.abuf = addrDigits s.address
  | .txEnq => s.fbuf = enqByte :: addrDigits s.address
  | .frame f => frameInv f s.address s
  | .extract => False

/-- What a busy block between steps looks like: it waits at a transport stage of the operation its `REQ` names, with an empty `OUT`,
no response held, and its working registers as the stage needs them. -/
def busyInv (b : Busy) (s : State) : Prop :=
  s.awaiting = true ∧ s.respPending = false ∧ s.out = [] ∧
    match b with
    | .readExact => decodeWord s.req = .ok (.readExact (addrField s.req) s.count) ∧ s.need = s.count
    | .decodeResp (.frame f) =>
      decodeWord s.req = .ok (.decodeResp (addrField s.req) s.count) ∧ s.address ≤ Config.addrMax ∧ frameInv f s.address s
    | .exchange st =>
      decodeWord s.req = .ok (.exchange (addrField s.req) s.count) ∧ s.address ≤ Config.addrMax ∧ exchangeInv st s
    | .checksum => False
    | .encodeCmd _ => False
    | .encodeEnq _ => False
    | .decodeResp .check => False
    | .extractPayload _ => False

/-- The bounds of the block's byte sequences and counts (R18, R19, R22). -/
def State.Bounded (s : State) : Prop :=
  s.inBuf.length ≤ Config.maxIn ∧ s.out.length ≤ Config.maxOut ∧ s.acc.length ≤ 65535 ∧ s.len ≤ 65535 ∧
    s.fbuf.length ≤ Config.maxOut ∧ s.abuf.length ≤ 2

/-- The invariant of a state between steps: buffers within their bounds (R18, R19, R22), a status the block may return (R58, U12),
offered operands the channel can carry (R18), a history of allowed accesses (R40, R41), exchanges that used the connection one after the
other, none of them twice (R153), and a block that is idle or properly waiting. -/
def State.Inv (s : State) : Prop :=
  s.Bounded ∧ s.status.toNat ≤ 15 ∧
    (∀ r ∈ s.offered, r.fits = true) ∧ (∀ e ∈ s.history, e.allowed) ∧ s.exchanges.Nodup ∧
    match s.seq with
    | .idle => True
    | .busy b => busyInv b s

end Sys2Proof.Machine
end

