-- ==== Sys2Proof/Certificates/Slice0/Obligations.lean ====
section
/-! DEFINITION. The statements about the model, for the provers. -/

open Sys2Proof Sys2Proof.Machine

/-! ### Encoding -/

/-- R54, R55: no bit of an operation's word is dropped. Decoding an encoded operation gives it back, for every operation and every
value of both operand fields. -/
def Obligations.DecodeOfEncodeIsTheOperation : Prop :=
  ∀ i : Instr, decodeWord (encode i) = .ok i

/-- R54, R55: each legal word is the word of one operation only, namely of what it decodes to. -/
def Obligations.EncodeOfDecodeIsTheWord : Prop :=
  ∀ (w : Word) (i : Instr), decodeWord w = .ok i → encode i = w

/-- R55: `op = REQ[2:0]` alone selects the operation when `rsv = REQ[7:3]` is 0, with `addr = REQ[15:8]` and `count = REQ[31:16]`;
`op = 7`, or `rsv` not 0, is no operation. -/
def Obligations.OperationCodeSelectsOperation : Prop :=
  ∀ w : Word,
    (w.extractLsb' 3 5 = 0 →
      (w.extractLsb' 0 3 = 0 → decodeWord w = .ok (.readExact (w.extractLsb' 8 8) (w.extractLsb' 16 16))) ∧
      (w.extractLsb' 0 3 = 1 → decodeWord w = .ok (.checksum (w.extractLsb' 8 8) (w.extractLsb' 16 16))) ∧
      (w.extractLsb' 0 3 = 2 → decodeWord w = .ok (.encodeCmd (w.extractLsb' 8 8) (w.extractLsb' 16 16))) ∧
      (w.extractLsb' 0 3 = 3 → decodeWord w = .ok (.encodeEnq (w.extractLsb' 8 8) (w.extractLsb' 16 16))) ∧
      (w.extractLsb' 0 3 = 4 → decodeWord w = .ok (.decodeResp (w.extractLsb' 8 8) (w.extractLsb' 16 16))) ∧
      (w.extractLsb' 0 3 = 5 → decodeWord w = .ok (.extractPayload (w.extractLsb' 8 8) (w.extractLsb' 16 16))) ∧
      (w.extractLsb' 0 3 = 6 → decodeWord w = .ok (.exchange (w.extractLsb' 8 8) (w.extractLsb' 16 16))) ∧
      (w.extractLsb' 0 3 = 7 → decodeWord w = .error .reservedOp)) ∧
    (w.extractLsb' 3 5 ≠ 0 → decodeWord w = .error .reservedBits)

/-- 95_test_vectors.md sections 3 and 4: words written out there decode to the operation they stand for. -/
def Obligations.WrittenWordsDecode : Prop :=
  decodeWord 0x00030000 = .ok (.readExact 0 3) ∧ decodeWord 0xABCD1201 = .ok (.checksum 0x12 0xABCD) ∧
    decodeWord 0x00000F02 = .ok (.encodeCmd 15 0) ∧ decodeWord 0x00001003 = .ok (.encodeEnq 16 0) ∧
    decodeWord 0x00000204 = .ok (.decodeResp 2 0) ∧ decodeWord 0x00000005 = .ok (.extractPayload 0 0) ∧
    decodeWord 0x00000506 = .ok (.exchange 5 0) ∧ decodeWord 0x00000512 = .error .reservedBits ∧
    decodeWord 0x00000007 = .error .reservedOp

/-! ### The step -/

/-- R16, R55: when the block is idle, no reset is next, and the oldest offered request's word decodes to `i`, the step takes that request off the
channel, latches its operand in `IN`, drops the response held before, and is `exec i`, settled: a reset that is next at the operation's end wins
(ResetWinsOverResponse says how). The acceptance is a move of the block, so it uses up a `proceed` of the timeline (log entry 10, the model's choice).
An operation on the connection is noted as a use by its exchange, and one that comes back after another exchange came between does not run but is refused
(InterleavedExchangesAreRefused; log entry 26, the model's choice). -/
def Obligations.StepRunsAcceptedOperation : Prop :=
  ∀ (s : State) (r : Offer) (rest : List Offer) (i : Instr),
    s.seq = .idle → s.offered = r :: rest → decodeWord r.word = .ok i → resetNext s.inputs = false →
    (usesTransport i = true → returnsTo r.exchange s.exchanges = false) →
      step s = settle (exec i { s with
        offered := rest, inBuf := r.operand, respPending := false, inputs := afterMove s.inputs,
        exchanges := if usesTransport i then joined r.exchange s.exchanges else s.exchanges })

/-- R17, R18: the accepted word stands in `REQ` and the accepted operand in `IN` at the end of the step that accepts the request,
unless a reset fell into that step. -/
def Obligations.AcceptanceLatchesRequest : Prop :=
  ∀ (s t : State) (r : Offer) (rest : List Offer),
    s.seq = .idle → s.offered = r :: rest → step s = .next t →
      (t.req = r.word ∧ t.inBuf = r.operand) ∨
        (t.AsReset ∧ ∃ used k, s.inputs = used ++ t.inputs ∧ Input.reset k ∈ used)

/-- R57: a request with `op = 7` or `rsv ≠ 0` is accepted, does no buffer or transport access and ends at once with `IllegalOperation`
and an empty `OUT`, when no reset comes before its acceptance or its response. That `REQ` and `IN` hold the request (R16 to R18) and that the
working registers are as before is the model's reading (log entry 21); that both moves use up a `proceed` of the timeline is log entry 10. -/
def Obligations.ReservedEncodingEndsIllegal : Prop :=
  ∀ (s : State) (r : Offer) (rest : List Offer),
    s.seq = .idle → s.offered = r :: rest → (r.word.extractLsb' 0 3 = 7 ∨ r.word.extractLsb' 3 5 ≠ 0) →
    resetNext s.inputs = false → resetNext (afterMove s.inputs) = false →
      ∃ t, step s = .next t ∧ t.Ended ∧ t.status = 15 ∧ t.out = [] ∧ t.req = r.word ∧ t.inBuf = r.operand ∧
        t.offered = rest ∧ t.lengthRule = s.lengthRule ∧ t.rxResidue = s.rxResidue ∧ t.txLine = s.txLine ∧
        t.history = s.history ∧ t.inputs = afterMove (afterMove s.inputs) ∧ t.exchanges = s.exchanges ∧ t.acc = s.acc ∧ t.need = s.need ∧ t.bcc = s.bcc ∧ t.len = s.len ∧
        t.fbuf = s.fbuf ∧ t.abuf = s.abuf

/-- R16: requests offered while an operation runs stay offered, in the order they were offered after those already there: none is accepted,
dropped or merged. -/
def Obligations.OfferedRequestsAreHeld : Prop :=
  (∀ (i : Instr) (s t : State), exec i s = .next t →
    ∃ used, s.inputs = used ++ t.inputs ∧ t.offered = s.offered ++ offersIn used) ∧
  (∀ (b : Busy) (s t : State), s.seq = .busy b → step s = .next t →
    ∃ used, s.inputs = used ++ t.inputs ∧ t.offered = s.offered ++ offersIn used)

/-- R23, R59: an operation ends with one response and the block idle, or waits for the transport with none, or a reset cut it off, which leaves the
block idle with an empty `OUT` and no response. The same holds of the step that accepts a request and of the step of a busy block. That a wait with
the timeline used up is a next state is the model's way (log entry 8). -/
def Obligations.OneResponsePerOperation : Prop :=
  (∀ (i : Instr) (s t : State), exec i s = .next t →
    ∃ used, s.inputs = used ++ t.inputs ∧
      (t.Ended ∨ t.Waits ∨ (t.seq = .idle ∧ t.out = [] ∧ t.response = none ∧ ∃ k, Input.reset k ∈ used))) ∧
  (∀ (s t : State) (r : Offer) (rest : List Offer), s.seq = .idle → s.offered = r :: rest → step s = .next t →
    ∃ used, s.inputs = used ++ t.inputs ∧
      (t.Ended ∨ t.Waits ∨ (t.seq = .idle ∧ t.out = [] ∧ t.response = none ∧ ∃ k, Input.reset k ∈ used))) ∧
  (∀ (b : Busy) (s t : State), s.Inv → s.seq = .busy b → step s = .next t →
    ∃ used, s.inputs = used ++ t.inputs ∧
      (t.Ended ∨ t.Waits ∨ (t.seq = .idle ∧ t.out = [] ∧ t.response = none ∧ ∃ k, Input.reset k ∈ used)))

/-- R154 and U6 (93_implementation_defined.md): a transport request that is never answered is the one way a run gets stuck; the model calls
it the fault `transportHang` (log entry 8, the model's choice). -/
def Obligations.OnlyAnUnansweredRequestIsStuck : Prop :=
  (∀ s : State, s.awaiting = true → s.inputs = [] → step s = .fault .transportHang) ∧
  (∀ (s : State) (f : Fault), step s = .fault f → f = .transportHang ∧ s.awaiting = true ∧ s.inputs = []) ∧
  (∀ (i : Instr) (s : State) (f : Fault), exec i s ≠ .fault f)

/-- R110: no operation needs more than `MAX_OUT` bytes of `OUT`, so the refusal of R37 is never reached; and no operation is refused for
any cause but the two the outside world gives: an operand the channel cannot carry, and the host touching the transport. -/
def Obligations.OutputNeverOverflows : Prop :=
  ∀ (i : Instr) (s : State) (r : Refusal), exec i s = .refused r → r = .operandTooLong ∨ r = .transportInterference

/-! ### CHECKSUM -/

/-- R88, R89: CHECKSUM completes in every state, whatever its ignored fields, with `OK` and the one byte that is the XOR of all of `IN`. -/
def Obligations.ChecksumFoldsOperand : Prop :=
  ∀ (addr : BitVec 8) (count : BitVec 16) (s : State),
    ∃ t, exec (.checksum addr count) s = .next t ∧ t.Ended ∧ t.status = 0 ∧ t.out = [s.inBuf.foldl (· ^^^ ·) 0]

/-- R90 (a) to (e): the laws of the fold. -/
def Obligations.XorfoldLaws : Prop :=
  (∀ (s : Bytes) (b : Byte), xorfold (s ++ [b]) = xorfold s ^^^ b) ∧
  (∀ s t : Bytes, xorfold (s ++ t) = xorfold s ^^^ xorfold t) ∧
  (∀ s t : Bytes, s.Perm t → xorfold s = xorfold t) ∧
  (∀ (rule : LengthRule) (a : Nat) (p : Bytes), xorfold (commandFrame rule a p) = 0) ∧
  (∀ (s t : Bytes) (b c : Byte), b ≠ c → xorfold (s ++ b :: t) ≠ xorfold (s ++ c :: t))

/-! ### ENCODE_CMD and ENCODE_ENQ -/

/-- R62, R91, R93: for a valid address and a payload of 1 to 65535 bytes, ENCODE_CMD completes with `OK` and the command frame of R62, its length
bytes as `LENGTH_RULE` says (R67, R68), with `FBUF` and `BCC` holding the frame and its checksum. -/
def Obligations.EncodeCmdBuildsFrame : Prop :=
  ∀ (addr : BitVec 8) (count : BitVec 16) (s : State),
    addr.toNat ≤ 15 → 1 ≤ s.inBuf.length → s.inBuf.length ≤ 65535 →
      ∃ t body, exec (.encodeCmd addr count) s = .next t ∧
        body = [0x02, BitVec.ofNat 8 (0x30 + addr.toNat / 10), BitVec.ofNat 8 (0x30 + addr.toNat % 10),
            (if s.lengthRule = .historical then 0 else BitVec.ofNat 8 (s.inBuf.length / 256)),
            BitVec.ofNat 8 s.inBuf.length] ++ s.inBuf ++ [0x03] ∧
        t.Ended ∧ t.status = 0 ∧ t.out = body ++ [body.foldl (· ^^^ ·) 0] ∧ t.fbuf = t.out ∧ t.bcc = body.foldl (· ^^^ ·) 0

/-- R91, R93, R127: the errors of ENCODE_CMD, in their order: the address, then emptiness, then the length; `OUT` is empty and no frame
is built. -/
def Obligations.EncodeCmdErrors : Prop :=
  ∀ (addr : BitVec 8) (count : BitVec 16) (s : State),
    15 < addr.toNat ∨ s.inBuf = [] ∨ 65535 < s.inBuf.length →
      ∃ t, exec (.encodeCmd addr count) s = .next t ∧ t.Ended ∧ t.out = [] ∧ t.fbuf = s.fbuf ∧ t.bcc = s.bcc ∧
        t.status = if 15 < addr.toNat then 1 else if s.inBuf = [] then 2 else 14

/-- R72, R94, R95: ENCODE_ENQ completes in every state: the 3-byte enquiry for a valid address, `InvalidAddress` and nothing for another. -/
def Obligations.EncodeEnqBuildsEnquiry : Prop :=
  ∀ (addr : BitVec 8) (count : BitVec 16) (s : State),
    ∃ t, exec (.encodeEnq addr count) s = .next t ∧ t.Ended ∧
      (addr.toNat ≤ 15 → t.status = 0 ∧
        t.out = [0x05, BitVec.ofNat 8 (0x30 + addr.toNat / 10), BitVec.ofNat 8 (0x30 + addr.toNat % 10)]) ∧
      (15 < addr.toNat → t.status = 1 ∧ t.out = [])

/-- R67: the historical length bytes: the high byte is always 0, the low byte the length mod 256; decoding is `255 * high + low`, so
a length up to 255 is read back and a longer one is not. -/
def Obligations.HistoricalLengthField : Prop :=
  (∀ l : Nat, lenenc .historical l = (0, BitVec.ofNat 8 (l % 256))) ∧
  (∀ h l : Byte, lendec .historical h l = 255 * h.toNat + l.toNat ∧ lendec .historical h l ≤ 65280) ∧
  (∀ l : Nat, lendec .historical (lenenc .historical l).1 (lenenc .historical l).2 = l % 256) ∧
  (∀ l : Nat, lendec .historical (lenenc .historical l).1 (lenenc .historical l).2 = l ↔ l ≤ 255)

/-- R68: under `FIXED` the length field is a true two-byte big-endian number and reads back for every length of 0 to 65535. -/
def Obligations.FixedLengthField : Prop :=
  (∀ l : Nat, lenenc .fixed l = (BitVec.ofNat 8 (l / 256 % 256), BitVec.ofNat 8 (l % 256))) ∧
  (∀ h l : Byte, lendec .fixed h l = 256 * h.toNat + l.toNat ∧ lendec .fixed h l ≤ 65535) ∧
  (∀ l : Nat, l ≤ 65535 → lendec .fixed (lenenc .fixed l).1 (lenenc .fixed l).2 = l)

/-! ### EXTRACT_PAYLOAD -/

/-- R106, R107: EXTRACT_PAYLOAD completes in every state: the payload region by the length field alone, or `FrameTooShort` for an operand
shorter than the 5-byte header or than the length field says. -/
def Obligations.ExtractPayloadSlices : Prop :=
  ∀ (addr : BitVec 8) (count : BitVec 16) (s : State),
    (s.inBuf.length < 5 →
      ∃ t, exec (.extractPayload addr count) s = .next t ∧ t.Ended ∧ t.status = 13 ∧ t.out = []) ∧
    (∀ (b0 b1 b2 h l : Byte) (more : Bytes), s.inBuf = b0 :: b1 :: b2 :: h :: l :: more →
      ∃ t, exec (.extractPayload addr count) s = .next t ∧ t.Ended ∧ t.len = lendec s.lengthRule h l ∧
        (more.length < lendec s.lengthRule h l → t.status = 13 ∧ t.out = []) ∧
        (lendec s.lengthRule h l ≤ more.length → t.status = 0 ∧ t.out = more.take (lendec s.lengthRule h l)))

/-- R25, R38, R56: the frame of the four operations that never touch the transport. What each leaves as it was: the world around the block, `IN`, and
every working register but `FBUF` and `BCC` for ENCODE_CMD, `FBUF` for ENCODE_ENQ and `LEN` for EXTRACT_PAYLOAD. `REQ` holds the operation's word.
That CHECKSUM leaves `BCC`, and that of R25's row ENCODE_ENQ writes `FBUF` and nothing else, is the model's reading (log entry 6): `FBUF` holds the
enquiry frame built, and is as before when none is. -/
def Obligations.ComputeOperationsFrame : Prop :=
  ∀ (i : Instr) (s t : State), exec i s = .next t →
    match i with
    | .checksum _ _ =>
      s.SameWorld t ∧ t.req = encode i ∧ t.inBuf = s.inBuf ∧ t.acc = s.acc ∧ t.need = s.need ∧ t.bcc = s.bcc ∧ t.len = s.len ∧
        t.fbuf = s.fbuf ∧ t.abuf = s.abuf
    | .encodeEnq _ _ =>
      s.SameWorld t ∧ t.req = encode i ∧ t.inBuf = s.inBuf ∧ t.acc = s.acc ∧ t.need = s.need ∧ t.bcc = s.bcc ∧ t.len = s.len ∧
        t.abuf = s.abuf ∧ (t.status = 0 → t.fbuf = t.out) ∧ (t.status ≠ 0 → t.fbuf = s.fbuf)
    | .encodeCmd _ _ =>
      s.SameWorld t ∧ t.req = encode i ∧ t.inBuf = s.inBuf ∧ t.acc = s.acc ∧ t.need = s.need ∧ t.len = s.len ∧ t.abuf = s.abuf
    | .extractPayload _ _ =>
      s.SameWorld t ∧ t.req = encode i ∧ t.inBuf = s.inBuf ∧ t.acc = s.acc ∧ t.need = s.need ∧ t.bcc = s.bcc ∧
        t.fbuf = s.fbuf ∧ t.abuf = s.abuf
    | .readExact _ _ | .decodeResp _ _ | .exchange _ _ => True

/-! ### READ_EXACT -/

/-- R80, R81, R86: with `n` bytes received and enough answers, however they split the bytes, READ_EXACT completes with `OK` and exactly
the next `n` bytes; the rest stays in the residue and nothing is sent. -/
def Obligations.ReadExactGathersCount : Prop :=
  ∀ (addr : BitVec 8) (count : BitVec 16) (s : State) (bs more : Bytes) (ks : List Nat) (rest : List Input),
    s.rxResidue = bs ++ more → bs.length = count.toNat → Feeds ks bs.length → s.inputs = deliveries ks ++ rest →
      ∃ t, exec (.readExact addr count) s = .next t ∧ t.Ended ∧ t.status = 0 ∧ t.out = bs ∧ t.rxResidue = more ∧
        t.txLine = s.txLine ∧ readBytes t.history = readBytes s.history ++ bs ∧
        ∃ left, t.inputs = left ++ rest

/-- R82: READ_EXACT of 0 bytes issues no read request and finishes `OK` with nothing, whatever the transport would do. -/
def Obligations.ReadExactOfZeroReadsNothing : Prop :=
  ∀ (addr : BitVec 8) (s : State),
    ∃ t, exec (.readExact addr 0) s = .next t ∧ t.Ended ∧ t.status = 0 ∧ t.out = [] ∧ s.SameWorld t

/-- R84, R86: a timeout ends READ_EXACT with `OK` and the bytes gathered so far, fewer than asked for; none is discarded. -/
def Obligations.ReadExactShortIsNoError : Prop :=
  ∀ (addr : BitVec 8) (count : BitVec 16) (s : State) (ks : List Nat) (rest : List Input),
    s.rxResidue.length < count.toNat → Feeds ks s.rxResidue.length → s.inputs = deliveries ks ++ .rxTimeout :: rest →
      ∃ t, exec (.readExact addr count) s = .next t ∧ t.Ended ∧ t.status = 0 ∧ t.out = s.rxResidue ∧ t.rxResidue = [] ∧
        t.txLine = s.txLine

/-- R85, R86, R131: an `RxErr(e)` ends READ_EXACT at once with `IoError` and `IOERR = e`; `OUT` keeps the bytes gathered before it,
and the bytes after them stay in the residue. -/
def Obligations.ReadExactErrorKeepsBytes : Prop :=
  ∀ (addr : BitVec 8) (count : BitVec 16) (s : State) (bs more : Bytes) (e : IoErr) (rest : List Input),
    s.rxResidue = bs ++ more → bs.length < count.toNat →
    s.inputs = deliveries (List.replicate bs.length 1) ++ .rxErr e :: rest →
      ∃ t, exec (.readExact addr count) s = .next t ∧ t.Ended ∧ t.status = 3 ∧ t.ioerr = e ∧ t.out = bs ∧ t.rxResidue = more ∧
        t.inputs = rest ∧ t.txLine = s.txLine

/-- R81, R83: whatever the outside world does, READ_EXACT of `n` bytes issues at most `n` read requests, each for at most `n` bytes, takes
at most `n` bytes, and its accesses are appended to the history. The history holds the requests that were answered (log entry 19, the model's
choice): at most `n` of them, and fewer than `n` when one more is outstanding because the operation waits. -/
def Obligations.ReadExactNeverOverreads : Prop :=
  ∀ (addr : BitVec 8) (count : BitVec 16) (s t : State), exec (.readExact addr count) s = .next t →
    ∃ evs, t.history = s.history ++ evs ∧ evs.length ≤ count.toNat ∧ (t.Waits → evs.length + 1 ≤ count.toNat) ∧ (readBytes evs).length ≤ count.toNat ∧
      t.out.length ≤ count.toNat ∧ ∀ e ∈ evs, ∃ m a, e = .rx m a ∧ 1 ≤ m ∧ m ≤ count.toNat

/-! ### DECODE_RESP -/

/-- R96 to R102, R104, R105: with a well-formed response frame for the address received and enough answers, however they split the bytes,
DECODE_RESP completes with `OK` and the whole frame; what follows the frame stays in the residue, and nothing is sent. The payload may
hold any bytes, and may be empty. -/
def Obligations.DecodeRespAcceptsFrame : Prop :=
  ∀ (addr : BitVec 8) (count : BitVec 16) (s : State) (h l : Byte) (payload body more : Bytes) (ks : List Nat) (rest : List Input),
    addr.toNat ≤ 15 → payload.length = lendec s.lengthRule h l →
    body = [0x02, BitVec.ofNat 8 (0x30 + addr.toNat / 10), BitVec.ofNat 8 (0x30 + addr.toNat % 10), h, l] ++ payload ++ [0x03] →
    s.rxResidue = body ++ [xorfold body] ++ more → Feeds ks (7 + payload.length) → s.inputs = deliveries ks ++ rest →
      ∃ t, exec (.decodeResp addr count) s = .next t ∧ t.Ended ∧ t.status = 0 ∧ t.out = body ++ [xorfold body] ∧
        t.rxResidue = more ∧ t.txLine = s.txLine ∧ readBytes t.history = readBytes s.history ++ t.out ∧
        t.len = payload.length ∧ t.abuf = addrDigits addr.toNat ∧ t.bcc = xorfold body ∧
        ∃ left, t.inputs = left ++ rest

/-- R64, R104: an address above 15 raises `InvalidAddress` before any read. -/
def Obligations.DecodeRespRejectsAddressFirst : Prop :=
  ∀ (addr : BitVec 8) (count : BitVec 16) (s : State), 15 < addr.toNat →
    ∃ t, exec (.decodeResp addr count) s = .next t ∧ t.Ended ∧ t.status = 1 ∧ t.out = [] ∧ s.SameWorld t

/-- R97, R98: a wrong start marker raises `MalformedStart` after one byte, and two bytes that are not the address digits raise `AddressMismatch` after
three; the bytes after the failing field stay in the residue. -/
def Obligations.DecodeRespRejectsStartAndAddress : Prop :=
  ∀ (addr : BitVec 8) (count : BitVec 16) (s : State) (b x y : Byte) (more : Bytes) (ks : List Nat) (rest : List Input),
    addr.toNat ≤ 15 → Feeds ks 3 → s.inputs = deliveries ks ++ rest →
      (b ≠ 0x02 → s.rxResidue = b :: more →
        ∃ t, exec (.decodeResp addr count) s = .next t ∧ t.Ended ∧ t.status = 7 ∧ t.out = [] ∧ t.rxResidue = more) ∧
      ([x, y] ≠ [BitVec.ofNat 8 (0x30 + addr.toNat / 10), BitVec.ofNat 8 (0x30 + addr.toNat % 10)] →
        s.rxResidue = [0x02, x, y] ++ more →
        ∃ t, exec (.decodeResp addr count) s = .next t ∧ t.Ended ∧ t.status = 8 ∧ t.out = [] ∧ t.rxResidue = more)

/-- R101, R102: after a good beginning, a byte in the end marker's place other than 0x03 raises `MalformedEnd`, and a checksum byte other than the fold of all
the bytes before it raises `ChecksumMismatch`; the bytes after the failing field stay in the residue. -/
def Obligations.DecodeRespRejectsEndAndChecksum : Prop :=
  ∀ (addr : BitVec 8) (count : BitVec 16) (s : State) (h l b : Byte) (payload front more : Bytes) (ks : List Nat) (rest : List Input),
    addr.toNat ≤ 15 → payload.length = lendec s.lengthRule h l →
    front = [0x02, BitVec.ofNat 8 (0x30 + addr.toNat / 10), BitVec.ofNat 8 (0x30 + addr.toNat % 10), h, l] ++ payload →
    Feeds ks (7 + payload.length) → s.inputs = deliveries ks ++ rest →
      (b ≠ 0x03 → s.rxResidue = front ++ [b] ++ more →
        ∃ t, exec (.decodeResp addr count) s = .next t ∧ t.Ended ∧ t.status = 11 ∧ t.out = [] ∧ t.rxResidue = more) ∧
      (b ≠ xorfold (front ++ [0x03]) → s.rxResidue = front ++ [0x03, b] ++ more →
        ∃ t, exec (.decodeResp addr count) s = .next t ∧ t.Ended ∧ t.status = 12 ∧ t.out = [] ∧ t.rxResidue = more)

/-- R97 to R102: when only the first `j` bytes of a good frame arrive before the timeout, the status is that of the step that came up short: start,
address, length, payload, end, checksum. The checksum step fails so whatever the fold is. -/
def Obligations.DecodeRespShortReadKinds : Prop :=
  ∀ (addr : BitVec 8) (count : BitVec 16) (s : State) (h l : Byte) (payload : Bytes) (j : Nat) (ks : List Nat) (rest : List Input),
    addr.toNat ≤ 15 → payload.length = lendec s.lengthRule h l → j < 7 + payload.length →
    s.rxResidue = (frameWith addr.toNat h l payload).take j → Feeds ks j →
    s.inputs = deliveries ks ++ .rxTimeout :: rest →
      ∃ t, exec (.decodeResp addr count) s = .next t ∧ t.Ended ∧ t.out = [] ∧ t.rxResidue = [] ∧
        t.status = if j < 1 then 7 else if j < 3 then 8 else if j < 5 then 9 else if j < 5 + payload.length then 10
          else if j < 6 + payload.length then 11 else 12

/-- R103, R131: an `RxErr(e)` at any step, after any number of bytes of a good frame, raises `IoError(e)` with an empty `OUT`. -/
def Obligations.DecodeRespIoErrorAtEveryStep : Prop :=
  ∀ (addr : BitVec 8) (count : BitVec 16) (s : State) (h l : Byte) (payload more : Bytes) (j : Nat) (e : IoErr) (rest : List Input),
    addr.toNat ≤ 15 → payload.length = lendec s.lengthRule h l → j < 7 + payload.length →
    s.rxResidue = (frameWith addr.toNat h l payload).take j ++ more →
    s.inputs = deliveries (List.replicate j 1) ++ .rxErr e :: rest →
      ∃ t, exec (.decodeResp addr count) s = .next t ∧ t.Ended ∧ t.status = 3 ∧ t.ioerr = e ∧ t.out = [] ∧ t.rxResidue = more ∧
        t.inputs = rest

/-- R90, R109: a well-formed frame with one payload byte, or its checksum byte, changed ends in `ChecksumMismatch`. -/
def Obligations.ChecksumCatchesPayloadByte : Prop :=
  ∀ (addr : BitVec 8) (count : BitVec 16) (s : State) (h l : Byte) (p q : Bytes) (b c : Byte) (sum : Byte) (ks : List Nat)
    (rest : List Input),
    addr.toNat ≤ 15 → (p ++ b :: q).length = lendec s.lengthRule h l → Feeds ks (8 + p.length + q.length) →
    s.inputs = deliveries ks ++ rest →
    s.rxResidue = frameBody addr.toNat h l (p ++ c :: q) ++ [sum] →
    (b ≠ c ∧ sum = xorfold (frameBody addr.toNat h l (p ++ b :: q))) ∨ (b = c ∧ sum ≠ xorfold (frameBody addr.toNat h l (p ++ b :: q))) →
      ∃ t, exec (.decodeResp addr count) s = .next t ∧ t.Ended ∧ t.status = 12 ∧ t.out = [] ∧ t.rxResidue = []

/-! ### Codec round trip -/

/-- R108: for every valid address and every payload of 1 to 255 bytes under `HISTORICAL`, or 1 to 65535 under `FIXED`: ENCODE_CMD builds a frame; DECODE_RESP
of those bytes, received in any split, returns that frame; and EXTRACT_PAYLOAD of it returns the payload. -/
def Obligations.CodecRoundTrip : Prop :=
  ∀ (addr : BitVec 8) (c1 c2 c3 : BitVec 16) (a3 : BitVec 8) (s1 s2 s3 : State) (payload more : Bytes) (ks : List Nat)
    (rest : List Input),
    addr.toNat ≤ 15 → 1 ≤ payload.length →
    (payload.length ≤ 255 ∨ (s1.lengthRule = .fixed ∧ payload.length ≤ 65535)) →
    s2.lengthRule = s1.lengthRule → s3.lengthRule = s1.lengthRule →
    s1.inBuf = payload → Feeds ks (7 + payload.length) → s2.inputs = deliveries ks ++ rest →
      ∃ t1, exec (.encodeCmd addr c1) s1 = .next t1 ∧ t1.status = 0 ∧
        (s2.rxResidue = t1.out ++ more →
          ∃ t2, exec (.decodeResp addr c2) s2 = .next t2 ∧ t2.status = 0 ∧ t2.out = t1.out ∧ t2.rxResidue = more) ∧
        (s3.inBuf = t1.out →
          ∃ t3, exec (.extractPayload a3 c3) s3 = .next t3 ∧ t3.status = 0 ∧ t3.out = payload)

/-- R67, R92: under `HISTORICAL` a payload of 256 to 65535 bytes is not rejected; its frame carries the length bytes `00` and `|P| mod 256`,
and extracting from that frame returns only the first `|P| mod 256` bytes, never the payload. -/
def Obligations.LongHistoricalPayloadIsMisframed : Prop :=
  ∀ (addr a3 : BitVec 8) (c1 c3 : BitVec 16) (s1 s3 : State),
    addr.toNat ≤ 15 → s1.lengthRule = .historical → s3.lengthRule = .historical →
    256 ≤ s1.inBuf.length → s1.inBuf.length ≤ 65535 →
      ∃ t1, exec (.encodeCmd addr c1) s1 = .next t1 ∧ t1.status = 0 ∧ t1.out.length = 7 + s1.inBuf.length ∧
        (t1.out.drop 3).take 2 = [0, BitVec.ofNat 8 s1.inBuf.length] ∧
        (s3.inBuf = t1.out →
          ∃ t3, exec (.extractPayload a3 c3) s3 = .next t3 ∧ t3.status = 0 ∧
            t3.out = s1.inBuf.take (s1.inBuf.length % 256) ∧ t3.out ≠ s1.inBuf)

/-! ### EXCHANGE -/

/-- R111 to R117, R121: a valid command, an acknowledgement with the right address and a well-formed response, in any split: EXCHANGE completes with `OK`
and the response's payload; it has written the command frame and then the enquiry, and has taken the acknowledgement and the response and no more. -/
def Obligations.ExchangeCompletes : Prop :=
  ∀ (addr : BitVec 8) (count : BitVec 16) (s : State) (h l : Byte) (reply more : Bytes) (ks js : List Nat) (rest : List Input),
    addr.toNat ≤ 15 → 1 ≤ s.inBuf.length → s.inBuf.length ≤ 65535 → reply.length = lendec s.lengthRule h l →
    s.rxResidue = [0x06, BitVec.ofNat 8 (0x30 + addr.toNat / 10), BitVec.ofNat 8 (0x30 + addr.toNat % 10)] ++
      frameWith addr.toNat h l reply ++ more →
    Feeds ks 3 → Feeds js (7 + reply.length) →
    s.inputs = .txOk :: deliveries ks ++ .txOk :: deliveries js ++ rest →
      ∃ t, exec (.exchange addr count) s = .next t ∧ t.Ended ∧ t.status = 0 ∧ t.out = reply ∧ t.rxResidue = more ∧
        t.txLine = s.txLine ++ commandFrame s.lengthRule addr.toNat s.inBuf ++
          [0x05, BitVec.ofNat 8 (0x30 + addr.toNat / 10), BitVec.ofNat 8 (0x30 + addr.toNat % 10)] ∧
        (readBytes t.history).length = (readBytes s.history).length + 10 + reply.length

/-- R112: if `BuildFrame` raises, EXCHANGE ends with that error and nothing is written or read. -/
def Obligations.ExchangeChecksCommandFirst : Prop :=
  ∀ (addr : BitVec 8) (count : BitVec 16) (s : State),
    15 < addr.toNat ∨ s.inBuf = [] ∨ 65535 < s.inBuf.length →
      ∃ t, exec (.exchange addr count) s = .next t ∧ t.Ended ∧ t.out = [] ∧ s.SameWorld t ∧
        t.status = if 15 < addr.toNat then 1 else if s.inBuf = [] then 2 else 14

/-- R40, R112, R115: a failed write raises `IoError(e)`. Of the command: no read is issued. Of the enquiry: the command and its acknowledgement have gone through. Any number of the
failed write's bytes may have reached the line. -/
def Obligations.ExchangeWriteFailures : Prop :=
  ∀ (addr : BitVec 8) (count : BitVec 16) (s : State) (e : IoErr) (reached : Nat) (more : Bytes) (ks : List Nat) (rest : List Input),
    addr.toNat ≤ 15 → 1 ≤ s.inBuf.length → s.inBuf.length ≤ 65535 →
      (s.inputs = .txErr e reached :: rest →
        ∃ t, exec (.exchange addr count) s = .next t ∧ t.Ended ∧ t.status = 3 ∧ t.ioerr = e ∧ t.out = [] ∧
          t.rxResidue = s.rxResidue ∧ t.inputs = rest ∧
          t.txLine = s.txLine ++ (commandFrame s.lengthRule addr.toNat s.inBuf).take reached ∧
          t.history = s.history ++ [.tx (commandFrame s.lengthRule addr.toNat s.inBuf) (.err e)]) ∧
      (s.rxResidue = [0x06, BitVec.ofNat 8 (0x30 + addr.toNat / 10), BitVec.ofNat 8 (0x30 + addr.toNat % 10)] ++ more →
        Feeds ks 3 → s.inputs = .txOk :: deliveries ks ++ .txErr e reached :: rest →
        ∃ t, exec (.exchange addr count) s = .next t ∧ t.Ended ∧ t.status = 3 ∧ t.ioerr = e ∧ t.out = [] ∧
          t.rxResidue = more ∧ t.inputs = rest ∧
          t.txLine = s.txLine ++ commandFrame s.lengthRule addr.toNat s.inBuf ++
            [0x05, BitVec.ofNat 8 (0x30 + addr.toNat / 10), BitVec.ofNat 8 (0x30 + addr.toNat % 10)].take reached)

/-- R113, R114, R119: the failures of the acknowledgement: another byte than ACK, none, two bytes that are not the address digits, fewer than two, and an `RxErr(e)`
at either read. Only the command has been sent; the bytes behind the failing field stay in the residue. -/
def Obligations.ExchangeAcknowledgementFailures : Prop :=
  ∀ (addr : BitVec 8) (count : BitVec 16) (s : State) (b x y : Byte) (more : Bytes) (e : IoErr) (ks : List Nat) (rest : List Input),
    addr.toNat ≤ 15 → 1 ≤ s.inBuf.length → s.inBuf.length ≤ 65535 → Feeds ks 3 →
      (s.rxResidue = b :: more → b ≠ 0x06 → s.inputs = .txOk :: deliveries ks ++ rest →
        ∃ t, exec (.exchange addr count) s = .next t ∧ t.Ended ∧ t.status = 4 ∧ t.out = [] ∧ t.rxResidue = more ∧
          t.txLine = s.txLine ++ commandFrame s.lengthRule addr.toNat s.inBuf) ∧
      (s.inputs = .txOk :: .rxTimeout :: rest →
        ∃ t, exec (.exchange addr count) s = .next t ∧ t.Ended ∧ t.status = 5 ∧ t.out = [] ∧ t.rxResidue = s.rxResidue ∧
          t.txLine = s.txLine ++ commandFrame s.lengthRule addr.toNat s.inBuf) ∧
      (s.rxResidue = [0x06, x, y] ++ more → s.inputs = .txOk :: deliveries ks ++ rest →
        [x, y] ≠ [BitVec.ofNat 8 (0x30 + addr.toNat / 10), BitVec.ofNat 8 (0x30 + addr.toNat % 10)] →
        ∃ t, exec (.exchange addr count) s = .next t ∧ t.Ended ∧ t.status = 6 ∧ t.out = [] ∧ t.rxResidue = more ∧
          t.txLine = s.txLine ++ commandFrame s.lengthRule addr.toNat s.inBuf) ∧
      (∀ z : Bytes, z.length < 2 → s.rxResidue = 0x06 :: z → s.inputs = .txOk :: deliveries ks ++ .rxTimeout :: rest →
        ∃ t, exec (.exchange addr count) s = .next t ∧ t.Ended ∧ t.status = 6 ∧ t.out = [] ∧ t.rxResidue = [] ∧
          t.txLine = s.txLine ++ commandFrame s.lengthRule addr.toNat s.inBuf) ∧
      (s.inputs = .txOk :: .rxErr e :: rest →
        ∃ t, exec (.exchange addr count) s = .next t ∧ t.Ended ∧ t.status = 3 ∧ t.ioerr = e ∧ t.out = [] ∧ t.rxResidue = s.rxResidue ∧
          t.txLine = s.txLine ++ commandFrame s.lengthRule addr.toNat s.inBuf) ∧
      (∀ z : Bytes, z.length < 2 → s.rxResidue = 0x06 :: z ++ more →
        s.inputs = .txOk :: deliveries (List.replicate (1 + z.length) 1) ++ .rxErr e :: rest →
        ∃ t, exec (.exchange addr count) s = .next t ∧ t.Ended ∧ t.status = 3 ∧ t.ioerr = e ∧ t.out = [] ∧ t.rxResidue = more ∧
          t.txLine = s.txLine ++ commandFrame s.lengthRule addr.toNat s.inBuf)

/-- R116, R117: after the acknowledgement and the enquiry, EXCHANGE ends as DECODE_RESP of the same bytes and answers would: every error it raises ends EXCHANGE with that
error, with an empty `OUT`; when it is `OK`, EXCHANGE returns `ExtractPayload` of its frame. What stays in the residue is the same. -/
def Obligations.ExchangeDecodesResponse : Prop :=
  ∀ (addr : BitVec 8) (count count' : BitVec 16) (s d t' : State) (ks : List Nat),
    addr.toNat ≤ 15 → 1 ≤ s.inBuf.length → s.inBuf.length ≤ 65535 → Feeds ks 3 → d.lengthRule = s.lengthRule →
    s.rxResidue = [0x06, BitVec.ofNat 8 (0x30 + addr.toNat / 10), BitVec.ofNat 8 (0x30 + addr.toNat % 10)] ++ d.rxResidue →
    s.inputs = .txOk :: deliveries ks ++ .txOk :: d.inputs →
    exec (.decodeResp addr count') d = .next t' → t'.Ended →
      ∃ t, exec (.exchange addr count) s = .next t ∧ t.Ended ∧ t.status = t'.status ∧ t.rxResidue = t'.rxResidue ∧ t.inputs = t'.inputs ∧
        (t'.status = 0 → t.out = (t'.out.drop 5).take (lendec s.lengthRule (t'.out.getD 3 0) (t'.out.getD 4 0))) ∧
        (t'.status ≠ 0 → t.out = []) ∧ (t'.status = 3 → t.ioerr = t'.ioerr)

/-- R120: whatever the outside world does, an EXCHANGE that ends with a response has made these writes, and no other byte was sent: none, if it failed
before the write; the command frame `C` alone, if it failed at the acknowledgement; `C` and then the enquiry `E`, in two writes, otherwise. An
`IoError` is one of four: the write of `C` failed, and nothing else was done; a read of the acknowledgement failed, with fewer than 3 bytes read, and only `C`
was sent; the write of `E` failed, after `C` and the 3 bytes of the acknowledgement; or a read of the response failed, and exactly `C` and `E` were
sent. -/
def Obligations.ExchangeTxTrace : Prop :=
  ∀ (addr : BitVec 8) (count : BitVec 16) (s t : State) (C E : Bytes),
    C = commandFrame s.lengthRule addr.toNat s.inBuf →
    E = [0x05, BitVec.ofNat 8 (0x30 + addr.toNat / 10), BitVec.ofNat 8 (0x30 + addr.toNat % 10)] →
    exec (.exchange addr count) s = .next t → t.Ended →
      ∃ evs, t.history = s.history ++ evs ∧
        (if t.status = 1 ∨ t.status = 2 ∨ t.status = 14 then evs = []
         else if t.status = 4 ∨ t.status = 5 ∨ t.status = 6 then writesOf evs = [.tx C .ok] ∧ sentBytes evs = C
         else if t.status = 3 then
           evs = [.tx C (.err t.ioerr)] ∨
             ((readBytes evs).length < 3 ∧ writesOf evs = [.tx C .ok] ∧ sentBytes evs = C) ∨
             ((readBytes evs).length = 3 ∧ writesOf evs = [.tx C .ok, .tx E (.err t.ioerr)] ∧ sentBytes evs = C) ∨
             (3 ≤ (readBytes evs).length ∧ writesOf evs = [.tx C .ok, .tx E .ok] ∧ sentBytes evs = C ++ E)
         else writesOf evs = [.tx C .ok, .tx E .ok] ∧ sentBytes evs = C ++ E)

/-- R121: whatever the outside world does, an EXCHANGE that ends with `OK` has read exactly `3 + 7 + LEN` bytes, and its `OUT` has `LEN` bytes. -/
def Obligations.ExchangeRxConsumption : Prop :=
  ∀ (addr : BitVec 8) (count : BitVec 16) (s t : State), exec (.exchange addr count) s = .next t → t.Ended → t.status = 0 →
    (readBytes t.history).length = (readBytes s.history).length + 3 + 7 + t.len ∧ t.out.length = t.len

/-! ### The transport operations together -/

/-- R25, R38, R56: the frame of the three transport operations when a reset does not cut them off. Configuration, `IN` and the held operands are as before; `REQ` holds the
operation's word; READ_EXACT leaves `BCC`, `LEN`, `FBUF`, `ABUF`; only EXCHANGE sends; an operation that still waits has written no response; and no exchange is noted (log entry 26). -/
def Obligations.TransportOperationsFrame : Prop :=
  ∀ (i : Instr) (s t : State), exec i s = .next t → t.Ended ∨ t.Waits →
    (t.lengthRule = s.lengthRule ∧ t.inBuf = s.inBuf ∧ t.req = encode i ∧ t.exchanges = s.exchanges ∧
      (t.Waits → t.out = [] ∧ t.status = s.status ∧ t.ioerr = s.ioerr)) ∧
    match i with
    | .readExact _ _ => t.bcc = s.bcc ∧ t.len = s.len ∧ t.fbuf = s.fbuf ∧ t.abuf = s.abuf ∧ t.txLine = s.txLine
    | .decodeResp _ _ => t.txLine = s.txLine
    | .exchange _ _ => True
    | .checksum _ _ | .encodeCmd _ _ | .encodeEnq _ _ | .extractPayload _ _ => t.txLine = s.txLine

/-- R38, R44, R50: which operations access the transport: the history only grows; only EXCHANGE writes; CHECKSUM, ENCODE_CMD, ENCODE_ENQ and EXTRACT_PAYLOAD access nothing;
and every access is one R40 and R41 allow. -/
def Obligations.TransportAccessPerOperation : Prop :=
  ∀ (i : Instr) (s t : State), exec i s = .next t →
    ∃ evs, t.history = s.history ++ evs ∧ (∀ e ∈ evs, e.allowed) ∧
      match i with
      | .readExact _ _ | .decodeResp _ _ => ∀ e ∈ evs, e.isRx = true
      | .exchange _ _ => True
      | .checksum _ _ | .encodeCmd _ _ | .encodeEnq _ _ | .extractPayload _ _ => evs = []

/-- R41, R44, R46: no received byte is lost, duplicated or reordered by an operation: what it read, followed by what stays in the residue, is what the residue held
followed by what arrived meanwhile. This holds after errors, short reads and resets too. -/
def Obligations.ReceivedBytesAreConserved : Prop :=
  ∀ (i : Instr) (s t : State), exec i s = .next t →
    ∃ used evs, s.inputs = used ++ t.inputs ∧ t.history = s.history ++ evs ∧
      readBytes evs ++ t.rxResidue = s.rxResidue ++ arrivals used

/-- R58, R124: the statuses each operation can end with; 16 to 255 are never returned. -/
def Obligations.StatusesPerOperation : Prop :=
  ∀ (i : Instr) (s t : State), exec i s = .next t → t.Ended →
    match i with
    | .readExact _ _ => t.status = 0 ∨ t.status = 3
    | .checksum _ _ => t.status = 0
    | .encodeCmd _ _ => t.status = 0 ∨ t.status = 1 ∨ t.status = 2 ∨ t.status = 14
    | .encodeEnq _ _ => t.status = 0 ∨ t.status = 1
    | .decodeResp _ _ => t.status = 0 ∨ t.status = 1 ∨ t.status = 3 ∨ (7 ≤ t.status.toNat ∧ t.status.toNat ≤ 12)
    | .extractPayload _ _ => t.status = 0 ∨ t.status = 13
    | .exchange _ _ => t.status.toNat ≤ 12 ∨ t.status = 14

/-- R131: when READ_EXACT raises `IoError`, `OUT` keeps the bytes it gathered; every other error of every operation leaves `OUT` empty. -/
def Obligations.OutAfterError : Prop :=
  (∀ (addr : BitVec 8) (count : BitVec 16) (s t : State), exec (.readExact addr count) s = .next t → t.Ended → t.status = 3 →
    ∃ evs, t.history = s.history ++ evs ∧ t.out = readBytes evs) ∧
  (∀ (i : Instr) (s t : State), exec i s = .next t → t.Ended → t.status ≠ 0 →
    (∀ addr count, i = .readExact addr count → t.status ≠ 3) → t.out = [])

/-! ### Reset -/

/-- R30, R9: what reset leaves, as far as the spec gives it: `IDLE`, an empty `OUT`, no response, `LENGTH_RULE = HISTORICAL`. -/
def Obligations.ResetStateValues : Prop :=
  State.reset.seq = .idle ∧ State.reset.out = [] ∧ State.reset.response = none ∧ State.reset.lengthRule = .historical

/-- R142, R144, R145, R147, R148: reset of the idle block, with or without requests offered, discards the held response and touches neither the
configuration, the offered requests nor the transport. That the registers R30 leaves unset are as after `State.reset` is log entry 1, and that
assertion and release are one event is log entry 23, the model's choices. -/
def Obligations.ResetWhileIdle : Prop :=
  ∀ (s : State) (k : Nat) (rest : List Input),
    s.seq = .idle → s.inputs = .reset k :: rest →
      ∃ t, step s = .next t ∧ t.AsReset ∧ t.seq = .idle ∧ t.out = [] ∧ t.response = none ∧ t.lengthRule = s.lengthRule ∧
        t.offered = s.offered ∧ t.rxResidue = s.rxResidue ∧ t.txLine = s.txLine ∧ t.history = s.history ∧ t.inputs = rest

/-- R145, R146, R147, R148, R149: reset of a block that waits for the transport ends its operation with no response and no further access; offered requests stay offered; configuration and
residue are untouched; of a write cut off, any number of bytes may have reached the line. -/
def Obligations.ResetWhileWaiting : Prop :=
  ∀ (s : State) (k : Nat) (rest : List Input),
    s.Inv → s.awaiting = true → s.inputs = .reset k :: rest →
      ∃ t, step s = .next t ∧ t.AsReset ∧ t.seq = .idle ∧ t.out = [] ∧ t.response = none ∧ t.lengthRule = s.lengthRule ∧
        t.offered = s.offered ∧ t.rxResidue = s.rxResidue ∧ t.txLine = s.txLine ++ s.pendingTx.take k ∧ t.history = s.history ∧
        t.inputs = rest

/-- R147: no step changes the configuration. -/
def Obligations.ConfigurationNeverChanges : Prop :=
  ∀ s t : State, step s = .next t → t.lengthRule = s.lengthRule

/-- R51, U7: the host may use the transport while the block is idle: a host's write stands on the line and its read takes the next bytes of the residue, and
neither is in the block's history. That much is the model's reading of R51, R46 and R50 (log entry 20); that its exchange must not come back after another
came between is log entry 26 (InterleavedExchangesAreRefused). While a transport operation waits, a run in which it does so is refused. -/
def Obligations.HostUsesTransportOnlyWhileIdle : Prop :=
  (∀ (s : State) (x : Nat) (b : Bytes) (rest : List Input), s.seq = .idle → s.offered = [] → s.inputs = .hostWrite x b :: rest →
    returnsTo x s.exchanges = false →
    ∃ t, step s = .next t ∧ t.txLine = s.txLine ++ b ∧ t.history = s.history ∧ t.rxResidue = s.rxResidue ∧ t.response = s.response) ∧
  (∀ (s : State) (x n : Nat) (rest : List Input), s.seq = .idle → s.offered = [] → s.inputs = .hostRead x n :: rest →
    returnsTo x s.exchanges = false →
    ∃ t, step s = .next t ∧ t.rxResidue = s.rxResidue.drop n ∧ t.txLine = s.txLine ∧ t.history = s.history ∧ t.response = s.response) ∧
  (∀ (s : State) (x : Nat) (b : Bytes) (rest : List Input), s.Inv → s.awaiting = true → s.inputs = .hostWrite x b :: rest →
    step s = .refused .transportInterference) ∧
  (∀ (s : State) (x n : Nat) (rest : List Input), s.Inv → s.awaiting = true → s.inputs = .hostRead x n :: rest →
    step s = .refused .transportInterference)

/-! ### Whole machine -/

/-- R18, R19, R22, R24, R40, R41, R58, R96, R153: the invariant of a state between steps is kept by every step. That the exchanges noted are each noted once is log entry 26. -/
def Obligations.EveryStepKeepsInvariant : Prop :=
  ∀ s t : State, s.Inv → step s = .next t → t.Inv

/-- The invariant holds after reset. -/
def Obligations.ResetMeetsInvariant : Prop := State.reset.Inv

/-- R22, R28: no operation reads a register value left by an earlier one. From two states that agree on the configuration, the accepted operand and the world around the block, whatever else their registers
hold, an operation goes the same way: the same stop, or the same response, `REQ`, `OUT`, `SEQ` and world. -/
def Obligations.NothingIsLeftBetweenOperations : Prop :=
  ∀ (i : Instr) (s s' : State), s'.inBuf = s.inBuf → s.SameWorld s' →
    match exec i s, exec i s' with
    | .next t, .next t' =>
      t'.response = t.response ∧ t'.seq = t.seq ∧ t'.req = t.req ∧ t'.out = t.out ∧ t'.inBuf = t.inBuf ∧ t.SameWorld t'
    | .fault f, .fault f' => f = f'
    | .refused r, .refused r' => r = r'
    | _, _ => False

/-- R24, R47: an operation that waits for the transport goes on, when the answers come, as if they had been there from the start; and what comes after its end
changes nothing of it, but for a reset that comes right then, which the step lets win (ResetWinsOverResponse). That a wait is a step's next state, and that the next step takes it up, is the model's way (log entry 8). -/
def Obligations.WaitingOperationGoesOn : Prop :=
  ∀ (i : Instr) (s t : State) (later : List Input), later ≠ [] → exec i s = .next t →
    (t.Waits → settle (exec i { s with inputs := s.inputs ++ later }) = step { t with inputs := later }) ∧
    (t.Ended → exec i { s with inputs := s.inputs ++ later } = .next { t with inputs := t.inputs ++ later })

/-- R76, R77: the pseudo-operations are EXCHANGE requests with the payloads the tables give. -/
def Obligations.PseudoOperationsExpand : Prop :=
  (∀ (a : BitVec 8) (p : Pseudo), decodeWord (p.expand a).request.word = .ok (.exchange a 0) ∧ (p.expand a).request.operand = p.payload) ∧
  Pseudo.gv.payload = [0x47, 0x56] ∧ Pseudo.rf.payload = [0x52, 0x46] ∧ Pseudo.ap.payload = [0x41, 0x50] ∧
  Pseudo.rs.payload = [0x52, 0x53] ∧ Pseudo.dc.payload = [0x44, 0x43] ∧ Pseudo.cp.payload = [0x43, 0x50] ∧
  (∀ k : Fin 9, (Pseudo.fc k).payload = [0x46, 0x43] ++ [0x30 + BitVec.ofNat 8 k.val]) ∧ (∀ code, (Pseudo.send code).payload = code) ∧
  (Pseudo.detect .first).payload = [0x3b, 0x30] ∧ (Pseudo.detect .second).payload = [0x3c, 0x30] ∧ (Pseudo.detect .third).payload = [0x3d, 0x30] ∧
  (Pseudo.getId .first).payload = [0x3b, 0x31] ∧ (Pseudo.getId .second).payload = [0x3c, 0x31] ∧ (Pseudo.getId .third).payload = [0x3d, 0x31] ∧
  (∀ sector key, (Pseudo.loadKey sector .keyA key).payload = [0x3b, 0x32] ++ sector ++ [0x30] ++ key) ∧
  (∀ sector key, (Pseudo.loadKey sector .keyB key).payload = [0x3b, 0x32] ++ sector ++ [0x31] ++ key)

/-! ### Reset at any time -/

/-- R142, R145, R146, R149: a reset that comes right after acceptance cuts off whatever operation was accepted, also one that never waits for the
transport, and a reserved request: the block is idle with an empty `OUT` and no response, no further access took place, the other
offered requests stay offered, and configuration and residue are untouched. Only an EXCHANGE whose command `BuildFrame` accepts has begun a
write: then the first `k` bytes of its command frame are on the line, `k` the number the reset carries (log entry 4). `proceed` before the reset says that the acceptance came first (log entry 10, the model's choice). The request must not be one that the model refuses because its exchange is interleaved with another (log entry 26). -/
def Obligations.ResetCutsAcceptedOperation : Prop :=
  ∀ (s : State) (r : Offer) (rest : List Offer) (k : Nat) (later : List Input),
    s.seq = .idle → s.offered = r :: rest → s.inputs = .proceed :: .reset k :: later →
    (∀ i, decodeWord r.word = .ok i → usesTransport i = true → returnsTo r.exchange s.exchanges = false) →
      ∃ t, step s = .next t ∧ t.seq = .idle ∧ t.out = [] ∧ t.response = none ∧ t.lengthRule = s.lengthRule ∧ t.offered = rest ∧
        t.rxResidue = s.rxResidue ∧ t.history = s.history ∧ t.inputs = later ∧
        (∀ addr count, decodeWord r.word = .ok (.exchange addr count) →
          addr.toNat ≤ 15 → 1 ≤ r.operand.length → r.operand.length ≤ 65535 →
            t.txLine = s.txLine ++ (commandFrame s.lengthRule addr.toNat r.operand).take k) ∧
        ((∀ addr count, decodeWord r.word = .ok (.exchange addr count) →
          15 < addr.toNat ∨ r.operand = [] ∨ 65535 < r.operand.length) → t.txLine = s.txLine)

/-- R128, R146: reset wins at an operation's end. When the operation of an accepted request, or one taken up from a wait, is at its end and a reset
is next, the step gives no response: the block is idle with an empty `OUT`, what was sent and read stays so, and the offered requests stay offered. When no
reset is next, the step hands over the operation's response. -/
def Obligations.ResetWinsOverResponse : Prop :=
  ∀ s t : State, t.Ended →
    (∃ r rest i, s.seq = .idle ∧ s.offered = r :: rest ∧ decodeWord r.word = .ok i ∧ resetNext s.inputs = false ∧
        (usesTransport i = true → returnsTo r.exchange s.exchanges = false) ∧
        exec i { s with
          offered := rest, inBuf := r.operand, respPending := false, inputs := afterMove s.inputs,
          exchanges := if usesTransport i then joined r.exchange s.exchanges else s.exchanges } = .next t) ∨
      (∃ b, s.seq = .busy b ∧ s.inputs ≠ [] ∧ resume b s = .next t) →
    (∀ k later, t.inputs = .reset k :: later →
      ∃ u, step s = .next u ∧ u.seq = .idle ∧ u.out = [] ∧ u.response = none ∧ u.lengthRule = t.lengthRule ∧ u.offered = t.offered ∧
        u.rxResidue = t.rxResidue ∧ u.txLine = t.txLine ∧ u.history = t.history ∧ u.inputs = later) ∧
    (resetNext t.inputs = false → step s = .next { t with inputs := afterMove t.inputs })

/-! ### One exchange per connection -/

/-- R139, R153, U7 (93_implementation_defined.md): two exchanges must not be interleaved on one connection, and a run in which they are is refused. It is
interleaved where exchange `x` used the connection before, exchange `c` used it last, and the next to use it is `x` again: by a READ_EXACT, DECODE_RESP or EXCHANGE
that the idle block takes up, or by a host's own access. Nothing else is refused so. How the exchanges are told apart, and which uses count, is log entry 26,
the model's choice. -/
def Obligations.InterleavedExchangesAreRefused : Prop :=
  (∀ (s : State) (x c : Nat) (past : List Nat), s.nextUse = some x → s.exchanges = c :: past → x ≠ c → x ∈ past →
    step s = .refused .exchangesInterleaved) ∧
  (∀ s : State, s.Inv → step s = .refused .exchangesInterleaved →
    ∃ x c past, s.nextUse = some x ∧ s.exchanges = c :: past ∧ x ≠ c ∧ x ∈ past)

/-- R139, R153: the exchanges noted are those that used the connection, the latest first: a step that lets exchange `x` use it puts `x` first, unless `x` was the
last to use it, and any other step notes nothing (log entry 26, the model's choice). -/
def Obligations.ExchangesAreNotedInTurn : Prop :=
  ∀ s t : State, s.Inv → step s = .next t →
    t.exchanges =
      match s.nextUse with
      | none => s.exchanges
      | some x => if s.exchanges.head? = some x then s.exchanges else x :: s.exchanges
end

