-- ==== Sys2Proof/Laws/State.lean ====
section
/-! SUPPORT. One lemma per field of State for each update, so that no proof unfolds a record update. -/

namespace Sys2Proof.Machine

section
variable (s : State)

/-! ### State.start -/
@[simp] theorem State.start_lengthRule (i : Instr) (b : Busy) : (s.start i b).lengthRule = s.lengthRule := rfl
@[simp] theorem State.start_req (i : Instr) (b : Busy) : (s.start i b).req = encode i := rfl
@[simp] theorem State.start_inBuf (i : Instr) (b : Busy) : (s.start i b).inBuf = s.inBuf := rfl
@[simp] theorem State.start_out (i : Instr) (b : Busy) : (s.start i b).out = [] := rfl
@[simp] theorem State.start_status (i : Instr) (b : Busy) : (s.start i b).status = s.status := rfl
@[simp] theorem State.start_ioerr (i : Instr) (b : Busy) : (s.start i b).ioerr = s.ioerr := rfl
@[simp] theorem State.start_acc (i : Instr) (b : Busy) : (s.start i b).acc = s.acc := rfl
@[simp] theorem State.start_need (i : Instr) (b : Busy) : (s.start i b).need = s.need := rfl
@[simp] theorem State.start_bcc (i : Instr) (b : Busy) : (s.start i b).bcc = s.bcc := rfl
@[simp] theorem State.start_len (i : Instr) (b : Busy) : (s.start i b).len = s.len := rfl
@[simp] theorem State.start_fbuf (i : Instr) (b : Busy) : (s.start i b).fbuf = s.fbuf := rfl
@[simp] theorem State.start_abuf (i : Instr) (b : Busy) : (s.start i b).abuf = s.abuf := rfl
@[simp] theorem State.start_seq (i : Instr) (b : Busy) : (s.start i b).seq = .busy b := rfl
@[simp] theorem State.start_respPending (i : Instr) (b : Busy) : (s.start i b).respPending = false := rfl
@[simp] theorem State.start_offered (i : Instr) (b : Busy) : (s.start i b).offered = s.offered := rfl
@[simp] theorem State.start_rxResidue (i : Instr) (b : Busy) : (s.start i b).rxResidue = s.rxResidue := rfl
@[simp] theorem State.start_txLine (i : Instr) (b : Busy) : (s.start i b).txLine = s.txLine := rfl
@[simp] theorem State.start_history (i : Instr) (b : Busy) : (s.start i b).history = s.history := rfl
@[simp] theorem State.start_inputs (i : Instr) (b : Busy) : (s.start i b).inputs = s.inputs := rfl
@[simp] theorem State.start_exchanges (i : Instr) (b : Busy) : (s.start i b).exchanges = s.exchanges := rfl
@[simp] theorem State.start_freeCount (i : Instr) (b : Busy) : (s.start i b).freeCount = s.freeCount := rfl

/-! ### State.goto -/
@[simp] theorem State.goto_lengthRule (b : Busy) : (s.goto b).lengthRule = s.lengthRule := rfl
@[simp] theorem State.goto_req (b : Busy) : (s.goto b).req = s.req := rfl
@[simp] theorem State.goto_inBuf (b : Busy) : (s.goto b).inBuf = s.inBuf := rfl
@[simp] theorem State.goto_out (b : Busy) : (s.goto b).out = s.out := rfl
@[simp] theorem State.goto_status (b : Busy) : (s.goto b).status = s.status := rfl
@[simp] theorem State.goto_ioerr (b : Busy) : (s.goto b).ioerr = s.ioerr := rfl
@[simp] theorem State.goto_acc (b : Busy) : (s.goto b).acc = s.acc := rfl
@[simp] theorem State.goto_need (b : Busy) : (s.goto b).need = s.need := rfl
@[simp] theorem State.goto_bcc (b : Busy) : (s.goto b).bcc = s.bcc := rfl
@[simp] theorem State.goto_len (b : Busy) : (s.goto b).len = s.len := rfl
@[simp] theorem State.goto_fbuf (b : Busy) : (s.goto b).fbuf = s.fbuf := rfl
@[simp] theorem State.goto_abuf (b : Busy) : (s.goto b).abuf = s.abuf := rfl
@[simp] theorem State.goto_seq (b : Busy) : (s.goto b).seq = .busy b := rfl
@[simp] theorem State.goto_respPending (b : Busy) : (s.goto b).respPending = s.respPending := rfl
@[simp] theorem State.goto_offered (b : Busy) : (s.goto b).offered = s.offered := rfl
@[simp] theorem State.goto_rxResidue (b : Busy) : (s.goto b).rxResidue = s.rxResidue := rfl
@[simp] theorem State.goto_txLine (b : Busy) : (s.goto b).txLine = s.txLine := rfl
@[simp] theorem State.goto_history (b : Busy) : (s.goto b).history = s.history := rfl
@[simp] theorem State.goto_inputs (b : Busy) : (s.goto b).inputs = s.inputs := rfl
@[simp] theorem State.goto_exchanges (b : Busy) : (s.goto b).exchanges = s.exchanges := rfl
@[simp] theorem State.goto_freeCount (b : Busy) : (s.goto b).freeCount = s.freeCount := rfl

/-! ### State.respond -/
@[simp] theorem State.respond_lengthRule (c : BitVec 8) (io : IoErr) : (s.respond c io).lengthRule = s.lengthRule := rfl
@[simp] theorem State.respond_req (c : BitVec 8) (io : IoErr) : (s.respond c io).req = s.req := rfl
@[simp] theorem State.respond_inBuf (c : BitVec 8) (io : IoErr) : (s.respond c io).inBuf = s.inBuf := rfl
@[simp] theorem State.respond_out (c : BitVec 8) (io : IoErr) : (s.respond c io).out = s.out := rfl
@[simp] theorem State.respond_status (c : BitVec 8) (io : IoErr) : (s.respond c io).status = c := rfl
@[simp] theorem State.respond_ioerr (c : BitVec 8) (io : IoErr) : (s.respond c io).ioerr = io := rfl
@[simp] theorem State.respond_acc (c : BitVec 8) (io : IoErr) : (s.respond c io).acc = s.acc := rfl
@[simp] theorem State.respond_need (c : BitVec 8) (io : IoErr) : (s.respond c io).need = s.need := rfl
@[simp] theorem State.respond_bcc (c : BitVec 8) (io : IoErr) : (s.respond c io).bcc = s.bcc := rfl
@[simp] theorem State.respond_len (c : BitVec 8) (io : IoErr) : (s.respond c io).len = s.len := rfl
@[simp] theorem State.respond_fbuf (c : BitVec 8) (io : IoErr) : (s.respond c io).fbuf = s.fbuf := rfl
@[simp] theorem State.respond_abuf (c : BitVec 8) (io : IoErr) : (s.respond c io).abuf = s.abuf := rfl
@[simp] theorem State.respond_seq (c : BitVec 8) (io : IoErr) : (s.respond c io).seq = .idle := rfl
@[simp] theorem State.respond_respPending (c : BitVec 8) (io : IoErr) : (s.respond c io).respPending = true := rfl
@[simp] theorem State.respond_offered (c : BitVec 8) (io : IoErr) : (s.respond c io).offered = s.offered := rfl
@[simp] theorem State.respond_rxResidue (c : BitVec 8) (io : IoErr) : (s.respond c io).rxResidue = s.rxResidue := rfl
@[simp] theorem State.respond_txLine (c : BitVec 8) (io : IoErr) : (s.respond c io).txLine = s.txLine := rfl
@[simp] theorem State.respond_history (c : BitVec 8) (io : IoErr) : (s.respond c io).history = s.history := rfl
@[simp] theorem State.respond_inputs (c : BitVec 8) (io : IoErr) : (s.respond c io).inputs = s.inputs := rfl
@[simp] theorem State.respond_exchanges (c : BitVec 8) (io : IoErr) : (s.respond c io).exchanges = s.exchanges := rfl
@[simp] theorem State.respond_freeCount (c : BitVec 8) (io : IoErr) : (s.respond c io).freeCount = s.freeCount + 1 := rfl

/-! ### State.finish -/
@[simp] theorem State.finish_lengthRule : (s.finish).lengthRule = s.lengthRule := rfl
@[simp] theorem State.finish_req : (s.finish).req = s.req := rfl
@[simp] theorem State.finish_inBuf : (s.finish).inBuf = s.inBuf := rfl
@[simp] theorem State.finish_out : (s.finish).out = s.out := rfl
@[simp] theorem State.finish_status : (s.finish).status = statusOk := rfl
@[simp] theorem State.finish_ioerr : (s.finish).ioerr = Config.freeIoErr s.freeCount := rfl
@[simp] theorem State.finish_acc : (s.finish).acc = s.acc := rfl
@[simp] theorem State.finish_need : (s.finish).need = s.need := rfl
@[simp] theorem State.finish_bcc : (s.finish).bcc = s.bcc := rfl
@[simp] theorem State.finish_len : (s.finish).len = s.len := rfl
@[simp] theorem State.finish_fbuf : (s.finish).fbuf = s.fbuf := rfl
@[simp] theorem State.finish_abuf : (s.finish).abuf = s.abuf := rfl
@[simp] theorem State.finish_seq : (s.finish).seq = .idle := rfl
@[simp] theorem State.finish_respPending : (s.finish).respPending = true := rfl
@[simp] theorem State.finish_offered : (s.finish).offered = s.offered := rfl
@[simp] theorem State.finish_rxResidue : (s.finish).rxResidue = s.rxResidue := rfl
@[simp] theorem State.finish_txLine : (s.finish).txLine = s.txLine := rfl
@[simp] theorem State.finish_history : (s.finish).history = s.history := rfl
@[simp] theorem State.finish_inputs : (s.finish).inputs = s.inputs := rfl
@[simp] theorem State.finish_exchanges : (s.finish).exchanges = s.exchanges := rfl
@[simp] theorem State.finish_freeCount : (s.finish).freeCount = s.freeCount + 1 := rfl

/-! ### State.raiseKeeping -/
@[simp] theorem State.raiseKeeping_lengthRule (k : ErrKind) : (s.raiseKeeping k).lengthRule = s.lengthRule := rfl
@[simp] theorem State.raiseKeeping_req (k : ErrKind) : (s.raiseKeeping k).req = s.req := rfl
@[simp] theorem State.raiseKeeping_inBuf (k : ErrKind) : (s.raiseKeeping k).inBuf = s.inBuf := rfl
@[simp] theorem State.raiseKeeping_out (k : ErrKind) : (s.raiseKeeping k).out = s.out := rfl
@[simp] theorem State.raiseKeeping_status (k : ErrKind) : (s.raiseKeeping k).status = k.code := rfl
@[simp] theorem State.raiseKeeping_ioerr (k : ErrKind) : (s.raiseKeeping k).ioerr = s.ioerrFor k := rfl
@[simp] theorem State.raiseKeeping_acc (k : ErrKind) : (s.raiseKeeping k).acc = s.acc := rfl
@[simp] theorem State.raiseKeeping_need (k : ErrKind) : (s.raiseKeeping k).need = s.need := rfl
@[simp] theorem State.raiseKeeping_bcc (k : ErrKind) : (s.raiseKeeping k).bcc = s.bcc := rfl
@[simp] theorem State.raiseKeeping_len (k : ErrKind) : (s.raiseKeeping k).len = s.len := rfl
@[simp] theorem State.raiseKeeping_fbuf (k : ErrKind) : (s.raiseKeeping k).fbuf = s.fbuf := rfl
@[simp] theorem State.raiseKeeping_abuf (k : ErrKind) : (s.raiseKeeping k).abuf = s.abuf := rfl
@[simp] theorem State.raiseKeeping_seq (k : ErrKind) : (s.raiseKeeping k).seq = .idle := rfl
@[simp] theorem State.raiseKeeping_respPending (k : ErrKind) : (s.raiseKeeping k).respPending = true := rfl
@[simp] theorem State.raiseKeeping_offered (k : ErrKind) : (s.raiseKeeping k).offered = s.offered := rfl
@[simp] theorem State.raiseKeeping_rxResidue (k : ErrKind) : (s.raiseKeeping k).rxResidue = s.rxResidue := rfl
@[simp] theorem State.raiseKeeping_txLine (k : ErrKind) : (s.raiseKeeping k).txLine = s.txLine := rfl
@[simp] theorem State.raiseKeeping_history (k : ErrKind) : (s.raiseKeeping k).history = s.history := rfl
@[simp] theorem State.raiseKeeping_inputs (k : ErrKind) : (s.raiseKeeping k).inputs = s.inputs := rfl
@[simp] theorem State.raiseKeeping_exchanges (k : ErrKind) : (s.raiseKeeping k).exchanges = s.exchanges := rfl
@[simp] theorem State.raiseKeeping_freeCount (k : ErrKind) : (s.raiseKeeping k).freeCount = s.freeCount + 1 := rfl

/-! ### State.raise -/
@[simp] theorem State.raise_lengthRule (k : ErrKind) : (s.raise k).lengthRule = s.lengthRule := rfl
@[simp] theorem State.raise_req (k : ErrKind) : (s.raise k).req = s.req := rfl
@[simp] theorem State.raise_inBuf (k : ErrKind) : (s.raise k).inBuf = s.inBuf := rfl
@[simp] theorem State.raise_out (k : ErrKind) : (s.raise k).out = [] := rfl
@[simp] theorem State.raise_status (k : ErrKind) : (s.raise k).status = k.code := rfl
@[simp] theorem State.raise_ioerr (k : ErrKind) : (s.raise k).ioerr = s.ioerrFor k := rfl
@[simp] theorem State.raise_acc (k : ErrKind) : (s.raise k).acc = s.acc := rfl
@[simp] theorem State.raise_need (k : ErrKind) : (s.raise k).need = s.need := rfl
@[simp] theorem State.raise_bcc (k : ErrKind) : (s.raise k).bcc = s.bcc := rfl
@[simp] theorem State.raise_len (k : ErrKind) : (s.raise k).len = s.len := rfl
@[simp] theorem State.raise_fbuf (k : ErrKind) : (s.raise k).fbuf = s.fbuf := rfl
@[simp] theorem State.raise_abuf (k : ErrKind) : (s.raise k).abuf = s.abuf := rfl
@[simp] theorem State.raise_seq (k : ErrKind) : (s.raise k).seq = .idle := rfl
@[simp] theorem State.raise_respPending (k : ErrKind) : (s.raise k).respPending = true := rfl
@[simp] theorem State.raise_offered (k : ErrKind) : (s.raise k).offered = s.offered := rfl
@[simp] theorem State.raise_rxResidue (k : ErrKind) : (s.raise k).rxResidue = s.rxResidue := rfl
@[simp] theorem State.raise_txLine (k : ErrKind) : (s.raise k).txLine = s.txLine := rfl
@[simp] theorem State.raise_history (k : ErrKind) : (s.raise k).history = s.history := rfl
@[simp] theorem State.raise_inputs (k : ErrKind) : (s.raise k).inputs = s.inputs := rfl
@[simp] theorem State.raise_exchanges (k : ErrKind) : (s.raise k).exchanges = s.exchanges := rfl
@[simp] theorem State.raise_freeCount (k : ErrKind) : (s.raise k).freeCount = s.freeCount + 1 := rfl

/-! ### State.illegal -/
@[simp] theorem State.illegal_lengthRule (w : Word) : (s.illegal w).lengthRule = s.lengthRule := rfl
@[simp] theorem State.illegal_req (w : Word) : (s.illegal w).req = w := rfl
@[simp] theorem State.illegal_inBuf (w : Word) : (s.illegal w).inBuf = s.inBuf := rfl
@[simp] theorem State.illegal_out (w : Word) : (s.illegal w).out = [] := rfl
@[simp] theorem State.illegal_status (w : Word) : (s.illegal w).status = 15 := rfl
@[simp] theorem State.illegal_ioerr (w : Word) : (s.illegal w).ioerr = Config.freeIoErr s.freeCount := rfl
@[simp] theorem State.illegal_acc (w : Word) : (s.illegal w).acc = s.acc := rfl
@[simp] theorem State.illegal_need (w : Word) : (s.illegal w).need = s.need := rfl
@[simp] theorem State.illegal_bcc (w : Word) : (s.illegal w).bcc = s.bcc := rfl
@[simp] theorem State.illegal_len (w : Word) : (s.illegal w).len = s.len := rfl
@[simp] theorem State.illegal_fbuf (w : Word) : (s.illegal w).fbuf = s.fbuf := rfl
@[simp] theorem State.illegal_abuf (w : Word) : (s.illegal w).abuf = s.abuf := rfl
@[simp] theorem State.illegal_seq (w : Word) : (s.illegal w).seq = .idle := rfl
@[simp] theorem State.illegal_respPending (w : Word) : (s.illegal w).respPending = true := rfl
@[simp] theorem State.illegal_offered (w : Word) : (s.illegal w).offered = s.offered := rfl
@[simp] theorem State.illegal_rxResidue (w : Word) : (s.illegal w).rxResidue = s.rxResidue := rfl
@[simp] theorem State.illegal_txLine (w : Word) : (s.illegal w).txLine = s.txLine := rfl
@[simp] theorem State.illegal_history (w : Word) : (s.illegal w).history = s.history := rfl
@[simp] theorem State.illegal_inputs (w : Word) : (s.illegal w).inputs = s.inputs := rfl
@[simp] theorem State.illegal_exchanges (w : Word) : (s.illegal w).exchanges = s.exchanges := rfl
@[simp] theorem State.illegal_freeCount (w : Word) : (s.illegal w).freeCount = s.freeCount + 1 := rfl

/-! ### State.hold -/
@[simp] theorem State.hold_lengthRule (r : Offer) : (s.hold r).lengthRule = s.lengthRule := rfl
@[simp] theorem State.hold_req (r : Offer) : (s.hold r).req = s.req := rfl
@[simp] theorem State.hold_inBuf (r : Offer) : (s.hold r).inBuf = s.inBuf := rfl
@[simp] theorem State.hold_out (r : Offer) : (s.hold r).out = s.out := rfl
@[simp] theorem State.hold_status (r : Offer) : (s.hold r).status = s.status := rfl
@[simp] theorem State.hold_ioerr (r : Offer) : (s.hold r).ioerr = s.ioerr := rfl
@[simp] theorem State.hold_acc (r : Offer) : (s.hold r).acc = s.acc := rfl
@[simp] theorem State.hold_need (r : Offer) : (s.hold r).need = s.need := rfl
@[simp] theorem State.hold_bcc (r : Offer) : (s.hold r).bcc = s.bcc := rfl
@[simp] theorem State.hold_len (r : Offer) : (s.hold r).len = s.len := rfl
@[simp] theorem State.hold_fbuf (r : Offer) : (s.hold r).fbuf = s.fbuf := rfl
@[simp] theorem State.hold_abuf (r : Offer) : (s.hold r).abuf = s.abuf := rfl
@[simp] theorem State.hold_seq (r : Offer) : (s.hold r).seq = s.seq := rfl
@[simp] theorem State.hold_respPending (r : Offer) : (s.hold r).respPending = s.respPending := rfl
@[simp] theorem State.hold_offered (r : Offer) : (s.hold r).offered = s.offered ++ [r] := rfl
@[simp] theorem State.hold_rxResidue (r : Offer) : (s.hold r).rxResidue = s.rxResidue := rfl
@[simp] theorem State.hold_txLine (r : Offer) : (s.hold r).txLine = s.txLine := rfl
@[simp] theorem State.hold_history (r : Offer) : (s.hold r).history = s.history := rfl
@[simp] theorem State.hold_inputs (r : Offer) : (s.hold r).inputs = s.inputs := rfl
@[simp] theorem State.hold_exchanges (r : Offer) : (s.hold r).exchanges = s.exchanges := rfl
@[simp] theorem State.hold_freeCount (r : Offer) : (s.hold r).freeCount = s.freeCount := rfl

/-! ### State.receive -/
@[simp] theorem State.receive_lengthRule (b : Bytes) : (s.receive b).lengthRule = s.lengthRule := rfl
@[simp] theorem State.receive_req (b : Bytes) : (s.receive b).req = s.req := rfl
@[simp] theorem State.receive_inBuf (b : Bytes) : (s.receive b).inBuf = s.inBuf := rfl
@[simp] theorem State.receive_out (b : Bytes) : (s.receive b).out = s.out := rfl
@[simp] theorem State.receive_status (b : Bytes) : (s.receive b).status = s.status := rfl
@[simp] theorem State.receive_ioerr (b : Bytes) : (s.receive b).ioerr = s.ioerr := rfl
@[simp] theorem State.receive_acc (b : Bytes) : (s.receive b).acc = s.acc := rfl
@[simp] theorem State.receive_need (b : Bytes) : (s.receive b).need = s.need := rfl
@[simp] theorem State.receive_bcc (b : Bytes) : (s.receive b).bcc = s.bcc := rfl
@[simp] theorem State.receive_len (b : Bytes) : (s.receive b).len = s.len := rfl
@[simp] theorem State.receive_fbuf (b : Bytes) : (s.receive b).fbuf = s.fbuf := rfl
@[simp] theorem State.receive_abuf (b : Bytes) : (s.receive b).abuf = s.abuf := rfl
@[simp] theorem State.receive_seq (b : Bytes) : (s.receive b).seq = s.seq := rfl
@[simp] theorem State.receive_respPending (b : Bytes) : (s.receive b).respPending = s.respPending := rfl
@[simp] theorem State.receive_offered (b : Bytes) : (s.receive b).offered = s.offered := rfl
@[simp] theorem State.receive_rxResidue (b : Bytes) : (s.receive b).rxResidue = s.rxResidue ++ b := rfl
@[simp] theorem State.receive_txLine (b : Bytes) : (s.receive b).txLine = s.txLine := rfl
@[simp] theorem State.receive_history (b : Bytes) : (s.receive b).history = s.history := rfl
@[simp] theorem State.receive_inputs (b : Bytes) : (s.receive b).inputs = s.inputs := rfl
@[simp] theorem State.receive_exchanges (b : Bytes) : (s.receive b).exchanges = s.exchanges := rfl
@[simp] theorem State.receive_freeCount (b : Bytes) : (s.receive b).freeCount = s.freeCount := rfl

/-! ### State.send -/
@[simp] theorem State.send_lengthRule (b : Bytes) : (s.send b).lengthRule = s.lengthRule := rfl
@[simp] theorem State.send_req (b : Bytes) : (s.send b).req = s.req := rfl
@[simp] theorem State.send_inBuf (b : Bytes) : (s.send b).inBuf = s.inBuf := rfl
@[simp] theorem State.send_out (b : Bytes) : (s.send b).out = s.out := rfl
@[simp] theorem State.send_status (b : Bytes) : (s.send b).status = s.status := rfl
@[simp] theorem State.send_ioerr (b : Bytes) : (s.send b).ioerr = s.ioerr := rfl
@[simp] theorem State.send_acc (b : Bytes) : (s.send b).acc = s.acc := rfl
@[simp] theorem State.send_need (b : Bytes) : (s.send b).need = s.need := rfl
@[simp] theorem State.send_bcc (b : Bytes) : (s.send b).bcc = s.bcc := rfl
@[simp] theorem State.send_len (b : Bytes) : (s.send b).len = s.len := rfl
@[simp] theorem State.send_fbuf (b : Bytes) : (s.send b).fbuf = s.fbuf := rfl
@[simp] theorem State.send_abuf (b : Bytes) : (s.send b).abuf = s.abuf := rfl
@[simp] theorem State.send_seq (b : Bytes) : (s.send b).seq = s.seq := rfl
@[simp] theorem State.send_respPending (b : Bytes) : (s.send b).respPending = s.respPending := rfl
@[simp] theorem State.send_offered (b : Bytes) : (s.send b).offered = s.offered := rfl
@[simp] theorem State.send_rxResidue (b : Bytes) : (s.send b).rxResidue = s.rxResidue := rfl
@[simp] theorem State.send_txLine (b : Bytes) : (s.send b).txLine = s.txLine ++ b := rfl
@[simp] theorem State.send_history (b : Bytes) : (s.send b).history = s.history := rfl
@[simp] theorem State.send_inputs (b : Bytes) : (s.send b).inputs = s.inputs := rfl
@[simp] theorem State.send_exchanges (b : Bytes) : (s.send b).exchanges = s.exchanges := rfl
@[simp] theorem State.send_freeCount (b : Bytes) : (s.send b).freeCount = s.freeCount := rfl

/-! ### State.record -/
@[simp] theorem State.record_lengthRule (e : Event) : (s.record e).lengthRule = s.lengthRule := rfl
@[simp] theorem State.record_req (e : Event) : (s.record e).req = s.req := rfl
@[simp] theorem State.record_inBuf (e : Event) : (s.record e).inBuf = s.inBuf := rfl
@[simp] theorem State.record_out (e : Event) : (s.record e).out = s.out := rfl
@[simp] theorem State.record_status (e : Event) : (s.record e).status = s.status := rfl
@[simp] theorem State.record_ioerr (e : Event) : (s.record e).ioerr = s.ioerr := rfl
@[simp] theorem State.record_acc (e : Event) : (s.record e).acc = s.acc := rfl
@[simp] theorem State.record_need (e : Event) : (s.record e).need = s.need := rfl
@[simp] theorem State.record_bcc (e : Event) : (s.record e).bcc = s.bcc := rfl
@[simp] theorem State.record_len (e : Event) : (s.record e).len = s.len := rfl
@[simp] theorem State.record_fbuf (e : Event) : (s.record e).fbuf = s.fbuf := rfl
@[simp] theorem State.record_abuf (e : Event) : (s.record e).abuf = s.abuf := rfl
@[simp] theorem State.record_seq (e : Event) : (s.record e).seq = s.seq := rfl
@[simp] theorem State.record_respPending (e : Event) : (s.record e).respPending = s.respPending := rfl
@[simp] theorem State.record_offered (e : Event) : (s.record e).offered = s.offered := rfl
@[simp] theorem State.record_rxResidue (e : Event) : (s.record e).rxResidue = s.rxResidue := rfl
@[simp] theorem State.record_txLine (e : Event) : (s.record e).txLine = s.txLine := rfl
@[simp] theorem State.record_history (e : Event) : (s.record e).history = s.history ++ [e] := rfl
@[simp] theorem State.record_inputs (e : Event) : (s.record e).inputs = s.inputs := rfl
@[simp] theorem State.record_exchanges (e : Event) : (s.record e).exchanges = s.exchanges := rfl
@[simp] theorem State.record_freeCount (e : Event) : (s.record e).freeCount = s.freeCount := rfl

/-! ### State.await -/
@[simp] theorem State.await_lengthRule (xs : List Input) : (s.await xs).lengthRule = s.lengthRule := rfl
@[simp] theorem State.await_req (xs : List Input) : (s.await xs).req = s.req := rfl
@[simp] theorem State.await_inBuf (xs : List Input) : (s.await xs).inBuf = s.inBuf := rfl
@[simp] theorem State.await_out (xs : List Input) : (s.await xs).out = s.out := rfl
@[simp] theorem State.await_status (xs : List Input) : (s.await xs).status = s.status := rfl
@[simp] theorem State.await_ioerr (xs : List Input) : (s.await xs).ioerr = s.ioerr := rfl
@[simp] theorem State.await_acc (xs : List Input) : (s.await xs).acc = s.acc := rfl
@[simp] theorem State.await_need (xs : List Input) : (s.await xs).need = s.need := rfl
@[simp] theorem State.await_bcc (xs : List Input) : (s.await xs).bcc = s.bcc := rfl
@[simp] theorem State.await_len (xs : List Input) : (s.await xs).len = s.len := rfl
@[simp] theorem State.await_fbuf (xs : List Input) : (s.await xs).fbuf = s.fbuf := rfl
@[simp] theorem State.await_abuf (xs : List Input) : (s.await xs).abuf = s.abuf := rfl
@[simp] theorem State.await_seq (xs : List Input) : (s.await xs).seq = s.seq := rfl
@[simp] theorem State.await_respPending (xs : List Input) : (s.await xs).respPending = s.respPending := rfl
@[simp] theorem State.await_offered (xs : List Input) : (s.await xs).offered = s.offered := rfl
@[simp] theorem State.await_rxResidue (xs : List Input) : (s.await xs).rxResidue = s.rxResidue := rfl
@[simp] theorem State.await_txLine (xs : List Input) : (s.await xs).txLine = s.txLine := rfl
@[simp] theorem State.await_history (xs : List Input) : (s.await xs).history = s.history := rfl
@[simp] theorem State.await_inputs (xs : List Input) : (s.await xs).inputs = xs := rfl
@[simp] theorem State.await_exchanges (xs : List Input) : (s.await xs).exchanges = s.exchanges := rfl
@[simp] theorem State.await_freeCount (xs : List Input) : (s.await xs).freeCount = s.freeCount := rfl

/-! ### State.take -/
@[simp] theorem State.take_lengthRule (k : Nat) : (s.take k).lengthRule = s.lengthRule := rfl
@[simp] theorem State.take_req (k : Nat) : (s.take k).req = s.req := rfl
@[simp] theorem State.take_inBuf (k : Nat) : (s.take k).inBuf = s.inBuf := rfl
@[simp] theorem State.take_out (k : Nat) : (s.take k).out = s.out := rfl
@[simp] theorem State.take_status (k : Nat) : (s.take k).status = s.status := rfl
@[simp] theorem State.take_ioerr (k : Nat) : (s.take k).ioerr = s.ioerr := rfl
@[simp] theorem State.take_acc (k : Nat) : (s.take k).acc = s.acc ++ s.rxResidue.take k := rfl
@[simp] theorem State.take_need (k : Nat) : (s.take k).need = s.need := rfl
@[simp] theorem State.take_bcc (k : Nat) : (s.take k).bcc = s.bcc := rfl
@[simp] theorem State.take_len (k : Nat) : (s.take k).len = s.len := rfl
@[simp] theorem State.take_fbuf (k : Nat) : (s.take k).fbuf = s.fbuf := rfl
@[simp] theorem State.take_abuf (k : Nat) : (s.take k).abuf = s.abuf := rfl
@[simp] theorem State.take_seq (k : Nat) : (s.take k).seq = s.seq := rfl
@[simp] theorem State.take_respPending (k : Nat) : (s.take k).respPending = s.respPending := rfl
@[simp] theorem State.take_offered (k : Nat) : (s.take k).offered = s.offered := rfl
@[simp] theorem State.take_rxResidue (k : Nat) : (s.take k).rxResidue = s.rxResidue.drop k := rfl
@[simp] theorem State.take_txLine (k : Nat) : (s.take k).txLine = s.txLine := rfl
@[simp] theorem State.take_history (k : Nat) : (s.take k).history = s.history ++ [.rx s.missing (.data (s.rxResidue.take k))] := rfl
@[simp] theorem State.take_inputs (k : Nat) : (s.take k).inputs = s.inputs := rfl
@[simp] theorem State.take_exchanges (k : Nat) : (s.take k).exchanges = s.exchanges := rfl
@[simp] theorem State.take_freeCount (k : Nat) : (s.take k).freeCount = s.freeCount := rfl

/-! ### State.enterRead -/
@[simp] theorem State.enterRead_lengthRule (b : Busy) (n : BitVec 16) : (s.enterRead b n).lengthRule = s.lengthRule := rfl
@[simp] theorem State.enterRead_req (b : Busy) (n : BitVec 16) : (s.enterRead b n).req = s.req := rfl
@[simp] theorem State.enterRead_inBuf (b : Busy) (n : BitVec 16) : (s.enterRead b n).inBuf = s.inBuf := rfl
@[simp] theorem State.enterRead_out (b : Busy) (n : BitVec 16) : (s.enterRead b n).out = s.out := rfl
@[simp] theorem State.enterRead_status (b : Busy) (n : BitVec 16) : (s.enterRead b n).status = s.status := rfl
@[simp] theorem State.enterRead_ioerr (b : Busy) (n : BitVec 16) : (s.enterRead b n).ioerr = s.ioerr := rfl
@[simp] theorem State.enterRead_acc (b : Busy) (n : BitVec 16) : (s.enterRead b n).acc = [] := rfl
@[simp] theorem State.enterRead_need (b : Busy) (n : BitVec 16) : (s.enterRead b n).need = n := rfl
@[simp] theorem State.enterRead_bcc (b : Busy) (n : BitVec 16) : (s.enterRead b n).bcc = s.bcc := rfl
@[simp] theorem State.enterRead_len (b : Busy) (n : BitVec 16) : (s.enterRead b n).len = s.len := rfl
@[simp] theorem State.enterRead_fbuf (b : Busy) (n : BitVec 16) : (s.enterRead b n).fbuf = s.fbuf := rfl
@[simp] theorem State.enterRead_abuf (b : Busy) (n : BitVec 16) : (s.enterRead b n).abuf = s.abuf := rfl
@[simp] theorem State.enterRead_seq (b : Busy) (n : BitVec 16) : (s.enterRead b n).seq = .busy b := rfl
@[simp] theorem State.enterRead_respPending (b : Busy) (n : BitVec 16) : (s.enterRead b n).respPending = s.respPending := rfl
@[simp] theorem State.enterRead_offered (b : Busy) (n : BitVec 16) : (s.enterRead b n).offered = s.offered := rfl
@[simp] theorem State.enterRead_rxResidue (b : Busy) (n : BitVec 16) : (s.enterRead b n).rxResidue = s.rxResidue := rfl
@[simp] theorem State.enterRead_txLine (b : Busy) (n : BitVec 16) : (s.enterRead b n).txLine = s.txLine := rfl
@[simp] theorem State.enterRead_history (b : Busy) (n : BitVec 16) : (s.enterRead b n).history = s.history := rfl
@[simp] theorem State.enterRead_inputs (b : Busy) (n : BitVec 16) : (s.enterRead b n).inputs = s.inputs := rfl
@[simp] theorem State.enterRead_exchanges (b : Busy) (n : BitVec 16) : (s.enterRead b n).exchanges = s.exchanges := rfl
@[simp] theorem State.enterRead_freeCount (b : Busy) (n : BitVec 16) : (s.enterRead b n).freeCount = s.freeCount := rfl

/-! ### State.assemble -/
@[simp] theorem State.assemble_lengthRule : (s.assemble).lengthRule = s.lengthRule := rfl
@[simp] theorem State.assemble_req : (s.assemble).req = s.req := rfl
@[simp] theorem State.assemble_inBuf : (s.assemble).inBuf = s.inBuf := rfl
@[simp] theorem State.assemble_out : (s.assemble).out = s.out := rfl
@[simp] theorem State.assemble_status : (s.assemble).status = s.status := rfl
@[simp] theorem State.assemble_ioerr : (s.assemble).ioerr = s.ioerr := rfl
@[simp] theorem State.assemble_acc : (s.assemble).acc = s.acc := rfl
@[simp] theorem State.assemble_need : (s.assemble).need = s.need := rfl
@[simp] theorem State.assemble_bcc : (s.assemble).bcc = xorfold (frameBody s.address (lenenc s.lengthRule s.operand.length).1 (lenenc s.lengthRule s.operand.length).2 s.operand) := rfl
@[simp] theorem State.assemble_len : (s.assemble).len = s.len := rfl
@[simp] theorem State.assemble_fbuf : (s.assemble).fbuf = commandFrame s.lengthRule s.address s.operand := rfl
@[simp] theorem State.assemble_abuf : (s.assemble).abuf = s.abuf := rfl
@[simp] theorem State.assemble_seq : (s.assemble).seq = s.seq := rfl
@[simp] theorem State.assemble_respPending : (s.assemble).respPending = s.respPending := rfl
@[simp] theorem State.assemble_offered : (s.assemble).offered = s.offered := rfl
@[simp] theorem State.assemble_rxResidue : (s.assemble).rxResidue = s.rxResidue := rfl
@[simp] theorem State.assemble_txLine : (s.assemble).txLine = s.txLine := rfl
@[simp] theorem State.assemble_history : (s.assemble).history = s.history := rfl
@[simp] theorem State.assemble_inputs : (s.assemble).inputs = s.inputs := rfl
@[simp] theorem State.assemble_exchanges : (s.assemble).exchanges = s.exchanges := rfl
@[simp] theorem State.assemble_freeCount : (s.assemble).freeCount = s.freeCount := rfl

/-! ### State.decodeLen -/
@[simp] theorem State.decodeLen_lengthRule (f : Bytes) : (s.decodeLen f).lengthRule = s.lengthRule := rfl
@[simp] theorem State.decodeLen_req (f : Bytes) : (s.decodeLen f).req = s.req := rfl
@[simp] theorem State.decodeLen_inBuf (f : Bytes) : (s.decodeLen f).inBuf = s.inBuf := rfl
@[simp] theorem State.decodeLen_out (f : Bytes) : (s.decodeLen f).out = s.out := rfl
@[simp] theorem State.decodeLen_status (f : Bytes) : (s.decodeLen f).status = s.status := rfl
@[simp] theorem State.decodeLen_ioerr (f : Bytes) : (s.decodeLen f).ioerr = s.ioerr := rfl
@[simp] theorem State.decodeLen_acc (f : Bytes) : (s.decodeLen f).acc = s.acc := rfl
@[simp] theorem State.decodeLen_need (f : Bytes) : (s.decodeLen f).need = s.need := rfl
@[simp] theorem State.decodeLen_bcc (f : Bytes) : (s.decodeLen f).bcc = s.bcc := rfl
@[simp] theorem State.decodeLen_len (f : Bytes) : (s.decodeLen f).len = lendec s.lengthRule (f.getD 3 0) (f.getD 4 0) := rfl
@[simp] theorem State.decodeLen_fbuf (f : Bytes) : (s.decodeLen f).fbuf = s.fbuf := rfl
@[simp] theorem State.decodeLen_abuf (f : Bytes) : (s.decodeLen f).abuf = s.abuf := rfl
@[simp] theorem State.decodeLen_seq (f : Bytes) : (s.decodeLen f).seq = s.seq := rfl
@[simp] theorem State.decodeLen_respPending (f : Bytes) : (s.decodeLen f).respPending = s.respPending := rfl
@[simp] theorem State.decodeLen_offered (f : Bytes) : (s.decodeLen f).offered = s.offered := rfl
@[simp] theorem State.decodeLen_rxResidue (f : Bytes) : (s.decodeLen f).rxResidue = s.rxResidue := rfl
@[simp] theorem State.decodeLen_txLine (f : Bytes) : (s.decodeLen f).txLine = s.txLine := rfl
@[simp] theorem State.decodeLen_history (f : Bytes) : (s.decodeLen f).history = s.history := rfl
@[simp] theorem State.decodeLen_inputs (f : Bytes) : (s.decodeLen f).inputs = s.inputs := rfl
@[simp] theorem State.decodeLen_exchanges (f : Bytes) : (s.decodeLen f).exchanges = s.exchanges := rfl
@[simp] theorem State.decodeLen_freeCount (f : Bytes) : (s.decodeLen f).freeCount = s.freeCount := rfl

/-! ### State.takeField -/
@[simp] theorem State.takeField_lengthRule : (s.takeField).lengthRule = s.lengthRule := rfl
@[simp] theorem State.takeField_req : (s.takeField).req = s.req := rfl
@[simp] theorem State.takeField_inBuf : (s.takeField).inBuf = s.inBuf := rfl
@[simp] theorem State.takeField_out : (s.takeField).out = s.out := rfl
@[simp] theorem State.takeField_status : (s.takeField).status = s.status := rfl
@[simp] theorem State.takeField_ioerr : (s.takeField).ioerr = s.ioerr := rfl
@[simp] theorem State.takeField_acc : (s.takeField).acc = s.acc := rfl
@[simp] theorem State.takeField_need : (s.takeField).need = s.need := rfl
@[simp] theorem State.takeField_bcc : (s.takeField).bcc = s.bcc ^^^ xorfold s.acc := rfl
@[simp] theorem State.takeField_len : (s.takeField).len = s.len := rfl
@[simp] theorem State.takeField_fbuf : (s.takeField).fbuf = s.fbuf ++ s.acc := rfl
@[simp] theorem State.takeField_abuf : (s.takeField).abuf = s.abuf := rfl
@[simp] theorem State.takeField_seq : (s.takeField).seq = s.seq := rfl
@[simp] theorem State.takeField_respPending : (s.takeField).respPending = s.respPending := rfl
@[simp] theorem State.takeField_offered : (s.takeField).offered = s.offered := rfl
@[simp] theorem State.takeField_rxResidue : (s.takeField).rxResidue = s.rxResidue := rfl
@[simp] theorem State.takeField_txLine : (s.takeField).txLine = s.txLine := rfl
@[simp] theorem State.takeField_history : (s.takeField).history = s.history := rfl
@[simp] theorem State.takeField_inputs : (s.takeField).inputs = s.inputs := rfl
@[simp] theorem State.takeField_exchanges : (s.takeField).exchanges = s.exchanges := rfl
@[simp] theorem State.takeField_freeCount : (s.takeField).freeCount = s.freeCount := rfl

/-! ### State.readLen -/
@[simp] theorem State.readLen_lengthRule : (s.readLen).lengthRule = s.lengthRule := rfl
@[simp] theorem State.readLen_req : (s.readLen).req = s.req := rfl
@[simp] theorem State.readLen_inBuf : (s.readLen).inBuf = s.inBuf := rfl
@[simp] theorem State.readLen_out : (s.readLen).out = s.out := rfl
@[simp] theorem State.readLen_status : (s.readLen).status = s.status := rfl
@[simp] theorem State.readLen_ioerr : (s.readLen).ioerr = s.ioerr := rfl
@[simp] theorem State.readLen_acc : (s.readLen).acc = s.acc := rfl
@[simp] theorem State.readLen_need : (s.readLen).need = s.need := rfl
@[simp] theorem State.readLen_bcc : (s.readLen).bcc = s.bcc := rfl
@[simp] theorem State.readLen_len : (s.readLen).len = lendec s.lengthRule (s.acc.getD 0 0) (s.acc.getD 1 0) := rfl
@[simp] theorem State.readLen_fbuf : (s.readLen).fbuf = s.fbuf := rfl
@[simp] theorem State.readLen_abuf : (s.readLen).abuf = s.abuf := rfl
@[simp] theorem State.readLen_seq : (s.readLen).seq = s.seq := rfl
@[simp] theorem State.readLen_respPending : (s.readLen).respPending = s.respPending := rfl
@[simp] theorem State.readLen_offered : (s.readLen).offered = s.offered := rfl
@[simp] theorem State.readLen_rxResidue : (s.readLen).rxResidue = s.rxResidue := rfl
@[simp] theorem State.readLen_txLine : (s.readLen).txLine = s.txLine := rfl
@[simp] theorem State.readLen_history : (s.readLen).history = s.history := rfl
@[simp] theorem State.readLen_inputs : (s.readLen).inputs = s.inputs := rfl
@[simp] theorem State.readLen_exchanges : (s.readLen).exchanges = s.exchanges := rfl
@[simp] theorem State.readLen_freeCount : (s.readLen).freeCount = s.freeCount := rfl

/-! ### State.accept -/
@[simp] theorem State.accept_lengthRule (r : Offer) (rest : List Offer) : (s.accept r rest).lengthRule = s.lengthRule := rfl
@[simp] theorem State.accept_req (r : Offer) (rest : List Offer) : (s.accept r rest).req = s.req := rfl
@[simp] theorem State.accept_inBuf (r : Offer) (rest : List Offer) : (s.accept r rest).inBuf = r.operand := rfl
@[simp] theorem State.accept_out (r : Offer) (rest : List Offer) : (s.accept r rest).out = s.out := rfl
@[simp] theorem State.accept_status (r : Offer) (rest : List Offer) : (s.accept r rest).status = s.status := rfl
@[simp] theorem State.accept_ioerr (r : Offer) (rest : List Offer) : (s.accept r rest).ioerr = s.ioerr := rfl
@[simp] theorem State.accept_acc (r : Offer) (rest : List Offer) : (s.accept r rest).acc = s.acc := rfl
@[simp] theorem State.accept_need (r : Offer) (rest : List Offer) : (s.accept r rest).need = s.need := rfl
@[simp] theorem State.accept_bcc (r : Offer) (rest : List Offer) : (s.accept r rest).bcc = s.bcc := rfl
@[simp] theorem State.accept_len (r : Offer) (rest : List Offer) : (s.accept r rest).len = s.len := rfl
@[simp] theorem State.accept_fbuf (r : Offer) (rest : List Offer) : (s.accept r rest).fbuf = s.fbuf := rfl
@[simp] theorem State.accept_abuf (r : Offer) (rest : List Offer) : (s.accept r rest).abuf = s.abuf := rfl
@[simp] theorem State.accept_seq (r : Offer) (rest : List Offer) : (s.accept r rest).seq = s.seq := rfl
@[simp] theorem State.accept_respPending (r : Offer) (rest : List Offer) : (s.accept r rest).respPending = false := rfl
@[simp] theorem State.accept_offered (r : Offer) (rest : List Offer) : (s.accept r rest).offered = rest := rfl
@[simp] theorem State.accept_rxResidue (r : Offer) (rest : List Offer) : (s.accept r rest).rxResidue = s.rxResidue := rfl
@[simp] theorem State.accept_txLine (r : Offer) (rest : List Offer) : (s.accept r rest).txLine = s.txLine := rfl
@[simp] theorem State.accept_history (r : Offer) (rest : List Offer) : (s.accept r rest).history = s.history := rfl
@[simp] theorem State.accept_inputs (r : Offer) (rest : List Offer) : (s.accept r rest).inputs = s.inputs := rfl
@[simp] theorem State.accept_exchanges (r : Offer) (rest : List Offer) : (s.accept r rest).exchanges = s.exchanges := rfl
@[simp] theorem State.accept_freeCount (r : Offer) (rest : List Offer) : (s.accept r rest).freeCount = s.freeCount := rfl

/-! ### State.resetBlock -/
@[simp] theorem State.resetBlock_lengthRule : (s.resetBlock).lengthRule = s.lengthRule := rfl
@[simp] theorem State.resetBlock_req : (s.resetBlock).req = 0 := rfl
@[simp] theorem State.resetBlock_inBuf : (s.resetBlock).inBuf = [] := rfl
@[simp] theorem State.resetBlock_out : (s.resetBlock).out = [] := rfl
@[simp] theorem State.resetBlock_status : (s.resetBlock).status = 0 := rfl
@[simp] theorem State.resetBlock_ioerr : (s.resetBlock).ioerr = ⟨0⟩ := rfl
@[simp] theorem State.resetBlock_acc : (s.resetBlock).acc = [] := rfl
@[simp] theorem State.resetBlock_need : (s.resetBlock).need = 0 := rfl
@[simp] theorem State.resetBlock_bcc : (s.resetBlock).bcc = 0 := rfl
@[simp] theorem State.resetBlock_len : (s.resetBlock).len = 0 := rfl
@[simp] theorem State.resetBlock_fbuf : (s.resetBlock).fbuf = [] := rfl
@[simp] theorem State.resetBlock_abuf : (s.resetBlock).abuf = [] := rfl
@[simp] theorem State.resetBlock_seq : (s.resetBlock).seq = .idle := rfl
@[simp] theorem State.resetBlock_respPending : (s.resetBlock).respPending = false := rfl
@[simp] theorem State.resetBlock_offered : (s.resetBlock).offered = s.offered := rfl
@[simp] theorem State.resetBlock_rxResidue : (s.resetBlock).rxResidue = s.rxResidue := rfl
@[simp] theorem State.resetBlock_txLine : (s.resetBlock).txLine = s.txLine := rfl
@[simp] theorem State.resetBlock_history : (s.resetBlock).history = s.history := rfl
@[simp] theorem State.resetBlock_inputs : (s.resetBlock).inputs = s.inputs := rfl
@[simp] theorem State.resetBlock_exchanges : (s.resetBlock).exchanges = s.exchanges := rfl
@[simp] theorem State.resetBlock_freeCount : (s.resetBlock).freeCount = s.freeCount := rfl

/-! ### State.assembleEnq -/
@[simp] theorem State.assembleEnq_lengthRule : (s.assembleEnq).lengthRule = s.lengthRule := rfl
@[simp] theorem State.assembleEnq_req : (s.assembleEnq).req = s.req := rfl
@[simp] theorem State.assembleEnq_inBuf : (s.assembleEnq).inBuf = s.inBuf := rfl
@[simp] theorem State.assembleEnq_out : (s.assembleEnq).out = s.out := rfl
@[simp] theorem State.assembleEnq_status : (s.assembleEnq).status = s.status := rfl
@[simp] theorem State.assembleEnq_ioerr : (s.assembleEnq).ioerr = s.ioerr := rfl
@[simp] theorem State.assembleEnq_acc : (s.assembleEnq).acc = s.acc := rfl
@[simp] theorem State.assembleEnq_need : (s.assembleEnq).need = s.need := rfl
@[simp] theorem State.assembleEnq_bcc : (s.assembleEnq).bcc = s.bcc := rfl
@[simp] theorem State.assembleEnq_len : (s.assembleEnq).len = s.len := rfl
@[simp] theorem State.assembleEnq_fbuf : (s.assembleEnq).fbuf = enqByte :: addrDigits s.address := rfl
@[simp] theorem State.assembleEnq_abuf : (s.assembleEnq).abuf = s.abuf := rfl
@[simp] theorem State.assembleEnq_seq : (s.assembleEnq).seq = s.seq := rfl
@[simp] theorem State.assembleEnq_respPending : (s.assembleEnq).respPending = s.respPending := rfl
@[simp] theorem State.assembleEnq_offered : (s.assembleEnq).offered = s.offered := rfl
@[simp] theorem State.assembleEnq_rxResidue : (s.assembleEnq).rxResidue = s.rxResidue := rfl
@[simp] theorem State.assembleEnq_txLine : (s.assembleEnq).txLine = s.txLine := rfl
@[simp] theorem State.assembleEnq_history : (s.assembleEnq).history = s.history := rfl
@[simp] theorem State.assembleEnq_inputs : (s.assembleEnq).inputs = s.inputs := rfl
@[simp] theorem State.assembleEnq_exchanges : (s.assembleEnq).exchanges = s.exchanges := rfl
@[simp] theorem State.assembleEnq_freeCount : (s.assembleEnq).freeCount = s.freeCount := rfl

/-! ### State.moved -/
@[simp] theorem State.moved_lengthRule : (s.moved).lengthRule = s.lengthRule := rfl
@[simp] theorem State.moved_req : (s.moved).req = s.req := rfl
@[simp] theorem State.moved_inBuf : (s.moved).inBuf = s.inBuf := rfl
@[simp] theorem State.moved_out : (s.moved).out = s.out := rfl
@[simp] theorem State.moved_status : (s.moved).status = s.status := rfl
@[simp] theorem State.moved_ioerr : (s.moved).ioerr = s.ioerr := rfl
@[simp] theorem State.moved_acc : (s.moved).acc = s.acc := rfl
@[simp] theorem State.moved_need : (s.moved).need = s.need := rfl
@[simp] theorem State.moved_bcc : (s.moved).bcc = s.bcc := rfl
@[simp] theorem State.moved_len : (s.moved).len = s.len := rfl
@[simp] theorem State.moved_fbuf : (s.moved).fbuf = s.fbuf := rfl
@[simp] theorem State.moved_abuf : (s.moved).abuf = s.abuf := rfl
@[simp] theorem State.moved_seq : (s.moved).seq = s.seq := rfl
@[simp] theorem State.moved_respPending : (s.moved).respPending = s.respPending := rfl
@[simp] theorem State.moved_offered : (s.moved).offered = s.offered := rfl
@[simp] theorem State.moved_rxResidue : (s.moved).rxResidue = s.rxResidue := rfl
@[simp] theorem State.moved_txLine : (s.moved).txLine = s.txLine := rfl
@[simp] theorem State.moved_history : (s.moved).history = s.history := rfl
@[simp] theorem State.moved_inputs : (s.moved).inputs = afterMove s.inputs := rfl
@[simp] theorem State.moved_exchanges : (s.moved).exchanges = s.exchanges := rfl
@[simp] theorem State.moved_freeCount : (s.moved).freeCount = s.freeCount := rfl

/-! ### State.noted -/
@[simp] theorem State.noted_lengthRule (uses : Bool) (x : Nat) : (s.noted uses x).lengthRule = s.lengthRule := rfl
@[simp] theorem State.noted_req (uses : Bool) (x : Nat) : (s.noted uses x).req = s.req := rfl
@[simp] theorem State.noted_inBuf (uses : Bool) (x : Nat) : (s.noted uses x).inBuf = s.inBuf := rfl
@[simp] theorem State.noted_out (uses : Bool) (x : Nat) : (s.noted uses x).out = s.out := rfl
@[simp] theorem State.noted_status (uses : Bool) (x : Nat) : (s.noted uses x).status = s.status := rfl
@[simp] theorem State.noted_ioerr (uses : Bool) (x : Nat) : (s.noted uses x).ioerr = s.ioerr := rfl
@[simp] theorem State.noted_acc (uses : Bool) (x : Nat) : (s.noted uses x).acc = s.acc := rfl
@[simp] theorem State.noted_need (uses : Bool) (x : Nat) : (s.noted uses x).need = s.need := rfl
@[simp] theorem State.noted_bcc (uses : Bool) (x : Nat) : (s.noted uses x).bcc = s.bcc := rfl
@[simp] theorem State.noted_len (uses : Bool) (x : Nat) : (s.noted uses x).len = s.len := rfl
@[simp] theorem State.noted_fbuf (uses : Bool) (x : Nat) : (s.noted uses x).fbuf = s.fbuf := rfl
@[simp] theorem State.noted_abuf (uses : Bool) (x : Nat) : (s.noted uses x).abuf = s.abuf := rfl
@[simp] theorem State.noted_seq (uses : Bool) (x : Nat) : (s.noted uses x).seq = s.seq := rfl
@[simp] theorem State.noted_respPending (uses : Bool) (x : Nat) : (s.noted uses x).respPending = s.respPending := rfl
@[simp] theorem State.noted_offered (uses : Bool) (x : Nat) : (s.noted uses x).offered = s.offered := rfl
@[simp] theorem State.noted_rxResidue (uses : Bool) (x : Nat) : (s.noted uses x).rxResidue = s.rxResidue := rfl
@[simp] theorem State.noted_txLine (uses : Bool) (x : Nat) : (s.noted uses x).txLine = s.txLine := rfl
@[simp] theorem State.noted_history (uses : Bool) (x : Nat) : (s.noted uses x).history = s.history := rfl
@[simp] theorem State.noted_inputs (uses : Bool) (x : Nat) : (s.noted uses x).inputs = s.inputs := rfl
@[simp] theorem State.noted_exchanges (uses : Bool) (x : Nat) : (s.noted uses x).exchanges = if uses then joined x s.exchanges else s.exchanges := rfl
@[simp] theorem State.noted_freeCount (uses : Bool) (x : Nat) : (s.noted uses x).freeCount = s.freeCount := rfl

/-! ### What is next on the timeline -/
@[simp] theorem resetNext_nil : resetNext [] = false := rfl
@[simp] theorem resetNext_reset (k : Nat) (xs : List Input) : resetNext (.reset k :: xs) = true := rfl
@[simp] theorem afterMove_nil : afterMove [] = [] := rfl
@[simp] theorem afterMove_proceed (xs : List Input) : afterMove (.proceed :: xs) = xs := rfl

/-- A move uses up at most a `proceed`. -/
theorem afterMove_cases (xs : List Input) : afterMove xs = xs ∨ xs = .proceed :: afterMove xs := by
  cases xs with
  | nil => exact .inl rfl
  | cons x xs => cases x <;> first | exact .inl rfl | exact .inr rfl

theorem resetNext_cases (xs : List Input) : resetNext xs = false ∨ ∃ k ys, xs = .reset k :: ys := by
  cases xs with
  | nil => exact .inl rfl
  | cons x xs => cases x <;> first | exact .inl rfl | exact .inr ⟨_, _, rfl⟩

end

end Sys2Proof.Machine
end

