-- ==== Sys2Proof/Laws/Encoding.lean ====
section
/-! SUPPORT. The fields of a request word, the operands a state reads from its `REQ`, and the sizes of the wire formats. -/

namespace Sys2Proof

/-! ### Fields of an assembled word -/

section
variable (c : BitVec 16) (a : BitVec 8) (o : BitVec 3)

@[simp] theorem addrField_requestWord : addrField (requestWord c a o) = a := by
  apply BitVec.eq_of_toNat_eq
  simp only [addrField, requestWord, BitVec.extractLsb'_toNat, BitVec.toNat_ofNat, Nat.shiftRight_eq_div_pow]
  omega

@[simp] theorem countField_requestWord : countField (requestWord c a o) = c := by
  apply BitVec.eq_of_toNat_eq
  simp only [countField, requestWord, BitVec.extractLsb'_toNat, BitVec.toNat_ofNat, Nat.shiftRight_eq_div_pow]
  omega

@[simp] theorem opField_requestWord : opField (requestWord c a o) = o := by
  apply BitVec.eq_of_toNat_eq
  simp only [opField, requestWord, BitVec.extractLsb'_toNat, BitVec.toNat_ofNat, Nat.shiftRight_eq_div_pow]
  omega

@[simp] theorem rsvField_requestWord : rsvField (requestWord c a o) = 0 := by
  have z : BitVec.toNat (0 : BitVec 5) = 0 := rfl
  apply BitVec.eq_of_toNat_eq
  simp only [rsvField, requestWord, BitVec.extractLsb'_toNat, BitVec.toNat_ofNat, Nat.shiftRight_eq_div_pow]
  omega

end

/-- A word whose reserved bits are 0 is put together again from its fields. -/
theorem requestWord_fields (w : Word) (h : rsvField w = 0) :
    requestWord (countField w) (addrField w) (opField w) = w := by
  have z : BitVec.toNat (0 : BitVec 5) = 0 := rfl
  have h' := congrArg BitVec.toNat h
  apply BitVec.eq_of_toNat_eq
  simp only [rsvField, requestWord, countField, addrField, opField, BitVec.extractLsb'_toNat, BitVec.toNat_ofNat,
    Nat.shiftRight_eq_div_pow] at *
  omega

@[simp] theorem addrField_encode (i : Instr) : addrField (encode i) = i.addr := addrField_requestWord ..

@[simp] theorem countField_encode (i : Instr) : countField (encode i) = i.count := countField_requestWord ..

@[simp] theorem opField_encode (i : Instr) : opField (encode i) = i.opcode := opField_requestWord ..

@[simp] theorem rsvField_encode (i : Instr) : rsvField (encode i) = 0 := rsvField_requestWord ..

namespace Machine

/-! ### Operands -/

theorem State.operand_eq (s : State) : s.operand = s.inBuf := by simp [State.operand, State.memRead]

theorem State.address_le (s : State) : s.address ≤ 255 := by
  have := (addrField s.req).isLt
  simp only [State.address]; omega

@[simp] theorem State.address_start (s : State) (i : Instr) (b : Busy) : (s.start i b).address = i.addr.toNat := by
  simp [State.address]

@[simp] theorem State.address_goto (s : State) (b : Busy) : (s.goto b).address = s.address := rfl

@[simp] theorem State.count_start (s : State) (i : Instr) (b : Busy) : (s.start i b).count = i.count := by
  simp [State.count]

/-! ### Wire formats -/

@[simp] theorem addrDigits_length (a : Nat) : (addrDigits a).length = 2 := rfl

/-- A length field never says more than 65535. -/
theorem lendec_le (rule : LengthRule) (h l : Byte) : lendec rule h l ≤ 65535 := by
  have := h.isLt; have := l.isLt
  cases rule <;> simp only [lendec] <;> omega

@[simp] theorem frameBody_length (a : Nat) (h l : Byte) (p : Bytes) : (frameBody a h l p).length = 6 + p.length := by
  simp [frameBody]; omega

@[simp] theorem frameWith_length (a : Nat) (h l : Byte) (p : Bytes) : (frameWith a h l p).length = 7 + p.length := by
  simp [frameWith]; omega

@[simp] theorem commandFrame_length (rule : LengthRule) (a : Nat) (p : Bytes) :
    (commandFrame rule a p).length = 7 + p.length := by
  simp [commandFrame]

/-- The only answers of `BuildFrame`'s checks (R91). -/
theorem checkCommand_cases (a : Nat) (p : Bytes) :
    (checkCommand a p = none ∧ a ≤ 15 ∧ 1 ≤ p.length ∧ p.length ≤ 65535) ∨
    (checkCommand a p = some .invalidAddress ∧ 15 < a) ∨
    (checkCommand a p = some .emptyPayload ∧ a ≤ 15 ∧ p = []) ∨
    (checkCommand a p = some .payloadTooLong ∧ a ≤ 15 ∧ p ≠ [] ∧ 65535 < p.length) := by
  unfold checkCommand Config.addrMax Config.maxPayload
  split
  · simp_all
  · split
    · simp_all
    · split
      · rename_i h1 h2 h3
        exact .inr (.inr (.inr ⟨rfl, by omega, by rintro rfl; simp at h2, h3⟩))
      · exact .inl ⟨rfl, by omega, by omega, by omega⟩

theorem buildEnq_of_le (a : Nat) (h : a ≤ 15) : buildEnq a = .ok (enqByte :: addrDigits a) := by
  unfold buildEnq Config.addrMax; rw [if_neg (by omega)]

theorem buildEnq_of_gt (a : Nat) (h : 15 < a) : buildEnq a = .error .invalidAddress := by
  unfold buildEnq Config.addrMax; rw [if_pos h]

end Machine

end Sys2Proof
end

