-- ==== Sys2Proof/Laws/Transport.lean ====
section
/-! SUPPORT. What the two transport primitives can do: the world moves on (`Moves`), nothing else changes but `ACC`, and they end in one of a few ways. Later proofs cite these lemmas and unfold neither loop. -/

namespace Sys2Proof.Machine

/-! ### Logs and timelines -/

@[simp] theorem sentBytes_nil : sentBytes [] = [] := rfl
@[simp] theorem readBytes_nil : readBytes [] = [] := rfl
@[simp] theorem sentBytes_append (g h : List Event) : sentBytes (g ++ h) = sentBytes g ++ sentBytes h := List.flatMap_append
@[simp] theorem readBytes_append (g h : List Event) : readBytes (g ++ h) = readBytes g ++ readBytes h := List.flatMap_append
@[simp] theorem sentBytes_cons (e : Event) (h : List Event) : sentBytes (e :: h) = e.sent ++ sentBytes h := rfl
@[simp] theorem readBytes_cons (e : Event) (h : List Event) : readBytes (e :: h) = e.got ++ readBytes h := rfl
@[simp] theorem arrivals_nil : arrivals [] = [] := rfl
@[simp] theorem offersIn_nil : offersIn [] = [] := rfl
@[simp] theorem arrivals_append (xs ys : List Input) : arrivals (xs ++ ys) = arrivals xs ++ arrivals ys := List.flatMap_append
@[simp] theorem offersIn_append (xs ys : List Input) : offersIn (xs ++ ys) = offersIn xs ++ offersIn ys := List.flatMap_append
@[simp] theorem arrivals_cons (x : Input) (xs : List Input) : arrivals (x :: xs) = x.brings ++ arrivals xs := rfl
@[simp] theorem offersIn_cons (x : Input) (xs : List Input) : offersIn (x :: xs) = x.offers ++ offersIn xs := rfl

/-- Read requests send nothing. -/
theorem sentBytes_of_rx {h : List Event} (hrx : ∀ e ∈ h, e.isRx = true) : sentBytes h = [] := by
  induction h with
  | nil => rfl
  | cons e h ih =>
    cases e with
    | tx b a => simpa [Event.isRx] using hrx _ (List.mem_cons_self ..)
    | rx m a => simpa [Event.sent] using ih fun e he => hrx e (List.mem_cons_of_mem _ he)

@[simp] theorem writesOf_nil : writesOf [] = [] := rfl
@[simp] theorem writesOf_tx (b : Bytes) (a : TxAnswer) : writesOf [.tx b a] = [.tx b a] := rfl
@[simp] theorem writesOf_append (g h : List Event) : writesOf (g ++ h) = writesOf g ++ writesOf h := List.filter_append ..

/-- Read requests are no writes. -/
theorem writesOf_of_rx {h : List Event} (hrx : ∀ e ∈ h, e.isRx = true) : writesOf h = [] :=
  List.filter_eq_nil_iff.mpr fun e he => by simp [hrx e he]

/-- What was sent is what the writes sent. -/
theorem sentBytes_writesOf (h : List Event) : sentBytes (writesOf h) = sentBytes h := by
  induction h with
  | nil => rfl
  | cons e h ih => cases e <;> simp [writesOf, Event.isRx, Event.sent] <;> exact ih

/-- Unconsumed deliveries take nothing from the residue. -/
@[simp] theorem arrivals_deliveries (ks : List Nat) : arrivals (deliveries ks) = [] := by
  induction ks with
  | nil => rfl
  | cons k ks ih => simpa [deliveries, Input.brings] using ih

/-! ### The world moves on -/

/-- From `s` to `t` the timeline advanced by `used` and the accesses `evs` took place: offers are held, received bytes are conserved,
the history grows, the configuration stays, and no exchange comes or goes. -/
structure Moves (used : List Input) (evs : List Event) (s t : State) : Prop where
  inputs : s.inputs = used ++ t.inputs
  offered : t.offered = s.offered ++ offersIn used
  fits : ∀ r ∈ offersIn used, r.fits = true
  rx : readBytes evs ++ t.rxResidue = s.rxResidue ++ arrivals used
  history : t.history = s.history ++ evs
  allowed : ∀ e ∈ evs, e.allowed
  rule : t.lengthRule = s.lengthRule
  exchanges : t.exchanges = s.exchanges

/-- Two states with the same world around the block are the same to `Moves`. -/
theorem Moves.of_sameWorld {s t : State} (h : s.SameWorld t) : Moves [] [] s t := by
  obtain ⟨h1, h2, h3, h4, h5, h6, h7⟩ := h
  exact ⟨by simp [h6], by simp [h2], by simp, by simp [h3], by simp [h5], by simp, h1, h7⟩

theorem Moves.trans {u1 u2 : List Input} {e1 e2 : List Event} {s t v : State}
    (h1 : Moves u1 e1 s t) (h2 : Moves u2 e2 t v) : Moves (u1 ++ u2) (e1 ++ e2) s v where
  inputs := by rw [h1.inputs, h2.inputs, List.append_assoc]
  offered := by rw [h2.offered, h1.offered, offersIn_append, List.append_assoc]
  fits := by
    intro r hr
    rw [offersIn_append, List.mem_append] at hr
    exact hr.elim (h1.fits r) (h2.fits r)
  rx := by
    have := h1.rx; have := h2.rx
    simp only [readBytes_append, arrivals_append, List.append_assoc]
    rw [h2.rx, ← List.append_assoc, h1.rx, List.append_assoc]
  history := by rw [h2.history, h1.history, List.append_assoc]
  allowed := by
    intro e he
    rw [List.mem_append] at he
    exact he.elim (h1.allowed e) (h2.allowed e)
  rule := h2.rule.trans h1.rule
  exchanges := h2.exchanges.trans h1.exchanges

/-- A reset after the world moved changes nothing of the world. -/
theorem Moves.resetBlock {u : List Input} {e : List Event} {s t : State} (h : Moves u e s t) : Moves u e s t.resetBlock :=
  ⟨h.inputs, h.offered, h.fits, h.rx, h.history, h.allowed, h.rule, h.exchanges⟩

/-- The start and the end may be replaced by states with the same world. -/
theorem Moves.congr {u : List Input} {e : List Event} {s s' t t' : State} (h : Moves u e s t)
    (hs : s'.SameWorld s) (ht : t.SameWorld t') : Moves u e s' t' := by
  simpa using (Moves.of_sameWorld hs).trans (h.trans (Moves.of_sameWorld ht))

@[simp] theorem State.sameWorld_refl (s : State) : s.SameWorld s := ⟨rfl, rfl, rfl, rfl, rfl, rfl, rfl⟩

theorem Moves.refl (s : State) : Moves [] [] s s := .of_sameWorld (State.sameWorld_refl s)

/-- An input that offers nothing and brings nothing goes by. -/
theorem Moves.pass {x : Input} {xs : List Input} {s : State} (hx : s.inputs = x :: xs) (ho : x.offers = []) (hb : x.brings = []) :
    Moves [x] [] s (s.await xs) :=
  ⟨by simp [hx], by simp [ho], by simp [ho], by simp [hb], by simp, by simp, rfl, rfl⟩

/-- A move of the block uses up at most a `proceed`. -/
theorem Moves.moved (s : State) : ∃ used, Moves used [] s s.moved := by
  rcases afterMove_cases s.inputs with h | h
  · exact ⟨[], ⟨by simp [h], by simp, by simp, by simp, by simp, by simp, rfl, rfl⟩⟩
  · exact ⟨[.proceed], .pass h rfl rfl⟩

/-- What `meanwhile` does: it lets the world move on by one input and touches no register. -/
theorem meanwhile_spec {x : Input} {xs : List Input} {s s' : State} (hx : s.inputs = x :: xs)
    (h : (s.await xs).meanwhile x = .ok s') :
    Moves [x] [] s s' ∧ s'.inputs = xs ∧
      s' = { s with offered := s'.offered, rxResidue := s'.rxResidue, inputs := xs } := by
  cases x with
  | offer r =>
    simp only [State.meanwhile] at h
    split at h
    next hf =>
      cases h
      exact ⟨⟨by simp [hx], by simp [Input.offers], by simpa [Input.offers] using hf, by simp [Input.brings], by simp, by simp, rfl, rfl⟩, rfl, rfl⟩
    · cases h
  | arrive b => cases h; exact ⟨⟨by simp [hx], by simp [Input.offers], by simp [Input.offers], by simp [Input.brings], by simp, by simp, rfl, rfl⟩, rfl, rfl⟩
  | hostWrite x b => cases h
  | hostRead x n => cases h
  | rxDeliver k | rxTimeout | rxErr e | txOk | txErr e k | reset k | proceed =>
    cases h
    exact ⟨⟨by simp [hx], by simp [Input.offers], by simp [Input.offers], by simp [Input.brings], by simp, by simp, rfl, rfl⟩, rfl, rfl⟩

/-- The only refusals while the block waits. -/
theorem meanwhile_error {x : Input} {s : State} {r : Refusal} (h : s.meanwhile x = .error r) :
    r = .operandTooLong ∨ r = .transportInterference := by
  cases x with
  | offer q =>
    simp only [State.meanwhile] at h
    split at h
    · cases h
    · cases h; exact .inl rfl
  | hostWrite x b => cases h; exact .inr rfl
  | hostRead x n => cases h; exact .inr rfl
  | arrive b | rxDeliver k | rxTimeout | rxErr e | txOk | txErr e k | reset k | proceed => cases h

/-! ### TxWrite -/

/-- A waiting write changes only the world: every register is as before. -/
def TxFrame (s t : State) : Prop :=
  t = { s with offered := t.offered, rxResidue := t.rxResidue, txLine := t.txLine, history := t.history, inputs := t.inputs }

/-- All that `awaitTx` can do (R40). -/
def TxSpec (bytes : Bytes) (s : State) : TxResult → Prop
  | .ok t => (∃ used, Moves used [.tx bytes .ok] s t) ∧ TxFrame s t ∧ t.txLine = s.txLine ++ bytes
  | .err e t => (∃ used, Moves used [.tx bytes (.err e)] s t) ∧ TxFrame s t ∧ ∃ k, t.txLine = s.txLine ++ bytes.take k
  | .waiting t => (∃ used, Moves used [] s t) ∧ TxFrame s t ∧ t.txLine = s.txLine ∧ t.inputs = []
  | .cut t => ∃ used u, Moves used [] s u ∧ t = u.resetBlock ∧ ∃ k, .reset k ∈ used
  | .refused r => r = .operandTooLong ∨ r = .transportInterference

theorem awaitTx_spec (bytes : Bytes) (xs : List Input) (s : State) (hx : s.inputs = xs) (hb : bytes ≠ []) :
    TxSpec bytes s (awaitTx bytes xs s) := by
  induction xs generalizing s with
  | nil => exact ⟨⟨[], Moves.refl s⟩, rfl, rfl, hx⟩
  | cons x xs ih =>
    have go : ∀ m : Except Refusal State, (s.await xs).meanwhile x = m →
        TxSpec bytes s (match m with | .ok s' => awaitTx bytes xs s' | .error r => .refused r) := by
      intro m hm
      cases m with
      | error r => exact meanwhile_error hm
      | ok s' =>
        obtain ⟨hmv, hin, hfr⟩ := meanwhile_spec hx hm
        have hl : s'.txLine = s.txLine := by rw [hfr]
        have hf : ∀ t, TxFrame s' t → TxFrame s t := fun t ht => by rw [TxFrame, ht, hfr]
        show TxSpec bytes s (awaitTx bytes xs s')
        have h := ih s' hin
        revert h
        cases awaitTx bytes xs s' with
        | ok t => rintro ⟨⟨u, hu⟩, h2, h3⟩; exact ⟨⟨_, by simpa using hmv.trans hu⟩, hf _ h2, by rw [h3, hl]⟩
        | err e t => rintro ⟨⟨u, hu⟩, h2, k, h3⟩; exact ⟨⟨_, by simpa using hmv.trans hu⟩, hf _ h2, k, by rw [h3, hl]⟩
        | waiting t => rintro ⟨⟨u, hu⟩, h2, h3, h4⟩; exact ⟨⟨_, by simpa using hmv.trans hu⟩, hf _ h2, by rw [h3, hl], h4⟩
        | cut t => rintro ⟨used, u, hu, h2, k, h3⟩; exact ⟨_, u, by simpa using hmv.trans hu, h2, k, by simp [h3]⟩
        | refused r => exact id
    cases x with
    | txOk =>
      exact ⟨⟨[.txOk], ⟨by simp [hx], by simp [Input.offers], by simp [Input.offers], by simp [Event.got, Input.brings],
        by simp, by simpa [Event.allowed] using hb, rfl, rfl⟩⟩, rfl, by simp⟩
    | txErr e k =>
      exact ⟨⟨[.txErr e k], ⟨by simp [hx], by simp [Input.offers], by simp [Input.offers], by simp [Event.got, Input.brings],
        by simp, by simpa [Event.allowed] using hb, rfl, rfl⟩⟩, rfl, k, by simp⟩
    | reset k =>
      exact ⟨[.reset k], (s.await xs).send (bytes.take k), ⟨by simp [hx], by simp [Input.offers], by simp [Input.offers], by simp [Input.brings],
        by simp, by simp, rfl, rfl⟩, rfl, k, by simp⟩
    | offer r | arrive b | hostWrite x b | hostRead x n | rxDeliver k | rxTimeout | rxErr e | proceed => exact go _ rfl

/-! ### ReadExact -/

/-- A waiting read changes only the world and `ACC`: no byte is sent, and no other register changes. -/
def ReadFrame (s t : State) : Prop :=
  t = { s with acc := t.acc, offered := t.offered, rxResidue := t.rxResidue, history := t.history, inputs := t.inputs }

/-- A stretch of `ReadExact`: the world moved on, only by read requests, each for at most what was missing at first; what was read joined `ACC`. -/
structure Reads (evs : List Event) (s t : State) : Prop where
  frame : ReadFrame s t
  acc : t.acc = s.acc ++ readBytes evs
  fill : s.acc.length ≤ s.need.toNat → t.acc.length ≤ t.need.toNat
  rx : ∀ e ∈ evs, ∃ m a, e = .rx m a ∧ 1 ≤ m ∧ m ≤ s.missing
  count : evs.length ≤ s.missing

theorem ReadFrame.trans {s t v : State} (h1 : ReadFrame s t) (h2 : ReadFrame t v) : ReadFrame s v := by
  rw [ReadFrame] at *; rw [h2, h1]

theorem Reads.trans {e1 e2 : List Event} {s t v : State} (h1 : Reads e1 s t) (h2 : Reads e2 t v)
    (hm : e1.length + t.missing ≤ s.missing) : Reads (e1 ++ e2) s v where
  frame := h1.frame.trans h2.frame
  acc := by rw [h2.acc, h1.acc, readBytes_append, List.append_assoc]
  fill := fun h => h2.fill (h1.fill h)
  rx := by
    intro e he
    rcases List.mem_append.mp he with he | he
    · exact h1.rx e he
    · obtain ⟨m, a, h, h', h''⟩ := h2.rx e he
      exact ⟨m, a, h, h', by omega⟩
  count := by
    have := h2.count
    rw [List.length_append]; omega

/-- All that `readLoop` can do (R80, R81): fill up, or come up short by one of four ways, or be cut off, or be refused. A loop that
waits has had at least one byte for each answer, so the requests answered and the one outstanding are no more than the bytes it missed (R83). -/
def ReadSpec (s : State) : ReadResult → Prop
  | .full t => (∃ used evs, Moves used evs s t ∧ Reads evs s t) ∧ t.missing = 0
  | .short t => (∃ used evs, Moves used evs s t ∧ Reads evs s t) ∧ t.missing ≠ 0
  | .err _ t => (∃ used evs, Moves used evs s t ∧ Reads evs s t) ∧ t.missing ≠ 0
  | .waiting t => (∃ used evs, Moves used evs s t ∧ Reads evs s t ∧ evs.length + t.missing ≤ s.missing) ∧ t.missing ≠ 0 ∧ t.inputs = []
  | .cut t => ∃ used evs u, Moves used evs s u ∧ Reads evs s u ∧ t = u.resetBlock ∧ ∃ k, .reset k ∈ used
  | .refused r => r = .operandTooLong ∨ r = .transportInterference

/-- The spec of the rest of the loop gives the spec of the whole. -/
theorem ReadSpec.lift {u1 : List Input} {e1 : List Event} {s s' : State} (hm : Moves u1 e1 s s') (hr : Reads e1 s s')
    (hlt : e1.length + s'.missing ≤ s.missing) {r : ReadResult} (h : ReadSpec s' r) : ReadSpec s r := by
  cases r with
  | full t => obtain ⟨⟨u, e, h1, h2⟩, h3⟩ := h; exact ⟨⟨_, _, hm.trans h1, hr.trans h2 hlt⟩, h3⟩
  | short t => obtain ⟨⟨u, e, h1, h2⟩, h3⟩ := h; exact ⟨⟨_, _, hm.trans h1, hr.trans h2 hlt⟩, h3⟩
  | err x t => obtain ⟨⟨u, e, h1, h2⟩, h3⟩ := h; exact ⟨⟨_, _, hm.trans h1, hr.trans h2 hlt⟩, h3⟩
  | waiting t =>
    obtain ⟨⟨u, e, h1, h2, h3⟩, h4⟩ := h
    exact ⟨⟨_, _, hm.trans h1, hr.trans h2 hlt, by rw [List.length_append]; omega⟩, h4⟩
  | cut t =>
    obtain ⟨u, e, v, h1, h2, h3, k, h4⟩ := h
    exact ⟨_, _, v, hm.trans h1, hr.trans h2 hlt, h3, k, List.mem_append_right _ h4⟩
  | refused r => exact h

theorem Reads.refl (s : State) : Reads [] s s := ⟨rfl, by simp, id, by simp, by simp⟩

/-- An answer that hands over no bytes: one request, for what is missing. -/
theorem moves_record {x : Input} {xs : List Input} {s : State} {a : RxAnswer} (hx : s.inputs = x :: xs) (h0 : s.missing ≠ 0)
    (ho : x.offers = []) (hb : x.brings = []) (ha : (Event.rx s.missing a).got = []) (hal : (Event.rx s.missing a).allowed) :
    Moves [x] [.rx s.missing a] s ((s.await xs).record (.rx s.missing a)) ∧
      Reads [.rx s.missing a] s ((s.await xs).record (.rx s.missing a)) :=
  ⟨⟨by simp [hx], by simp [ho], by simp [ho], by simp [ha, hb], by simp, by simpa using hal, rfl, rfl⟩,
   ⟨rfl, by simp [ha], id, by simp; omega, by simp; omega⟩⟩

theorem readLoop_spec (xs : List Input) (s : State) (hx : s.inputs = xs) : ReadSpec s (readLoop xs s) := by
  induction xs generalizing s with
  | nil =>
    unfold readLoop
    split
    · exact ⟨⟨_, _, Moves.refl s, Reads.refl s⟩, ‹_›⟩
    · exact ⟨⟨_, _, Moves.refl s, Reads.refl s, by simp⟩, ‹_›, hx⟩
  | cons x xs ih =>
    unfold readLoop
    split
    · exact ⟨⟨_, _, Moves.refl s, Reads.refl s⟩, ‹_›⟩
    next h0 =>
    have h1 : 1 ≤ s.missing := by omega
    have go : ∀ m : Except Refusal State, (s.await xs).meanwhile x = m →
        ReadSpec s (match m with | .ok s' => readLoop xs s' | .error r => .refused r) := by
      intro m hm
      cases m with
      | error r => exact meanwhile_error hm
      | ok s' =>
        obtain ⟨hmv, hin, hfr⟩ := meanwhile_spec hx hm
        have ha : s'.acc = s.acc := by rw [hfr]
        have hn : s'.need = s.need := by rw [hfr]
        have hmi : s'.missing = s.missing := by rw [State.missing, State.missing, ha, hn]
        refine ReadSpec.lift hmv ⟨by rw [ReadFrame, hfr], by simp [ha], by rw [ha, hn]; exact id, by simp, by simp⟩ (by simp [hmi]) (ih s' hin)
    have quiet : ∀ a : RxAnswer, (Event.rx s.missing a).got = [] → (Event.rx s.missing a).allowed → x.offers = [] → x.brings = [] →
        (∃ used evs, Moves used evs s ((s.await xs).record (.rx s.missing a)) ∧ Reads evs s ((s.await xs).record (.rx s.missing a))) ∧
          ((s.await xs).record (.rx s.missing a)).missing ≠ 0 :=
      fun a h2 h3 h4 h5 => ⟨⟨_, _, moves_record hx h0 h4 h5 h2 h3⟩, h0⟩
    cases x with
    | rxDeliver k =>
      show ReadSpec s (if s.granted k = 0 then _ else _)
      split
      · exact quiet .timeout rfl h1 rfl rfl
      next hg =>
        have hgm : s.granted k ≤ s.missing := by simp only [State.granted]; omega
        have hgr : s.granted k ≤ s.rxResidue.length := by simp only [State.granted]; omega
        have hlen : (s.rxResidue.take (s.granted k)).length = s.granted k := by simp [hgr]
        have hmi : ((s.await xs).take (s.granted k)).missing = s.missing - s.granted k := by
          simp only [State.missing, State.take_need, State.await_need, State.take_acc, State.await_acc, State.await_rxResidue,
            List.length_append, hlen]; omega
        refine ReadSpec.lift (u1 := [.rxDeliver k]) (e1 := [.rx s.missing (.data (s.rxResidue.take (s.granted k)))]) ?_ ?_ ?_ (ih _ rfl)
        · refine ⟨by simp [hx], by simp [Input.offers], by simp [Input.offers], by simp [Event.got, Input.brings], rfl, ?_, rfl, rfl⟩
          simp only [List.mem_singleton, forall_eq, Event.allowed, hlen]; omega
        · refine ⟨rfl, by simp [Event.got], ?_, by simp; omega, by simpa using h1⟩
          intro hf
          simp only [State.take_need, State.await_need, State.take_acc, State.await_acc, State.await_rxResidue, List.length_append, hlen]
          simp only [State.missing] at hgm; omega
        · rw [hmi]; simp only [List.length_singleton]; omega
    | rxTimeout => exact quiet .timeout rfl h1 rfl rfl
    | rxErr e => exact quiet (.err e) rfl h1 rfl rfl
    | reset k =>
      exact ⟨[.reset k], [], s.await xs, ⟨by simp [hx], by simp [Input.offers], by simp [Input.offers], by simp [Input.brings],
        by simp, by simp, rfl, rfl⟩, ⟨rfl, by simp, id, by simp, by simp⟩, rfl, k, by simp⟩
    | offer r | arrive b | hostWrite x b | hostRead x n | txOk | txErr e k | proceed => exact go _ rfl

end Sys2Proof.Machine
end

