-- ==== Sys2Proof/Laws/Xor.lean ====
section
/-! SUPPORT. The checksum fold as a sum in the group of bytes under XOR. -/

namespace Sys2Proof.Machine

@[simp] theorem xorfold_nil : xorfold [] = 0 := rfl

/-- Folding from `b` is folding from 0, then adding `b`. -/
theorem foldl_xor (s : Bytes) (b : Byte) : s.foldl (· ^^^ ·) b = b ^^^ xorfold s := by
  induction s generalizing b with
  | nil => simp
  | cons c s ih =>
    show s.foldl (· ^^^ ·) (b ^^^ c) = b ^^^ s.foldl (· ^^^ ·) (0 ^^^ c)
    rw [ih, ih, BitVec.xor_assoc]; simp

theorem xorfold_cons (b : Byte) (s : Bytes) : xorfold (b :: s) = b ^^^ xorfold s := by
  show s.foldl (· ^^^ ·) (0 ^^^ b) = _
  rw [foldl_xor]; simp

/-- What `DecodeFrame` does with each field it reads. -/
theorem xorfold_field (s t : Bytes) : xorfold s ^^^ xorfold t = xorfold (s ++ t) := by
  show _ = (s ++ t).foldl (· ^^^ ·) 0
  rw [List.foldl_append, foldl_xor t]; rfl

end Sys2Proof.Machine
end

