-- ==== Sys2Proof/Laws/Stages.lean ====
section
/-! SUPPORT. What a stage of an operation can answer, whatever the outside world does: one rule for each way of waiting on the transport, then one lemma per stage of the frame decoder, each citing the next. -/

namespace Sys2Proof.Machine

/-- A result that is a next state with `Q`, or one of the two refusals the outside world causes; never a fault. -/
def Good (Q : State → Prop) : Result → Prop
  | .next t => Q t
  | .fault _ => False
  | .refused r => r = .operandTooLong ∨ r = .transportInterference

theorem Good.mono {Q R : State → Prop} {r : Result} (h : Good Q r) (hqr : ∀ t, Q t → R t) : Good R r := by
  cases r with
  | next t => exact hqr t h
  | fault f => exact h
  | refused r => exact h

theorem Good.of_next {Q : State → Prop} {r : Result} {t : State} (h : Good Q r) (hr : r = .next t) : Q t := by
  subst hr; exact h

/-- The rule for `afterRead`: go through the ways `ReadExact` ends. -/
theorem afterRead_good {Q : State → Prop} {s : State} {onShort : ErrKind} {k : State → Result}
    (full : ∀ used evs u, Moves used evs s u → Reads evs s u → u.missing = 0 → Good Q (k u))
    (short : ∀ used evs u, Moves used evs s u → Reads evs s u → u.missing ≠ 0 → Q (u.raise onShort))
    (err : ∀ used evs u e, Moves used evs s u → Reads evs s u → u.missing ≠ 0 → Q (u.raise (.ioError e)))
    (waiting : ∀ used evs u, Moves used evs s u → Reads evs s u → u.missing ≠ 0 → u.inputs = [] → Q u)
    (cut : ∀ used evs u, Moves used evs s u → Reads evs s u → (∃ k, .reset k ∈ used) → Q u.resetBlock) :
    Good Q (afterRead s onShort k) := by
  unfold afterRead
  have h := readLoop_spec s.inputs s rfl
  revert h
  cases readLoop s.inputs s with
  | full u => rintro ⟨⟨used, evs, h1, h2⟩, h3⟩; exact full _ _ u h1 h2 h3
  | short u => rintro ⟨⟨used, evs, h1, h2⟩, h3⟩; exact short _ _ u h1 h2 h3
  | err e u => rintro ⟨⟨used, evs, h1, h2⟩, h3⟩; exact err _ _ u e h1 h2 h3
  | waiting u => rintro ⟨⟨used, evs, h1, h2, -⟩, h3, h4⟩; exact waiting _ _ u h1 h2 h3 h4
  | cut t => rintro ⟨used, evs, u, h1, h2, rfl, h4⟩; exact cut _ _ u h1 h2 h4
  | refused r => exact id

/-- The rule for `afterTx`. -/
theorem afterTx_good {Q : State → Prop} {s : State} {bytes : Bytes} {k : State → Result} (hb : bytes ≠ [])
    (ok : ∀ used u, Moves used [.tx bytes .ok] s u → TxFrame s u → u.txLine = s.txLine ++ bytes → Good Q (k u))
    (err : ∀ used u e, Moves used [.tx bytes (.err e)] s u → TxFrame s u → Q (u.raise (.ioError e)))
    (waiting : ∀ used u, Moves used [] s u → TxFrame s u → u.inputs = [] → Q u)
    (cut : ∀ used u, Moves used [] s u → (∃ k, .reset k ∈ used) → Q u.resetBlock) :
    Good Q (afterTx bytes s k) := by
  unfold afterTx
  have h := awaitTx_spec bytes s.inputs s rfl hb
  revert h
  cases awaitTx bytes s.inputs s with
  | ok u => rintro ⟨⟨used, h1⟩, h2, h3⟩; exact ok _ u h1 h2 h3
  | err e u => rintro ⟨⟨used, h1⟩, h2, -⟩; exact err _ u e h1 h2
  | waiting u => rintro ⟨⟨used, h1⟩, h2, -, h4⟩; exact waiting _ u h1 h2 h4
  | cut t => rintro ⟨used, u, h1, rfl, h4⟩; exact cut _ u h1 h4
  | refused r => exact id

/-- A write to an empty `OUT` of at most `MAX_OUT` bytes goes through. -/
theorem writeOut_of_le {v : Bytes} {s : State} {k : State → Result} (h0 : s.out = []) (h : v.length ≤ 65542) :
    writeOut v s k = k { s with out := v } := by
  have : ¬ (65542 < v.length) := by omega
  simp [writeOut, State.memWrite, h0, Config.maxOut, h]

theorem State.resetBlock_asReset (s : State) : s.resetBlock.AsReset := rfl

theorem isRx_of_reads {evs : List Event} {s t : State} (h : Reads evs s t) : ∀ e ∈ evs, e.isRx = true := by
  intro e he
  obtain ⟨m, a, rfl, -⟩ := h.rx e he
  rfl

/-! ### The registers a waiting read leaves alone -/

section
variable {s t : State} (h : ReadFrame s t)
include h

theorem ReadFrame.req : t.req = s.req := by rw [h]
theorem ReadFrame.inBuf : t.inBuf = s.inBuf := by rw [h]
theorem ReadFrame.out : t.out = s.out := by rw [h]
theorem ReadFrame.status : t.status = s.status := by rw [h]
theorem ReadFrame.ioerr : t.ioerr = s.ioerr := by rw [h]
theorem ReadFrame.need : t.need = s.need := by rw [h]
theorem ReadFrame.bcc : t.bcc = s.bcc := by rw [h]
theorem ReadFrame.len : t.len = s.len := by rw [h]
theorem ReadFrame.fbuf : t.fbuf = s.fbuf := by rw [h]
theorem ReadFrame.abuf : t.abuf = s.abuf := by rw [h]
theorem ReadFrame.seq : t.seq = s.seq := by rw [h]
theorem ReadFrame.respPending : t.respPending = s.respPending := by rw [h]
theorem ReadFrame.txLine : t.txLine = s.txLine := by rw [h]
theorem ReadFrame.rule : t.lengthRule = s.lengthRule := by rw [h]
theorem ReadFrame.address : t.address = s.address := by rw [h]; rfl

end

section
variable {s t : State} (h : TxFrame s t)
include h

theorem TxFrame.req : t.req = s.req := by rw [h]
theorem TxFrame.inBuf : t.inBuf = s.inBuf := by rw [h]
theorem TxFrame.out : t.out = s.out := by rw [h]
theorem TxFrame.status : t.status = s.status := by rw [h]
theorem TxFrame.ioerr : t.ioerr = s.ioerr := by rw [h]
theorem TxFrame.acc : t.acc = s.acc := by rw [h]
theorem TxFrame.len : t.len = s.len := by rw [h]
theorem TxFrame.fbuf : t.fbuf = s.fbuf := by rw [h]
theorem TxFrame.abuf : t.abuf = s.abuf := by rw [h]
theorem TxFrame.seq : t.seq = s.seq := by rw [h]
theorem TxFrame.respPending : t.respPending = s.respPending := by rw [h]
theorem TxFrame.rule : t.lengthRule = s.lengthRule := by rw [h]
theorem TxFrame.address : t.address = s.address := by rw [h]; rfl

end

/-! ### The frame decoder -/

/-- The working registers are within the bounds of R22. -/
def State.Small (s : State) : Prop :=
  s.acc.length ≤ 65535 ∧ s.len ≤ 65535 ∧ s.fbuf.length ≤ 65542 ∧ s.abuf.length ≤ 2

/-- The block stands at decoding stage `f` with its read begun. -/
structure FrameReady (u : FrameUser) (f : FrameStage) (s : State) : Prop where
  seq : s.seq = .busy (u.place f)
  resp : s.respPending = false
  out : s.out = []
  inv : frameInv f s.address s
  fill : s.acc.length ≤ s.need.toNat

/-- The size of `OUT` after a decoded frame: all of it for DECODE_RESP (R104), the payload for EXCHANGE (R117). -/
def FrameUser.outLength (u : FrameUser) (len : Nat) : Nat :=
  match u with
  | .decodeResp => 7 + len
  | .exchange => len

/-- What decoding from `s` can come to in `t`: a good end with all bytes accounted for, a bad end with an empty `OUT`, a wait at some decoding stage, or a cut. -/
def FramePost (u : FrameUser) (s t : State) : Prop :=
  ∃ used evs, Moves used evs s t ∧ (∀ e ∈ evs, e.isRx = true) ∧
    ((t.Ended ∧ t.req = s.req ∧ t.inBuf = s.inBuf ∧ t.txLine = s.txLine ∧ (s.len ≤ 65535 → t.Small) ∧
        ((t.status = 0 ∧ s.fbuf.length + s.acc.length + (readBytes evs).length = 7 + t.len ∧ t.len ≤ 65535 ∧
            t.out.length = u.outLength t.len) ∨
          ((t.status = 3 ∨ 7 ≤ t.status.toNat ∧ t.status.toNat ≤ 12) ∧ t.out = []))) ∨
      (t.Waits ∧ t.req = s.req ∧ t.inBuf = s.inBuf ∧ t.txLine = s.txLine ∧ t.status = s.status ∧ t.ioerr = s.ioerr ∧
        (s.len ≤ 65535 → t.Small) ∧ ∃ f, FrameReady u f t) ∨
      (t.AsReset ∧ ∃ k, .reset k ∈ used))

/-- One more stage in front. -/
theorem FramePost.lift {u : FrameUser} {used : List Input} {evs : List Event} {s v t : State} (hm : Moves used evs s v)
    (hrx : ∀ e ∈ evs, e.isRx = true) (hreq : v.req = s.req) (hin : v.inBuf = s.inBuf) (htx : v.txLine = s.txLine)
    (hst : v.status = s.status) (hio : v.ioerr = s.ioerr) (hlen : s.len ≤ 65535 → v.len ≤ 65535)
    (hcount : v.fbuf.length + v.acc.length = s.fbuf.length + s.acc.length + (readBytes evs).length)
    (h : FramePost u v t) : FramePost u s t := by
  obtain ⟨used', evs', hm', hrx', h⟩ := h
  refine ⟨_, _, hm.trans hm', ?_, ?_⟩
  · intro e he
    exact (List.mem_append.mp he).elim (hrx e) (hrx' e)
  · rcases h with ⟨h1, h2, h3, h4, h5, h6⟩ | ⟨h1, h2, h3, h4, h5, h6, h7, h8⟩ | ⟨h1, k, h2⟩
    · refine .inl ⟨h1, h2.trans hreq, h3.trans hin, h4.trans htx, fun h => h5 (hlen h), ?_⟩
      refine h6.imp ?_ id
      rintro ⟨a, b, c, d⟩
      exact ⟨a, by rw [readBytes_append, List.length_append]; omega, c, d⟩
    · exact .inr (.inl ⟨h1, h2.trans hreq, h3.trans hin, h4.trans htx, h5.trans hst, h6.trans hio, fun h => h7 (hlen h), h8⟩)
    · exact .inr (.inr ⟨h1, k, List.mem_append_right _ h2⟩)

/-- The lengths a stage's invariant fixes. -/
theorem frameInv_small {u : FrameUser} {f : FrameStage} {s : State} (h : FrameReady u f s) :
    s.fbuf.length ≤ 65541 ∧ s.acc.length ≤ 65535 ∧ s.abuf.length = 2 := by
  have hn := s.need.isLt
  have hf := h.fill
  obtain ⟨ha, -, hi⟩ := h.inv
  refine ⟨?_, by omega, by rw [ha]; rfl⟩
  cases f with
  | rdStart => simp [hi.1]
  | rdAddr => simp [hi.1]
  | rdLen => simp [hi.1]
  | rdPayload => obtain ⟨x, l, hi, -⟩ := hi; simp [hi]
  | rdEnd =>
    obtain ⟨x, l, p, hi, hl, hp, -⟩ := hi
    have := lendec_le s.lengthRule x l
    simp [hi]; omega
  | rdBcc =>
    obtain ⟨x, l, p, hi, hl, hp, -⟩ := hi
    have := lendec_le s.lengthRule x l
    simp [hi]; omega

theorem place_access (u : FrameUser) (f : FrameStage) : (u.place f).access = .rx := by cases u <;> rfl

/-- A block at a decoding stage whose read misses bytes is awaiting the transport. -/
theorem FrameReady.awaiting {u : FrameUser} {f : FrameStage} {s : State} (h : FrameReady u f s) (hm : s.missing ≠ 0) :
    s.awaiting = true := by
  simp [State.awaiting, h.seq, place_access, hm]

/-- A waiting read stays at its stage. -/
theorem FrameReady.read {u : FrameUser} {f : FrameStage} {s t : State} {evs : List Event} (h : FrameReady u f s) (hr : Reads evs s t) :
    FrameReady u f t := by
  have hf := hr.frame
  refine ⟨hf.seq.trans h.seq, hf.respPending.trans h.resp, hf.out.trans h.out, ?_, hr.fill h.fill⟩
  obtain ⟨h1, h2, h3⟩ := h.inv
  rw [hf.address]
  refine ⟨hf.abuf.trans h1, by rw [hf.bcc, hf.fbuf, h2], ?_⟩
  cases f <;> simpa only [hf.fbuf, hf.need, hf.len, hf.rule] using h3

/-- The four ways a decoding stage ends before its own check; the check itself is left to `full`. -/
theorem afterRead_frame {u : FrameUser} {f : FrameStage} {s : State} {onShort : ErrKind} {k : State → Result} (h : FrameReady u f s)
    (hk : 7 ≤ onShort.code.toNat ∧ onShort.code.toNat ≤ 12)
    (full : ∀ used evs v, Moves used evs s v → Reads evs s v → FrameReady u f v → v.acc.length = v.need.toNat → Good (FramePost u s) (k v)) :
    Good (FramePost u s) (afterRead s onShort k) := by
  have small : ∀ evs v, Reads evs s v → s.len ≤ 65535 → v.Small := by
    intro evs v hr hl
    obtain ⟨a, b, c⟩ := frameInv_small (h.read hr)
    exact ⟨b, by rw [hr.frame.len]; exact hl, by omega, by omega⟩
  have raised : ∀ used evs v kind, Moves used evs s v → Reads evs s v → (kind.code = 3 ∨ 7 ≤ kind.code.toNat ∧ kind.code.toNat ≤ 12) →
      FramePost u s (v.raise kind) := by
    intro used evs v kind hm hr hc
    exact ⟨used, evs, hm.congr (State.sameWorld_refl s) (by simp [State.SameWorld]), isRx_of_reads hr,
      .inl ⟨⟨rfl, rfl⟩, hr.frame.req, hr.frame.inBuf, hr.frame.txLine, fun hl => small evs v hr hl, .inr ⟨hc, rfl⟩⟩⟩
  refine afterRead_good ?_ ?_ ?_ ?_ ?_
  · intro used evs v hm hr h0
    have hv := h.read hr
    refine full used evs v hm hr hv ?_
    have := hv.fill
    simp only [State.missing] at h0
    omega
  · intro used evs v hm hr _
    exact raised used evs v onShort hm hr (.inr hk)
  · intro used evs v e hm hr _
    exact raised used evs v (.ioError e) hm hr (.inl rfl)
  · intro used evs v hm hr h0 hi
    have hv := h.read hr
    exact ⟨used, evs, hm, isRx_of_reads hr, .inr (.inl ⟨⟨hv.awaiting h0, hi, hv.resp⟩, hr.frame.req, hr.frame.inBuf, hr.frame.txLine,
      hr.frame.status, hr.frame.ioerr, small evs v hr, f, hv⟩)⟩
  · intro used evs v hm hr hk
    exact ⟨used, evs, hm.resetBlock, isRx_of_reads hr, .inr (.inr ⟨State.resetBlock_asReset v, hk⟩)⟩

/-- A stage's own check fails. -/
theorem framePost_raise {u : FrameUser} {f : FrameStage} {s v : State} {used : List Input} {evs : List Event} {kind : ErrKind}
    (hm : Moves used evs s v) (hr : Reads evs s v) (hv : FrameReady u f v) (hc : 7 ≤ kind.code.toNat ∧ kind.code.toNat ≤ 12) :
    FramePost u s (v.raise kind) := by
  refine ⟨used, evs, hm.congr (State.sameWorld_refl s) (by simp [State.SameWorld]), isRx_of_reads hr,
    .inl ⟨⟨rfl, rfl⟩, hr.frame.req, hr.frame.inBuf, hr.frame.txLine, fun hl => ?_, .inr ⟨.inr hc, rfl⟩⟩⟩
  obtain ⟨a, b, c⟩ := frameInv_small hv
  refine ⟨b, ?_, ?_, ?_⟩
  · show v.len ≤ _; rw [hr.frame.len]; exact hl
  · show v.fbuf.length ≤ _; omega
  · show v.abuf.length ≤ _; omega

/-- The registers after a whole frame has been read, its payload length in `LEN`. -/
structure FrameRead (s : State) : Prop where
  out : s.out = []
  len : s.len ≤ 65535
  size : s.fbuf.length = 7 + s.len
  field : s.len = lendec s.lengthRule (s.fbuf.getD 3 0) (s.fbuf.getD 4 0)

theorem extractFrom_whole {s : State} (b : Busy) (h : FrameRead s) :
    extractFrom s.fbuf b s = .next (({ (s.goto b) with out := (s.fbuf.drop 5).take s.len }).finish) := by
  have hs := h.size
  have hl : s.decodeLen s.fbuf = s := by
    simp only [State.decodeLen, ← h.field]
  unfold extractFrom
  rw [if_neg (by omega)]
  simp only [hl]
  rw [if_neg (by omega), sliceFrame, writeOut_of_le (s := s.goto b) h.out]
  · rfl
  · simp; have := h.len; omega

theorem frameDone_good (u : FrameUser) {s : State} (h : FrameRead s) (hacc : s.acc.length ≤ 65535) (hab : s.abuf.length ≤ 2) :
    Good (fun t => s.SameWorld t ∧ t.Ended ∧ t.status = 0 ∧ t.req = s.req ∧ t.inBuf = s.inBuf ∧ t.Small ∧ t.len = s.len ∧
      t.out.length = u.outLength t.len) (frameDone u s) := by
  have hl := h.len
  have hs := h.size
  cases u with
  | decodeResp =>
    show Good _ (writeOut s.fbuf s _)
    rw [writeOut_of_le h.out (by omega)]
    exact ⟨State.sameWorld_refl s, ⟨rfl, rfl⟩, rfl, rfl, rfl, ⟨hacc, hl, by show s.fbuf.length ≤ _; omega, hab⟩, rfl, hs⟩
  | exchange =>
    show Good _ (extractFrom s.fbuf _ _)
    have h' : FrameRead (s.goto (.exchange .extract)) := ⟨h.out, h.len, h.size, h.field⟩
    have := extractFrom_whole (.exchange .extract) h'
    rw [show (s.goto (.exchange .extract)).fbuf = s.fbuf from rfl] at this
    rw [this]
    refine ⟨State.sameWorld_refl s, ⟨rfl, rfl⟩, rfl, rfl, rfl, ⟨hacc, hl, by show s.fbuf.length ≤ _; omega, hab⟩, rfl, ?_⟩
    show ((s.fbuf.drop 5).take s.len).length = s.len
    simp; omega

theorem rdBcc_good {u : FrameUser} {s : State} (h : FrameReady u .rdBcc s) : Good (FramePost u s) (rdBcc u s) := by
  unfold rdBcc
  refine afterRead_frame h (by decide) ?_
  intro used evs v hm hr hv hacc
  split
  · obtain ⟨ha, hb, x, l, p, hf, hlen, hp, hn⟩ := hv.inv
    have hacc1 : v.acc.length = 1 := by rw [hacc, hn]; rfl
    have hll := lendec_le v.lengthRule x l
    have hrd : FrameRead ({ v with fbuf := v.fbuf ++ v.acc }) := by
      refine ⟨hv.out, by show v.len ≤ _; omega, by simp [hf, hacc1]; omega, ?_⟩
      show v.len = lendec v.lengthRule ((v.fbuf ++ v.acc).getD 3 0) ((v.fbuf ++ v.acc).getD 4 0)
      rw [hlen, hf]; rfl
    refine (frameDone_good u hrd (by show v.acc.length ≤ _; omega) (by show v.abuf.length ≤ _; rw [ha]; exact Nat.le_refl 2)).mono ?_
    rintro t ⟨h1, h2, h3, h4, h5, h6, h7, h8⟩
    have hvlen : v.len = s.len := hr.frame.len
    have hsize := hrd.size
    refine ⟨used, evs, hm.congr (State.sameWorld_refl s) ⟨h1.1, h1.2.1, h1.2.2.1, h1.2.2.2.1, h1.2.2.2.2.1, h1.2.2.2.2.2⟩, isRx_of_reads hr,
      .inl ⟨h2, h4.trans hr.frame.req, h5.trans hr.frame.inBuf, h1.2.2.2.1.trans hr.frame.txLine, fun _ => h6, .inl ⟨h3, ?_, h6.2.1, h8⟩⟩⟩
    rw [h7]
    have : v.acc.length = s.acc.length + (readBytes evs).length := by rw [hr.acc, List.length_append]
    have : (v.fbuf ++ v.acc).length = 7 + v.len := hsize
    rw [List.length_append, hr.frame.fbuf] at this
    show _ = 7 + v.len
    omega
  · exact framePost_raise hm hr hv (by decide)

/-- The step from a stage whose check passed to the next one, whose read begins. -/
theorem frame_next {u : FrameUser} {s v w : State} {used : List Input} {evs : List Event} {r : Result} (hm : Moves used evs s v)
    (hr : Reads evs s v) (hw : v.SameWorld w) (hreq : w.req = v.req) (hin : w.inBuf = v.inBuf) (hst : w.status = v.status)
    (hio : w.ioerr = v.ioerr) (hlen : v.len ≤ 65535 → w.len ≤ 65535) (hf : w.fbuf = v.fbuf ++ v.acc) (ha : w.acc = [])
    (h : Good (FramePost u w) r) : Good (FramePost u s) r := by
  refine h.mono fun t ht => ?_
  have hfr := hr.frame
  refine FramePost.lift (hm.congr (State.sameWorld_refl s) hw) (isRx_of_reads hr) (hreq.trans hfr.req) (hin.trans hfr.inBuf)
    (hw.2.2.2.1.trans hfr.txLine) (hst.trans hfr.status) (hio.trans hfr.ioerr) (fun h => hlen (by rw [hfr.len]; exact h)) ?_ ht
  rw [hf, ha, hfr.fbuf, hr.acc]; simp; omega

theorem head_of_length_one {s : Bytes} {b : Byte} (h : s.length = 1) (hb : s.head? = some b) : s = [b] := by
  match s, h with
  | [c], _ => simpa using hb

theorem rdEnd_good {u : FrameUser} {s : State} (h : FrameReady u .rdEnd s) : Good (FramePost u s) (rdEnd u s) := by
  unfold rdEnd
  refine afterRead_frame h (by decide) ?_
  intro used evs v hm hr hv hacc
  split
  next hb =>
    obtain ⟨ha, hbc, x, l, p, hf, hlen, hp, hn⟩ := hv.inv
    have hacc1 : v.acc = [endByte] := head_of_length_one (by rw [hacc, hn]; rfl) hb
    refine frame_next (w := v.takeField.enterRead (u.place .rdBcc) 1) hm hr (State.sameWorld_refl v) rfl rfl rfl rfl id rfl rfl
      (rdBcc_good ⟨rfl, hv.resp, hv.out, ⟨ha, ?_, x, l, p, ?_, hlen, hp, rfl⟩, by simp⟩)
    · show v.bcc ^^^ xorfold v.acc = xorfold (v.fbuf ++ v.acc)
      rw [hbc, xorfold_field]
    · show v.fbuf ++ v.acc = frameBody v.address x l p
      rw [hf, hacc1]; rfl
  · exact framePost_raise hm hr hv (by decide)

theorem rdPayload_good {u : FrameUser} {s : State} (h : FrameReady u .rdPayload s) : Good (FramePost u s) (rdPayload u s) := by
  unfold rdPayload
  refine afterRead_frame h (by decide) ?_
  intro used evs v hm hr hv hacc
  obtain ⟨ha, hbc, x, l, hf, hlen, hn⟩ := hv.inv
  refine frame_next (w := v.takeField.enterRead (u.place .rdEnd) 1) hm hr (State.sameWorld_refl v) rfl rfl rfl rfl id rfl rfl
    (rdEnd_good ⟨rfl, hv.resp, hv.out, ⟨ha, ?_, x, l, v.acc, ?_, hlen, by rw [hacc, hn]; rfl, rfl⟩, by simp⟩)
  · show v.bcc ^^^ xorfold v.acc = xorfold (v.fbuf ++ v.acc)
    rw [hbc, xorfold_field]
  · show v.fbuf ++ v.acc = _
    rw [hf]; rfl

theorem two_of_length {s : Bytes} (h : s.length = 2) : s = [s.getD 0 0, s.getD 1 0] := by
  match s, h with
  | [_, _], _ => rfl

theorem rdLen_good {u : FrameUser} {s : State} (h : FrameReady u .rdLen s) : Good (FramePost u s) (rdLen u s) := by
  unfold rdLen
  refine afterRead_frame h (by decide) ?_
  intro used evs v hm hr hv hacc
  obtain ⟨ha, hbc, hf, hn⟩ := hv.inv
  have hacc2 := two_of_length (s := v.acc) (by rw [hacc, hn]; rfl)
  have hll := lendec_le v.lengthRule (v.acc.getD 0 0) (v.acc.getD 1 0)
  refine frame_next (w := v.readLen.takeField.enterRead (u.place .rdPayload) (BitVec.ofNat 16 v.readLen.takeField.len)) hm hr
    (State.sameWorld_refl v) rfl rfl rfl rfl (fun _ => hll) rfl rfl
    (rdPayload_good ⟨rfl, hv.resp, hv.out, ⟨ha, ?_, v.acc.getD 0 0, v.acc.getD 1 0, ?_, rfl, ?_⟩, by simp⟩)
  · show v.bcc ^^^ xorfold v.acc = xorfold (v.fbuf ++ v.acc)
    rw [hbc, xorfold_field]
  · show v.fbuf ++ v.acc = _
    rw [hf, ← hacc2]; rfl
  · show (BitVec.ofNat 16 (lendec v.lengthRule (v.acc.getD 0 0) (v.acc.getD 1 0))).toNat = lendec v.lengthRule (v.acc.getD 0 0) (v.acc.getD 1 0)
    rw [BitVec.toNat_ofNat]; omega

theorem rdAddr_good {u : FrameUser} {s : State} (h : FrameReady u .rdAddr s) : Good (FramePost u s) (rdAddr u s) := by
  unfold rdAddr
  refine afterRead_frame h (by decide) ?_
  intro used evs v hm hr hv hacc
  split
  next hb =>
    obtain ⟨ha, hbc, hf, hn⟩ := hv.inv
    refine frame_next (w := v.takeField.enterRead (u.place .rdLen) 2) hm hr (State.sameWorld_refl v) rfl rfl rfl rfl id rfl rfl
      (rdLen_good ⟨rfl, hv.resp, hv.out, ⟨ha, ?_, ?_, rfl⟩, by simp⟩)
    · show v.bcc ^^^ xorfold v.acc = xorfold (v.fbuf ++ v.acc)
      rw [hbc, xorfold_field]
    · show v.fbuf ++ v.acc = _
      rw [hf, hb, ha]; rfl
  · exact framePost_raise hm hr hv (by decide)

theorem rdStart_good {u : FrameUser} {s : State} (h : FrameReady u .rdStart s) : Good (FramePost u s) (rdStart u s) := by
  unfold rdStart
  refine afterRead_frame h (by decide) ?_
  intro used evs v hm hr hv hacc
  split
  next hb =>
    obtain ⟨ha, hbc, hf, hn⟩ := hv.inv
    have hacc1 : v.acc = [startByte] := head_of_length_one (by rw [hacc, hn]; rfl) hb
    refine frame_next (w := v.takeField.enterRead (u.place .rdAddr) 2) hm hr (State.sameWorld_refl v) rfl rfl rfl rfl id rfl rfl
      (rdAddr_good ⟨rfl, hv.resp, hv.out, ⟨ha, ?_, ?_, rfl⟩, by simp⟩)
    · show v.bcc ^^^ xorfold v.acc = xorfold (v.fbuf ++ v.acc)
      rw [hbc, xorfold_field]
    · show v.fbuf ++ v.acc = _
      rw [hf, hacc1]; rfl
  · exact framePost_raise hm hr hv (by decide)

/-- A decoder taken up at any stage. -/
theorem resumeFrame_good {u : FrameUser} {f : FrameStage} {s : State} (h : FrameReady u f s) : Good (FramePost u s) (resumeFrame u f s) := by
  cases f with
  | rdStart => exact rdStart_good h
  | rdAddr => exact rdAddr_good h
  | rdLen => exact rdLen_good h
  | rdPayload => exact rdPayload_good h
  | rdEnd => exact rdEnd_good h
  | rdBcc => exact rdBcc_good h

/-- The state in which `DecodeFrame` begins (R96). -/
def State.beginFrame (u : FrameUser) (s : State) : State :=
  ({ s with fbuf := [], bcc := 0, abuf := addrDigits s.address }).enterRead (u.place .rdStart) 1

theorem State.beginFrame_ready (u : FrameUser) {s : State} (h1 : s.respPending = false) (h2 : s.out = []) :
    FrameReady u .rdStart (s.beginFrame u) :=
  ⟨rfl, h1, h2, ⟨rfl, rfl, rfl, rfl⟩, by simp [State.beginFrame]⟩

theorem decodeFrame_good (u : FrameUser) {s : State} (h1 : s.respPending = false) (h2 : s.out = []) :
    Good (FramePost u (s.beginFrame u)) (decodeFrame u s) :=
  rdStart_good (State.beginFrame_ready u h1 h2)

end Sys2Proof.Machine
end

