-- ==== Sys2Proof/Laws/Compute.lean ====
section
/-! SUPPORT. What the four operations that never touch the transport answer, as one equation for each way they end (41_codec.md R88 to R95, R106, R107). -/

namespace Sys2Proof.Machine

section
variable (a : BitVec 8) (c : BitVec 16) (s : State)

theorem exec_checksum :
    exec (.checksum a c) s = .next { s.start (.checksum a c) .checksum with out := [xorfold s.inBuf] }.finish := by
  change checksumFold (s.start (.checksum a c) .checksum) = _
  rw [checksumFold, writeOut_of_le rfl (by simp), State.operand_eq]; rfl

/-- The start of ENCODE_CMD's building stage. -/
def State.encodeCmdBegun : State := (s.start (.encodeCmd a c) (.encodeCmd .check)).goto (.encodeCmd .build)

theorem assemble_begun : (s.encodeCmdBegun a c).assemble.fbuf = commandFrame s.lengthRule a.toNat s.inBuf := by
  simp [State.encodeCmdBegun, State.operand_eq, Instr.addr, commandFrame, frameWith]

/-- ENCODE_CMD with a command `BuildFrame` accepts (R91, R93). -/
theorem exec_encodeCmd_of_none (h : checkCommand a.toNat s.inBuf = none) :
    exec (.encodeCmd a c) s = .next { (s.encodeCmdBegun a c).assemble with out := commandFrame s.lengthRule a.toNat s.inBuf }.finish := by
  have hl : s.inBuf.length ≤ 65535 := by rcases checkCommand_cases a.toNat s.inBuf with h' | h' | h' | h' <;> simp_all
  change encodeCmdCheck (s.start (.encodeCmd a c) (.encodeCmd .check)) = _
  simp only [encodeCmdCheck, State.operand_eq, State.address_start, Instr.addr, State.start_inBuf, h]
  change encodeCmdBuild (s.encodeCmdBegun a c) = _
  rw [encodeCmdBuild, writeOut_of_le rfl (by rw [assemble_begun]; simp; omega)]
  simp only [assemble_begun]

/-- ENCODE_CMD with a command `BuildFrame` rejects (R91, R93). -/
theorem exec_encodeCmd_of_some {k : ErrKind} (h : checkCommand a.toNat s.inBuf = some k) :
    exec (.encodeCmd a c) s = .next ((s.start (.encodeCmd a c) (.encodeCmd .check)).raise k) := by
  change encodeCmdCheck (s.start (.encodeCmd a c) (.encodeCmd .check)) = _
  simp only [encodeCmdCheck, State.operand_eq, State.address_start, Instr.addr, State.start_inBuf, h]

/-- The start of ENCODE_ENQ's building stage. -/
def State.encodeEnqBegun : State := (s.start (.encodeEnq a c) (.encodeEnq .check)).goto (.encodeEnq .build)

theorem assembleEnq_begun : (s.encodeEnqBegun a c).assembleEnq.fbuf = enqByte :: addrDigits a.toNat := by
  simp [State.encodeEnqBegun, Instr.addr]

/-- ENCODE_ENQ with a valid address (R95). -/
theorem exec_encodeEnq_of_le (h : a.toNat ≤ 15) :
    exec (.encodeEnq a c) s = .next { (s.encodeEnqBegun a c).assembleEnq with out := enqByte :: addrDigits a.toNat }.finish := by
  change encodeEnqCheck (s.start (.encodeEnq a c) (.encodeEnq .check)) = _
  simp only [encodeEnqCheck, State.address_start, Instr.addr, buildEnq_of_le _ h]
  change encodeEnqBuild (s.encodeEnqBegun a c) = _
  rw [encodeEnqBuild, writeOut_of_le rfl (by simp)]
  simp only [assembleEnq_begun]

/-- ENCODE_ENQ with an address above 15 (R94). -/
theorem exec_encodeEnq_of_gt (h : 15 < a.toNat) :
    exec (.encodeEnq a c) s = .next ((s.start (.encodeEnq a c) (.encodeEnq .check)).raise .invalidAddress) := by
  change encodeEnqCheck (s.start (.encodeEnq a c) (.encodeEnq .check)) = _
  simp only [encodeEnqCheck, State.address_start, Instr.addr, buildEnq_of_gt _ h]

/-- EXTRACT_PAYLOAD of fewer bytes than a header (R106). -/
theorem exec_extractPayload_of_lt (h : s.inBuf.length < 5) :
    exec (.extractPayload a c) s = .next ((s.start (.extractPayload a c) (.extractPayload .check)).raise .frameTooShort) := by
  change extractFrom (s.start (.extractPayload a c) (.extractPayload .check)).operand (.extractPayload .slice) (s.start (.extractPayload a c) (.extractPayload .check)) = _
  rw [State.operand_eq, extractFrom, if_pos (by simpa using h)]

/-- EXTRACT_PAYLOAD of at least a header, with fewer payload bytes than its length field says, or enough (R106). -/
theorem exec_extractPayload_of_header {b0 b1 b2 h l : Byte} {more : Bytes} (hin : s.inBuf = b0 :: b1 :: b2 :: h :: l :: more) :
    exec (.extractPayload a c) s =
      if more.length < lendec s.lengthRule h l then
        .next ({ s.start (.extractPayload a c) (.extractPayload .check) with len := lendec s.lengthRule h l }.raise .frameTooShort)
      else
        .next { (s.start (.extractPayload a c) (.extractPayload .slice)) with
          len := lendec s.lengthRule h l, out := more.take (lendec s.lengthRule h l) }.finish := by
  have hl := lendec_le s.lengthRule h l
  change extractFrom (s.start (.extractPayload a c) (.extractPayload .check)).operand (.extractPayload .slice) (s.start (.extractPayload a c) (.extractPayload .check)) = _
  rw [State.operand_eq, State.start_inBuf, hin, extractFrom, if_neg (by simp)]
  simp only [State.decodeLen, List.getD_cons_succ, List.getD_cons_zero, State.start_lengthRule]
  by_cases hm : more.length < lendec s.lengthRule h l
  · rw [if_pos (by simp; omega), if_pos hm]
  · rw [if_neg (by simp; omega), if_neg hm, sliceFrame, writeOut_of_le rfl (by simp; omega)]
    rfl

end

/-! ### All that each of them can do -/

/-- What an operation that touches no transport leaves as it was, whatever its outcome. -/
def ComputeFrame (i : Instr) (s t : State) : Prop :=
  s.SameWorld t ∧ t.req = encode i ∧ t.inBuf = s.inBuf ∧ t.acc = s.acc ∧ t.need = s.need ∧ t.abuf = s.abuf

theorem exec_encodeCmd_cases (a : BitVec 8) (c : BitVec 16) (s : State) :
    ∃ t, exec (.encodeCmd a c) s = .next t ∧ t.Ended ∧ ComputeFrame (.encodeCmd a c) s t ∧ t.len = s.len ∧ t.out.length ≤ 65542 ∧
      (s.fbuf.length ≤ 65542 → t.fbuf.length ≤ 65542) ∧
      (t.status = 0 ∨ (t.status = 1 ∨ t.status = 2 ∨ t.status = 14) ∧ t.out = []) := by
  obtain ⟨hk, h2, h3, h4⟩ | ⟨hk, h2⟩ | ⟨hk, h2, h3⟩ | ⟨hk, h2, h3, h4⟩ := checkCommand_cases a.toNat s.inBuf
  · refine ⟨_, exec_encodeCmd_of_none a c s hk, ⟨rfl, rfl⟩, ⟨⟨rfl, rfl, rfl, rfl, rfl, rfl, rfl⟩, rfl, rfl, rfl, rfl, rfl⟩, rfl, ?_, ?_, .inl rfl⟩
    · simp [State.finish]; omega
    · intro _
      show (s.encodeCmdBegun a c).assemble.fbuf.length ≤ _
      rw [assemble_begun]; simp; omega
  all_goals
    refine ⟨_, exec_encodeCmd_of_some a c s hk, ⟨rfl, rfl⟩, ⟨⟨rfl, rfl, rfl, rfl, rfl, rfl, rfl⟩, rfl, rfl, rfl, rfl, rfl⟩, rfl, by simp, id, .inr ⟨?_, rfl⟩⟩
  · exact .inl rfl
  · exact .inr (.inl rfl)
  · exact .inr (.inr rfl)

theorem exec_encodeEnq_cases (a : BitVec 8) (c : BitVec 16) (s : State) :
    ∃ t, exec (.encodeEnq a c) s = .next t ∧ t.Ended ∧ ComputeFrame (.encodeEnq a c) s t ∧ t.bcc = s.bcc ∧ t.len = s.len ∧
      t.out.length ≤ 65542 ∧ (s.fbuf.length ≤ 65542 → t.fbuf.length ≤ 65542) ∧
      (t.status = 0 ∧ t.fbuf = t.out ∨ t.status = 1 ∧ t.out = [] ∧ t.fbuf = s.fbuf) := by
  by_cases h : a.toNat ≤ 15
  · have hf := assembleEnq_begun a c s
    exact ⟨_, exec_encodeEnq_of_le a c s h, ⟨rfl, rfl⟩, ⟨⟨rfl, rfl, rfl, rfl, rfl, rfl, rfl⟩, rfl, rfl, rfl, rfl, rfl⟩, rfl, rfl,
      by simp [State.finish], fun _ => by show (s.encodeEnqBegun a c).assembleEnq.fbuf.length ≤ _; simp, .inl ⟨rfl, hf⟩⟩
  · exact ⟨_, exec_encodeEnq_of_gt a c s (by omega), ⟨rfl, rfl⟩, ⟨⟨rfl, rfl, rfl, rfl, rfl, rfl, rfl⟩, rfl, rfl, rfl, rfl, rfl⟩, rfl, rfl,
      by simp, id, .inr ⟨rfl, rfl, rfl⟩⟩

theorem exec_extractPayload_cases (a : BitVec 8) (c : BitVec 16) (s : State) :
    ∃ t, exec (.extractPayload a c) s = .next t ∧ t.Ended ∧ ComputeFrame (.extractPayload a c) s t ∧ t.bcc = s.bcc ∧ t.fbuf = s.fbuf ∧
      (s.len ≤ 65535 → t.len ≤ 65535) ∧ t.out.length ≤ 65542 ∧ (t.status = 0 ∨ t.status = 13 ∧ t.out = []) := by
  match hin : s.inBuf with
  | b0 :: b1 :: b2 :: h :: l :: more =>
    have hx := exec_extractPayload_of_header a c s hin
    have hl := lendec_le s.lengthRule h l
    split at hx
    · exact ⟨_, hx, ⟨rfl, rfl⟩, ⟨⟨rfl, rfl, rfl, rfl, rfl, rfl, rfl⟩, rfl, rfl, rfl, rfl, rfl⟩, rfl, rfl, fun _ => hl, by simp, .inr ⟨rfl, rfl⟩⟩
    · exact ⟨_, hx, ⟨rfl, rfl⟩, ⟨⟨rfl, rfl, rfl, rfl, rfl, rfl, rfl⟩, rfl, rfl, rfl, rfl, rfl⟩, rfl, rfl, fun _ => hl,
        by simp [State.finish]; omega, .inl rfl⟩
  | [] | [_] | [_, _] | [_, _, _] | [_, _, _, _] =>
    exact ⟨_, exec_extractPayload_of_lt a c s (by simp [hin]), ⟨rfl, rfl⟩, ⟨⟨rfl, rfl, rfl, rfl, rfl, rfl, rfl⟩, rfl, rfl, rfl, rfl, rfl⟩, rfl, rfl,
      id, by simp, .inr ⟨rfl, rfl⟩⟩

end Sys2Proof.Machine
end

