-- ==== Sys2Proof/Laws/Deliveries.lean ====
section
/-! SUPPORT. Runs in which the transport delivers received bytes in any split: what `ReadExact` gathers then, and how far the frame decoder comes (41_codec.md R105). -/

namespace Sys2Proof.Machine

/-- `bs` joined `ACC` by the requests `evs`; `more` is what is left of the residue and `xs` of the timeline. -/
def State.gather (bs more : Bytes) (xs : List Input) (evs : List Event) (s : State) : State :=
  { s with acc := s.acc ++ bs, rxResidue := more, inputs := xs, history := s.history ++ evs }

@[simp] theorem deliveries_cons (k : Nat) (ks : List Nat) : deliveries (k :: ks) = .rxDeliver k :: deliveries ks := rfl
@[simp] theorem deliveries_nil : deliveries [] = [] := rfl

/-- One round of the loop with a delivery. -/
theorem readLoop_deliver {k : Nat} {xs : List Input} {s : State} (h0 : s.missing ≠ 0) (hg : s.granted k ≠ 0) :
    readLoop (.rxDeliver k :: xs) s = readLoop xs ((s.await xs).take (s.granted k)) := by
  rw [readLoop, if_neg h0, if_neg hg]

theorem readLoop_full {xs : List Input} {s : State} (h : s.missing = 0) : readLoop xs s = .full s := by
  cases xs <;> simp [readLoop, h]

theorem State.gather_nothing {s : State} {more : Bytes} {xs : List Input} (hr : s.rxResidue = more) (hi : s.inputs = xs) :
    s.gather [] more xs [] = s := by
  subst hr hi; simp [State.gather]

/-- The state after one delivery of `n` bytes, `bs` of them wanted in all. -/
theorem take_facts {s : State} {xs : List Input} {bs more : Bytes} {n : Nat} (hr : s.rxResidue = bs ++ more) (hn : n ≤ bs.length) :
    (s.await xs).take n = { s with
      acc := s.acc ++ bs.take n, rxResidue := bs.drop n ++ more, inputs := xs,
      history := s.history ++ [.rx s.missing (.data (bs.take n))] } := by
  have h1 : List.take n (bs ++ more) = bs.take n := by rw [List.take_append_of_le_length hn]
  have h2 : List.drop n (bs ++ more) = bs.drop n ++ more := by rw [List.drop_append_of_le_length hn]
  simp only [State.take, State.await, hr, h1, h2]; rfl

/-- Of the answers `ks` the answers `js` are left after `n` bytes have been handed over. -/
structure After (ks js : List Nat) (n : Nat) : Prop where
  sub : ∀ k ∈ js, k ∈ ks
  enough : ks.length ≤ js.length + n
  exact : (∀ k ∈ ks, k = 1) → js.length + n = ks.length

theorem After.refl (ks : List Nat) : After ks ks 0 := ⟨fun _ => id, Nat.le_refl _, fun _ => rfl⟩

theorem After.trans {ks js ls : List Nat} {m n : Nat} (h1 : After ks js m) (h2 : After js ls n) : After ks ls (m + n) where
  sub := fun k hk => h1.sub k (h2.sub k hk)
  enough := by have := h1.enough; have := h2.enough; omega
  exact := fun h => by
    have := h1.exact h
    have := h2.exact fun k hk => h k (h1.sub k hk)
    omega

/-- Enough bytes and enough answers: `ReadExact` fills up with exactly the next bytes, in whatever split (R80, R81, R105). -/
theorem readLoop_gathers {ks : List Nat} {rest : List Input} {s : State} {bs more : Bytes} (hi : s.inputs = deliveries ks ++ rest)
    (hr : s.rxResidue = bs ++ more) (hb : bs.length = s.missing) (hk : ∀ k ∈ ks, 1 ≤ k) (hl : bs.length ≤ ks.length) :
    ∃ js evs, readLoop (deliveries ks ++ rest) s = .full (s.gather bs more (deliveries js ++ rest) evs) ∧ readBytes evs = bs ∧
      (∀ e ∈ evs, e.isRx = true) ∧ After ks js bs.length := by
  induction ks generalizing s bs with
  | nil =>
    have : bs = [] := by cases bs <;> simp_all
    subst this
    refine ⟨[], [], ?_, rfl, by simp, .refl _⟩
    rw [readLoop_full (by simpa using hb.symm)]
    rw [State.gather_nothing (more := more) (by simpa using hr) hi]
  | cons k ks ih =>
    by_cases h0 : s.missing = 0
    · have : bs = [] := by rw [h0] at hb; simpa using hb
      subst this
      refine ⟨k :: ks, [], ?_, rfl, by simp, .refl _⟩
      rw [readLoop_full h0]
      rw [State.gather_nothing (more := more) (by simpa using hr) hi]
    · have hk1 : 1 ≤ k := hk k (by simp)
      have hlen : s.rxResidue.length = bs.length + more.length := by simp [hr]
      have hg : s.granted k = min k bs.length := by simp only [State.granted]; omega
      have hg0 : s.granted k ≠ 0 := by omega
      have hgb : s.granted k ≤ bs.length := by omega
      rw [deliveries_cons, List.cons_append, readLoop_deliver h0 hg0, take_facts hr hgb]
      obtain ⟨js, evs, h1, h2, h3, h4⟩ := ih (bs := bs.drop (s.granted k)) (s := { s with
          acc := s.acc ++ bs.take (s.granted k), rxResidue := bs.drop (s.granted k) ++ more, inputs := deliveries ks ++ rest,
          history := s.history ++ [.rx s.missing (.data (bs.take (s.granted k)))] }) rfl rfl
        (by simp only [State.missing, List.length_drop, List.length_append, List.length_take] at *; omega)
        (fun j hj => hk j (by simp [hj])) (by simp only [List.length_drop, List.length_cons] at *; omega)
      refine ⟨js, .rx s.missing (.data (bs.take (s.granted k))) :: evs, ?_, by simp [Event.got, h2], ?_, ⟨fun j hj => List.mem_cons_of_mem _ (h4.sub j hj), ?_, fun h => ?_⟩⟩
      · rw [h1]; simp [State.gather]
      · intro e he
        rcases List.mem_cons.mp he with rfl | he
        · rfl
        · exact h3 e he
      · have := h4.enough
        simp only [List.length_drop, List.length_cons] at *; omega
      · have := h4.exact fun j hj => h j (List.mem_cons_of_mem _ hj)
        have := h k (by simp)
        simp only [List.length_drop, List.length_cons] at *; omega

/-- Too few bytes before the timeout: `ReadExact` comes up short with all of them (R84). -/
theorem readLoop_comes_short {ks : List Nat} {rest : List Input} {s : State} (hi : s.inputs = deliveries ks ++ .rxTimeout :: rest)
    (hb : s.rxResidue.length < s.missing) (hk : ∀ k ∈ ks, 1 ≤ k) (hl : s.rxResidue.length ≤ ks.length) :
    ∃ xs evs, readLoop (deliveries ks ++ .rxTimeout :: rest) s = .short (s.gather s.rxResidue [] xs evs) ∧
      readBytes evs = s.rxResidue ∧ (∀ e ∈ evs, e.isRx = true) := by
  induction ks generalizing s with
  | nil =>
    have : s.rxResidue = [] := by simpa using hl
    refine ⟨rest, [.rx s.missing .timeout], ?_, by simp [Event.got, this], by simp [Event.isRx]⟩
    rw [deliveries_nil, List.nil_append, readLoop, if_neg (by omega)]
    simp [State.gather, State.record, State.await, this]
  | cons k ks ih =>
    have hk1 : 1 ≤ k := hk k (by simp)
    have h0 : s.missing ≠ 0 := by omega
    by_cases hz : s.rxResidue = []
    · refine ⟨deliveries ks ++ .rxTimeout :: rest, [.rx s.missing .timeout], ?_, by simp [Event.got, hz], by simp [Event.isRx]⟩
      rw [deliveries_cons, List.cons_append, readLoop, if_neg h0]
      have : s.granted k = 0 := by simp [State.granted, hz]
      simp [this, State.gather, State.record, State.await, hz]
    · have hpos : s.rxResidue.length ≠ 0 := by simpa using hz
      have hg : s.granted k = min k s.rxResidue.length := by simp only [State.granted]; omega
      have hg0 : s.granted k ≠ 0 := by omega
      rw [deliveries_cons, List.cons_append, readLoop_deliver h0 hg0, take_facts (bs := s.rxResidue) (more := []) (by simp) (by omega)]
      obtain ⟨xs, evs, h1, h2, h3⟩ := ih (s := { s with
          acc := s.acc ++ s.rxResidue.take (s.granted k), rxResidue := s.rxResidue.drop (s.granted k) ++ [],
          inputs := deliveries ks ++ .rxTimeout :: rest,
          history := s.history ++ [.rx s.missing (.data (s.rxResidue.take (s.granted k)))] }) rfl
        (by simp only [State.missing, List.length_drop, List.length_append, List.length_take, List.append_nil] at *; omega)
        (fun j hj => hk j (by simp [hj])) (by simp only [List.length_drop, List.length_cons, List.append_nil] at *; omega)
      refine ⟨xs, .rx s.missing (.data (s.rxResidue.take (s.granted k))) :: evs, ?_, by simp [Event.got, h2], ?_⟩
      · rw [h1]; simp [State.gather]
      · intro e he
        rcases List.mem_cons.mp he with rfl | he
        · rfl
        · exact h3 e he

/-- An error after some bytes, one by one: `ReadExact` ends at once with just those (R85). -/
theorem readLoop_errs {rest : List Input} {e : IoErr} {s : State} {bs more : Bytes}
    (hi : s.inputs = deliveries (List.replicate bs.length 1) ++ .rxErr e :: rest) (hr : s.rxResidue = bs ++ more)
    (hb : bs.length < s.missing) :
    ∃ evs, readLoop (deliveries (List.replicate bs.length 1) ++ .rxErr e :: rest) s = .err e (s.gather bs more rest evs) ∧
      readBytes evs = bs ∧ (∀ e ∈ evs, e.isRx = true) := by
  induction bs generalizing s with
  | nil =>
    refine ⟨[.rx s.missing (.err e)], ?_, rfl, by simp [Event.isRx]⟩
    have : more = s.rxResidue := by simpa using hr.symm
    rw [List.length_nil, List.replicate_zero, deliveries_nil, List.nil_append, readLoop, if_neg (by omega)]
    simp [State.gather, State.record, State.await, this]
  | cons b bs ih =>
    have h0 : s.missing ≠ 0 := by omega
    have hg : s.granted 1 = 1 := by simp only [State.granted, hr, List.length_append, List.length_cons]; omega
    rw [List.length_cons, List.replicate_succ, deliveries_cons, List.cons_append, readLoop_deliver h0 (by omega), hg,
      take_facts (bs := b :: bs) hr (by simp)]
    obtain ⟨evs, h1, h2, h3⟩ := ih (s := { s with
        acc := s.acc ++ (b :: bs).take 1, rxResidue := (b :: bs).drop 1 ++ more,
        inputs := deliveries (List.replicate bs.length 1) ++ .rxErr e :: rest,
        history := s.history ++ [.rx s.missing (.data ((b :: bs).take 1))] }) rfl rfl
      (by simp only [State.missing, List.length_cons, List.length_append, List.length_take] at *; omega)
    refine ⟨.rx s.missing (.data [b]) :: evs, ?_, by simp [Event.got, h2], ?_⟩
    · rw [h1]; simp [State.gather]
    · intro x he
      rcases List.mem_cons.mp he with rfl | he
      · rfl
      · exact h3 x he

/-! ### The same for `afterRead` -/

theorem afterRead_gathers {ks : List Nat} {rest : List Input} {s : State} {bs more : Bytes}
    (hi : s.inputs = deliveries ks ++ rest) (hr : s.rxResidue = bs ++ more) (hb : bs.length = s.missing) (hk : ∀ k ∈ ks, 1 ≤ k)
    (hl : bs.length ≤ ks.length) :
    ∃ js evs, (∀ onShort k, afterRead s onShort k = k (s.gather bs more (deliveries js ++ rest) evs)) ∧ readBytes evs = bs ∧
      (∀ e ∈ evs, e.isRx = true) ∧ After ks js bs.length := by
  obtain ⟨js, evs, h1, h2⟩ := readLoop_gathers hi hr hb hk hl
  exact ⟨js, evs, fun o k => by rw [afterRead, hi, h1], h2⟩

theorem afterRead_comes_short {ks : List Nat} {rest : List Input} {s : State} {onShort : ErrKind} {k : State → Result}
    (hi : s.inputs = deliveries ks ++ .rxTimeout :: rest) (hb : s.rxResidue.length < s.missing) (hk : ∀ k ∈ ks, 1 ≤ k)
    (hl : s.rxResidue.length ≤ ks.length) :
    ∃ xs evs, afterRead s onShort k = .next ((s.gather s.rxResidue [] xs evs).raise onShort) := by
  obtain ⟨xs, evs, h1, -⟩ := readLoop_comes_short hi hb hk hl
  exact ⟨xs, evs, by rw [afterRead, hi, h1]⟩

theorem afterRead_errs {rest : List Input} {e : IoErr} {s : State} {bs more : Bytes} {onShort : ErrKind} {k : State → Result}
    (hi : s.inputs = deliveries (List.replicate bs.length 1) ++ .rxErr e :: rest) (hr : s.rxResidue = bs ++ more)
    (hb : bs.length < s.missing) :
    ∃ evs, afterRead s onShort k = .next ((s.gather bs more rest evs).raise (.ioError e)) := by
  obtain ⟨evs, h1, -⟩ := readLoop_errs hi hr hb
  exact ⟨evs, by rw [afterRead, hi, h1]⟩

/-- A write answered at once, or after answers to reads that are not outstanding. -/
theorem awaitTx_skips {bytes : Bytes} {ks : List Nat} {xs : List Input} {s : State} :
    awaitTx bytes (deliveries ks ++ xs) s = awaitTx bytes xs (if ks = [] then s else s.await xs) := by
  induction ks generalizing s with
  | nil => rfl
  | cons k ks ih =>
    rw [deliveries_cons, List.cons_append, awaitTx]
    simp only [State.meanwhile]
    rw [ih]
    split <;> simp_all [State.await]

/-- A write answered with `TxOk`, at once or after answers to reads. -/
theorem afterTx_ok {bytes : Bytes} {ks : List Nat} {xs : List Input} {s : State} {k : State → Result}
    (hi : s.inputs = deliveries ks ++ .txOk :: xs) :
    afterTx bytes s k = k (((s.await xs).send bytes).record (.tx bytes .ok)) := by
  rw [afterTx, hi, awaitTx_skips, awaitTx]
  by_cases hk : ks = [] <;> simp only [hk, if_true, if_false] <;> rfl

/-- A write answered with `TxErr(e)`, at once or after answers to reads. -/
theorem afterTx_err {bytes : Bytes} {ks : List Nat} {xs : List Input} {e : IoErr} {n : Nat} {s : State} {k : State → Result}
    (hi : s.inputs = deliveries ks ++ .txErr e n :: xs) :
    afterTx bytes s k = .next (State.raise (.ioError e) (((s.await xs).send (bytes.take n)).record (.tx bytes (.err e)))) := by
  rw [afterTx, hi, awaitTx_skips, awaitTx]
  by_cases hk : ks = [] <;> simp only [hk, if_true, if_false] <;> rfl

end Sys2Proof.Machine
end

