-- ==== Sys2Proof/Laws/Step.lean ====
section
/-! SUPPORT. What a step is in each of its cases, how exchanges come in their turn (70_reset_and_hazards.md R153), and what the end of an operation does when a reset is next (60_exceptions.md R128, 70_reset_and_hazards.md R142 to R146). -/

namespace Sys2Proof.Machine

section
variable (s : State)

/-! ### The end of an operation -/

/-- Reset wins at an operation's end (R128, R146). -/
theorem State.concluded_of_reset {k : Nat} {xs : List Input} (h : s.inputs = .reset k :: xs) : s.concluded = (s.await xs).resetBlock := by
  simp [State.concluded, h, resetNext]

/-- Without a reset the response is handed over. -/
theorem State.concluded_of_quiet (h : resetNext s.inputs = false) : s.concluded = s.moved := by
  simp [State.concluded, h]

/-- A reset gives the same state wherever in the computing stages of an operation it lands: those stages change no more than what it sets. -/
theorem State.resetBlock_congr {t : State} (h : s.SameWorld t) (hf : t.freeCount = s.freeCount) : t.resetBlock = s.resetBlock := by
  obtain ⟨h1, h2, h3, h4, h5, h6, h7⟩ := h
  simp only [State.resetBlock, h1, h2, h3, h4, h5, h6, h7, hf]

/-- All that `settle` does: stops stay, an operation that waits or was cut off stays, and one at its end is cut off or hands over its response. -/
theorem settle_cases {r : Result} {u : State} (h : settle r = .next u) :
    ∃ t, r = .next t ∧ ((t.respPending = false ∧ u = t) ∨ (t.respPending = true ∧
      ((∃ k xs, t.inputs = .reset k :: xs ∧ u = (t.await xs).resetBlock) ∨ (resetNext t.inputs = false ∧ u = t.moved)))) := by
  cases r with
  | next t =>
    refine ⟨t, rfl, ?_⟩
    cases hp : t.respPending with
    | false => simp [settle, hp] at h; exact .inl ⟨rfl, h.symm⟩
    | true =>
      simp [settle, hp] at h
      rcases resetNext_cases t.inputs with hq | ⟨k, xs, hq⟩
      · rw [t.concluded_of_quiet hq] at h; exact .inr ⟨rfl, .inr ⟨hq, h.symm⟩⟩
      · rw [t.concluded_of_reset hq] at h; exact .inr ⟨rfl, .inl ⟨k, xs, hq, h.symm⟩⟩
  | fault f => cases h
  | refused x => cases h

end

/-! ### Exchanges in their turn -/

section
variable {x c : Nat} {past : List Nat} {uses : Bool} {s : State} {k : State → Result}

theorem returnsTo_iff : returnsTo x (c :: past) = true ↔ x ≠ c ∧ x ∈ past := by simp [returnsTo]

@[simp] theorem returnsTo_nil : returnsTo x [] = false := rfl

/-- An exchange that goes on, or that is new, interleaves nothing. -/
theorem returnsTo_eq_false (h : x = c ∨ x ∉ past) : returnsTo x (c :: past) = false := by
  rcases h with h | h <;> simp [returnsTo, h]

/-- The exchange that used the connection last is the one noted last. -/
@[simp] theorem head_joined (xs : List Nat) : (joined x xs).head? = some x := by
  cases xs with
  | nil => rfl
  | cons c past => by_cases h : x = c <;> simp [joined, h]

/-- Exchanges that come one after the other are noted once each. -/
theorem nodup_joined {xs : List Nat} (h : xs.Nodup) (hx : returnsTo x xs = false) : (joined x xs).Nodup := by
  cases xs with
  | nil => simp [joined]
  | cons c past =>
    by_cases hc : x = c
    · simpa [joined, hc] using h
    · have : x ∉ past := by simpa [returnsTo, hc] using hx
      simpa [joined, hc, this] using h

theorem inTurn_of_turn (h : uses = true → returnsTo x s.exchanges = false) : inTurn uses x s k = k (s.noted uses x) := by
  cases uses with
  | false => simp [inTurn]
  | true => simp [inTurn, h]

theorem inTurn_of_return (h : uses = true) (hx : returnsTo x s.exchanges = true) : inTurn uses x s k = .refused .exchangesInterleaved := by
  simp [inTurn, h, hx]

/-- All that `inTurn` does: it refuses an interleaved exchange, and otherwise goes on with the use noted. -/
theorem inTurn_cases (uses : Bool) (x : Nat) (s : State) (k : State → Result) :
    (uses = true ∧ returnsTo x s.exchanges = true ∧ inTurn uses x s k = .refused .exchangesInterleaved) ∨
      ((uses = true → returnsTo x s.exchanges = false) ∧ inTurn uses x s k = k (s.noted uses x)) := by
  cases hu : uses <;> cases hx : returnsTo x s.exchanges <;> simp [inTurn, hx]

/-- A use in its turn keeps the exchanges noted once each. -/
theorem nodup_noted (h : s.exchanges.Nodup) (hx : uses = true → returnsTo x s.exchanges = false) : (s.noted uses x).exchanges.Nodup := by
  cases uses with
  | false => exact h
  | true => exact nodup_joined h (hx rfl)

end

/-! ### The cases of a step -/

section
variable {s : State} {r : Offer} {rest : List Offer}

theorem step_idle (h1 : s.seq = .idle) (h2 : s.offered = []) : step s = stepIdle s := by simp [step, h1, h2]

/-- The host's own accesses to the transport come in their exchange's turn (R51, R153). -/
theorem stepIdle_hostWrite {e : Nat} {b : Bytes} {xs : List Input} (h : s.inputs = .hostWrite e b :: xs) :
    stepIdle s = inTurn true e (s.await xs) fun u => .next (u.send b) := by simp [stepIdle, h]

theorem stepIdle_hostRead {e n : Nat} {xs : List Input} (h : s.inputs = .hostRead e n :: xs) :
    stepIdle s = inTurn true e (s.await xs) fun u => .next { u with rxResidue := u.rxResidue.drop n } := by simp [stepIdle, h]

/-- A reset of the idle block, whatever is offered (R142, R144, R145). -/
theorem step_reset {k : Nat} {xs : List Input} (h1 : s.seq = .idle) (h2 : s.inputs = .reset k :: xs) :
    step s = .next (s.await xs).resetBlock := by
  cases h3 : s.offered <;> simp [step, stepOffered, stepIdle, h1, h2, h3]

/-- A legal request is accepted and run, in its exchange's turn (R16, R55, R153). -/
theorem step_legal {i : Instr} (h1 : s.seq = .idle) (h2 : s.offered = r :: rest) (h3 : resetNext s.inputs = false)
    (h4 : decodeWord r.word = .ok i) :
    step s = settle (inTurn (usesTransport i) r.exchange (s.moved.accept r rest) (exec i)) := by
  simp [step, stepOffered, runRequest, h1, h2, h3, h4]

/-- A legal request that interleaves nothing runs (R16, R55). -/
theorem step_accepts {i : Instr} (h1 : s.seq = .idle) (h2 : s.offered = r :: rest) (h3 : resetNext s.inputs = false)
    (h4 : decodeWord r.word = .ok i) (h5 : usesTransport i = true → returnsTo r.exchange s.exchanges = false) :
    step s = settle (exec i ((s.moved.accept r rest).noted (usesTransport i) r.exchange)) := by
  rw [step_legal h1 h2 h3 h4, inTurn_of_turn (s := s.moved.accept r rest) h5]

/-- A legal request that interleaves its exchange with another is refused (R139, R153, U7). -/
theorem step_interleaved {i : Instr} (h1 : s.seq = .idle) (h2 : s.offered = r :: rest) (h3 : resetNext s.inputs = false)
    (h4 : decodeWord r.word = .ok i) (h5 : usesTransport i = true) (h6 : returnsTo r.exchange s.exchanges = true) :
    step s = .refused .exchangesInterleaved := by
  rw [step_legal h1 h2 h3 h4, inTurn_of_return (s := s.moved.accept r rest) h5 h6]; rfl

/-- A reserved request is accepted and ended (R57). -/
theorem step_rejects {e : DecodeError} (h1 : s.seq = .idle) (h2 : s.offered = r :: rest) (h3 : resetNext s.inputs = false)
    (h4 : decodeWord r.word = .error e) : step s = .next ((s.moved.accept r rest).illegal r.word).concluded := by
  simp [step, stepOffered, runRequest, settle, h1, h2, h3, h4]

/-- A busy block goes on when the timeline holds something more (R24). -/
theorem step_busy {b : Busy} (h1 : s.seq = .busy b) (h2 : s.hung = false) : step s = settle (resume b s) := by
  simp [step, stepBusy, h1, h2]

/-- A hung block is stuck (R154). -/
theorem step_hung {b : Busy} (h1 : s.seq = .busy b) (h2 : s.hung = true) : step s = .fault .transportHang := by
  simp [step, stepBusy, settle, h1, h2]

theorem State.not_hung (h : s.inputs ≠ []) : s.hung = false := by
  cases hi : s.inputs with
  | nil => exact absurd hi h
  | cons => simp [State.hung, hi]

end

/-- All that a step can be. -/
theorem step_cases (s : State) :
    (s.seq = .idle ∧ s.offered = [] ∧ step s = stepIdle s) ∨
    (∃ k xs, s.seq = .idle ∧ s.inputs = .reset k :: xs ∧ step s = .next (s.await xs).resetBlock) ∨
    (∃ r rest i, s.seq = .idle ∧ s.offered = r :: rest ∧ resetNext s.inputs = false ∧ decodeWord r.word = .ok i ∧
      (usesTransport i = true → returnsTo r.exchange s.exchanges = false) ∧
      step s = settle (exec i ((s.moved.accept r rest).noted (usesTransport i) r.exchange))) ∨
    (∃ r rest i, s.seq = .idle ∧ s.offered = r :: rest ∧ resetNext s.inputs = false ∧ decodeWord r.word = .ok i ∧
      usesTransport i = true ∧ returnsTo r.exchange s.exchanges = true ∧ step s = .refused .exchangesInterleaved) ∨
    (∃ r rest e, s.seq = .idle ∧ s.offered = r :: rest ∧ resetNext s.inputs = false ∧ decodeWord r.word = .error e ∧
      step s = .next ((s.moved.accept r rest).illegal r.word).concluded) ∨
    (∃ b, s.seq = .busy b ∧ s.hung = false ∧ step s = settle (resume b s)) ∨
    (∃ b, s.seq = .busy b ∧ s.hung = true ∧ step s = .fault .transportHang) := by
  cases hs : s.seq with
  | busy b =>
    cases hh : s.hung with
    | false => exact .inr (.inr (.inr (.inr (.inr (.inl ⟨b, rfl, rfl, step_busy hs hh⟩)))))
    | true => exact .inr (.inr (.inr (.inr (.inr (.inr ⟨b, rfl, rfl, step_hung hs hh⟩)))))
  | idle =>
    cases ho : s.offered with
    | nil => exact .inl ⟨rfl, rfl, step_idle hs ho⟩
    | cons r rest =>
      rcases resetNext_cases s.inputs with hq | ⟨k, xs, hq⟩
      · cases hd : decodeWord r.word with
        | ok i =>
          by_cases ht : usesTransport i = true ∧ returnsTo r.exchange s.exchanges = true
          · exact .inr (.inr (.inr (.inl ⟨r, rest, i, rfl, rfl, hq, hd, ht.1, ht.2, step_interleaved hs ho hq hd ht.1 ht.2⟩)))
          · have ht' : usesTransport i = true → returnsTo r.exchange s.exchanges = false := fun h => by simpa [h] using ht
            exact .inr (.inr (.inl ⟨r, rest, i, rfl, rfl, hq, hd, ht', step_accepts hs ho hq hd ht'⟩))
        | error e => exact .inr (.inr (.inr (.inr (.inl ⟨r, rest, e, rfl, rfl, hq, hd, step_rejects hs ho hq hd⟩))))
      · exact .inr (.inl ⟨k, xs, rfl, hq, step_reset hs hq⟩)

end Sys2Proof.Machine
end

