-- ==== Sys2Proof/Laws/Drift.lean ====
section
/-! SUPPORT. What holds of a step from any state at all, also from those no run reaches: the timeline is used up in order, offered requests are held, the configuration stays, and a meaning never faults. -/

namespace Sys2Proof.Machine

/-- From `s` to `t` the timeline went on and the offers in it were held. -/
def Drift (s t : State) : Prop :=
  ∃ used, s.inputs = used ++ t.inputs ∧ t.offered = s.offered ++ offersIn used ∧ t.lengthRule = s.lengthRule

theorem Drift.of_sameWorld {s t : State} (h : s.SameWorld t) : Drift s t :=
  ⟨[], by simp [h.2.2.2.2.2], by simp [h.2.1], h.1⟩

theorem Drift.of_moves {used : List Input} {evs : List Event} {s t : State} (h : Moves used evs s t) : Drift s t :=
  ⟨used, h.inputs, h.offered, h.rule⟩

theorem Drift.trans {s t v : State} (h1 : Drift s t) (h2 : Drift t v) : Drift s v := by
  obtain ⟨u1, a1, b1, c1⟩ := h1
  obtain ⟨u2, a2, b2, c2⟩ := h2
  exact ⟨u1 ++ u2, by rw [a1, a2, List.append_assoc], by rw [b2, b1, offersIn_append, List.append_assoc], c2.trans c1⟩

/-- A result reached from `s` without a fault. -/
def Drifts (s : State) : Result → Prop
  | .next t => Drift s t
  | .fault _ => False
  | .refused _ => True

theorem Drifts.after {s u : State} {r : Result} (h : Drift s u) (hr : Drifts u r) : Drifts s r := by
  cases r with
  | next t => exact h.trans hr
  | fault f => exact hr
  | refused r => trivial

/-- Registers may change in between. -/
theorem Drifts.from_world {s u : State} {r : Result} (hr : Drifts u r) (h : s.SameWorld u) : Drifts s r :=
  hr.after (.of_sameWorld h)

theorem writeOut_drifts {v : Bytes} {s : State} {k : State → Result} (h : ∀ u, s.SameWorld u → Drifts s (k u)) :
    Drifts s (writeOut v s k) := by
  unfold writeOut State.memWrite
  split
  next u hu =>
    split at hu
    · cases hu; exact h _ (State.sameWorld_refl s)
    · cases hu
  · trivial

theorem afterRead_drifts {s : State} {o : ErrKind} {k : State → Result} (h : ∀ u, Drifts u (k u)) : Drifts s (afterRead s o k) := by
  unfold afterRead
  have hs := readLoop_spec s.inputs s rfl
  revert hs
  cases readLoop s.inputs s with
  | full u => rintro ⟨⟨used, evs, h1, h2⟩, h3⟩; exact (h u).after (.of_moves h1)
  | short u => rintro ⟨⟨used, evs, h1, h2⟩, h3⟩; exact (Drift.of_moves h1 :)
  | err e u => rintro ⟨⟨used, evs, h1, h2⟩, h3⟩; exact (Drift.of_moves h1 :)
  | waiting u => rintro ⟨⟨used, evs, h1, h2, -⟩, h3, h4⟩; exact (Drift.of_moves h1 :)
  | cut t => rintro ⟨used, evs, u, h1, h2, rfl, h4⟩; exact (Drift.of_moves h1 :)
  | refused r => exact fun _ => trivial

theorem awaitTx_drifts (bytes : Bytes) (xs : List Input) (s : State) (hx : s.inputs = xs) :
    match awaitTx bytes xs s with
    | .ok t => Drift s t
    | .err _ t => Drift s t
    | .waiting t => Drift s t
    | .cut t => Drift s t
    | .refused _ => True := by
  induction xs generalizing s with
  | nil => exact .of_sameWorld (State.sameWorld_refl s)
  | cons x xs ih =>
    have one : ∀ {t : State}, x.offers = [] → t.inputs = xs → t.offered = s.offered → t.lengthRule = s.lengthRule → Drift s t :=
      fun h1 h2 h3 h4 => ⟨[x], by simp [hx, h2], by simp [h1, h3], h4⟩
    have go : ∀ m : Except Refusal State, (s.await xs).meanwhile x = m →
        match (match m with | .ok s' => awaitTx bytes xs s' | .error r => .refused r) with
        | .ok t => Drift s t
        | .err _ t => Drift s t
        | .waiting t => Drift s t
        | .cut t => Drift s t
        | .refused _ => True := by
      intro m hm
      cases m with
      | error r => trivial
      | ok s' =>
        obtain ⟨hmv, hin, -⟩ := meanwhile_spec hx hm
        have h := ih s' hin
        have hd := Drift.of_moves hmv
        revert h
        show (match awaitTx bytes xs s' with | .ok t => Drift s' t | .err _ t => Drift s' t | .waiting t => Drift s' t | .cut t => Drift s' t | .refused _ => True) →
          match awaitTx bytes xs s' with | .ok t => Drift s t | .err _ t => Drift s t | .waiting t => Drift s t | .cut t => Drift s t | .refused _ => True
        cases awaitTx bytes xs s' <;> first | exact hd.trans | exact id
    cases x with
    | txOk => exact one rfl rfl rfl rfl
    | txErr e k => exact one rfl rfl rfl rfl
    | reset k => exact one rfl rfl rfl rfl
    | offer r | arrive b | hostWrite x b | hostRead x n | rxDeliver k | rxTimeout | rxErr e | proceed => exact go _ rfl

theorem afterTx_drifts {bytes : Bytes} {s : State} {k : State → Result} (h : ∀ u, Drifts u (k u)) : Drifts s (afterTx bytes s k) := by
  unfold afterTx
  have hs := awaitTx_drifts bytes s.inputs s rfl
  revert hs
  cases awaitTx bytes s.inputs s with
  | ok u => exact (h u).after
  | err e u => exact fun h => h
  | waiting u => exact id
  | cut u => exact id
  | refused r => exact id

/-! ### The stages -/

theorem extractFrom_drifts (frame : Bytes) (b : Busy) (s : State) : Drifts s (extractFrom frame b s) := by
  unfold extractFrom
  split
  · exact .of_sameWorld (State.sameWorld_refl s)
  · dsimp only
    split
    · exact .of_sameWorld (State.sameWorld_refl s)
    · exact writeOut_drifts (s := (s.decodeLen frame).goto b) fun u hu => .of_sameWorld hu

theorem frameDone_drifts (u : FrameUser) (s : State) : Drifts s (frameDone u s) := by
  cases u with
  | decodeResp => exact writeOut_drifts fun u hu => .of_sameWorld hu
  | exchange => exact (extractFrom_drifts _ _ _).from_world (State.sameWorld_refl s)

theorem rdBcc_drifts (u : FrameUser) (s : State) : Drifts s (rdBcc u s) :=
  afterRead_drifts fun t => by
    split
    · exact (frameDone_drifts u _).from_world (State.sameWorld_refl t)
    · exact .of_sameWorld (State.sameWorld_refl t)

theorem rdEnd_drifts (u : FrameUser) (s : State) : Drifts s (rdEnd u s) :=
  afterRead_drifts fun t => by
    split
    · exact (rdBcc_drifts u _).from_world (State.sameWorld_refl t)
    · exact .of_sameWorld (State.sameWorld_refl t)

theorem rdPayload_drifts (u : FrameUser) (s : State) : Drifts s (rdPayload u s) :=
  afterRead_drifts fun t => (rdEnd_drifts u _).from_world (State.sameWorld_refl t)

theorem rdLen_drifts (u : FrameUser) (s : State) : Drifts s (rdLen u s) :=
  afterRead_drifts fun t => (rdPayload_drifts u _).from_world (State.sameWorld_refl t)

theorem rdAddr_drifts (u : FrameUser) (s : State) : Drifts s (rdAddr u s) :=
  afterRead_drifts fun t => by
    split
    · exact (rdLen_drifts u _).from_world (State.sameWorld_refl t)
    · exact .of_sameWorld (State.sameWorld_refl t)

theorem rdStart_drifts (u : FrameUser) (s : State) : Drifts s (rdStart u s) :=
  afterRead_drifts fun t => by
    split
    · exact (rdAddr_drifts u _).from_world (State.sameWorld_refl t)
    · exact .of_sameWorld (State.sameWorld_refl t)

theorem decodeFrame_drifts (u : FrameUser) (s : State) : Drifts s (decodeFrame u s) :=
  (rdStart_drifts u _).from_world (State.sameWorld_refl s)

theorem resumeFrame_drifts (u : FrameUser) (f : FrameStage) (s : State) : Drifts s (resumeFrame u f s) := by
  cases f with
  | rdStart => exact rdStart_drifts u s
  | rdAddr => exact rdAddr_drifts u s
  | rdLen => exact rdLen_drifts u s
  | rdPayload => exact rdPayload_drifts u s
  | rdEnd => exact rdEnd_drifts u s
  | rdBcc => exact rdBcc_drifts u s

theorem exchangeTxEnq_drifts (s : State) : Drifts s (exchangeTxEnq s) := by
  unfold exchangeTxEnq
  split
  · exact .of_sameWorld (State.sameWorld_refl s)
  · exact (afterTx_drifts (s := s.assembleEnq) fun t => decodeFrame_drifts .exchange t).from_world (State.sameWorld_refl s)

theorem exchangeRdAckAddr_drifts (s : State) : Drifts s (exchangeRdAckAddr s) :=
  afterRead_drifts fun t => by
    split
    · exact (exchangeTxEnq_drifts _).from_world (State.sameWorld_refl t)
    · exact .of_sameWorld (State.sameWorld_refl t)

theorem exchangeRdAck_drifts (s : State) : Drifts s (exchangeRdAck s) :=
  afterRead_drifts fun t => by
    split
    · exact (exchangeRdAckAddr_drifts _).from_world (State.sameWorld_refl t)
    · exact .of_sameWorld (State.sameWorld_refl t)

theorem exchangeTxCmd_drifts (s : State) : Drifts s (exchangeTxCmd s) :=
  afterTx_drifts fun t => (exchangeRdAck_drifts _).from_world (State.sameWorld_refl t)

theorem exchangeEnc_drifts (s : State) : Drifts s (exchangeEnc s) := by
  unfold exchangeEnc
  split
  · exact .of_sameWorld (State.sameWorld_refl s)
  · exact (exchangeTxCmd_drifts _).from_world (State.sameWorld_refl s)

theorem readExactLoop_drifts (s : State) : Drifts s (readExactLoop s) := by
  unfold readExactLoop
  have hs := readLoop_spec s.inputs s rfl
  revert hs
  cases readLoop s.inputs s with
  | full u => rintro ⟨⟨used, evs, h1, h2⟩, h3⟩; exact .after (.of_moves h1) (writeOut_drifts fun v hv => .of_sameWorld hv)
  | short u => rintro ⟨⟨used, evs, h1, h2⟩, h3⟩; exact .after (.of_moves h1) (writeOut_drifts fun v hv => .of_sameWorld hv)
  | err e u => rintro ⟨⟨used, evs, h1, h2⟩, h3⟩; exact .after (.of_moves h1) (writeOut_drifts fun v hv => .of_sameWorld hv)
  | waiting u => rintro ⟨⟨used, evs, h1, h2, -⟩, h3, h4⟩; exact (Drift.of_moves h1 :)
  | cut t => rintro ⟨used, evs, u, h1, h2, rfl, h4⟩; exact (Drift.of_moves h1 :)
  | refused r => exact fun _ => trivial

theorem checksumFold_drifts (s : State) : Drifts s (checksumFold s) := writeOut_drifts fun _ hu => .of_sameWorld hu

theorem encodeCmdBuild_drifts (s : State) : Drifts s (encodeCmdBuild s) :=
  .from_world (u := s.assemble) (writeOut_drifts fun _ hu => .of_sameWorld hu) (State.sameWorld_refl s)

theorem encodeCmdCheck_drifts (s : State) : Drifts s (encodeCmdCheck s) := by
  unfold encodeCmdCheck
  split
  · exact .of_sameWorld (State.sameWorld_refl s)
  · exact (encodeCmdBuild_drifts _).from_world (State.sameWorld_refl s)

theorem encodeEnqBuild_drifts (s : State) : Drifts s (encodeEnqBuild s) :=
  .from_world (u := s.assembleEnq) (writeOut_drifts fun _ hu => .of_sameWorld hu) (State.sameWorld_refl s)

theorem encodeEnqCheck_drifts (s : State) : Drifts s (encodeEnqCheck s) := by
  unfold encodeEnqCheck
  split
  · exact .of_sameWorld (State.sameWorld_refl s)
  · exact (encodeEnqBuild_drifts _).from_world (State.sameWorld_refl s)

theorem decodeRespCheck_drifts (s : State) : Drifts s (decodeRespCheck s) := by
  unfold decodeRespCheck
  split
  · exact .of_sameWorld (State.sameWorld_refl s)
  · exact decodeFrame_drifts .decodeResp s

/-! ### Whole meanings -/

/-- The end of an operation uses up the reset or `proceed` that was next, at most. -/
theorem Drifts.settle {s : State} {r : Result} (h : Drifts s r) : Drifts s (settle r) := by
  cases r with
  | fault f => exact h
  | refused x => trivial
  | next t =>
    refine Drifts.after (u := t) h ?_
    cases hr : Machine.settle (.next t) with
    | fault f => cases hr
    | refused x => cases hr
    | next u =>
      obtain ⟨_, e, ⟨-, rfl⟩ | ⟨-, ⟨k, xs, hi, rfl⟩ | ⟨-, rfl⟩⟩⟩ := settle_cases hr <;> cases e
      · exact .of_sameWorld (State.sameWorld_refl _)
      · exact .of_moves (Moves.pass hi rfl rfl).resetBlock
      · exact .of_moves (Moves.moved t).choose_spec

theorem exec_drifts (i : Instr) (s : State) : Drifts s (exec i s) := by
  have h0 : ∀ i b, s.SameWorld (s.start i b) := fun i b => State.sameWorld_refl s
  cases i with
  | readExact a c => exact (readExactLoop_drifts _).from_world (State.sameWorld_refl s)
  | checksum a c => exact (checksumFold_drifts _).from_world (h0 _ _)
  | encodeCmd a c => exact (encodeCmdCheck_drifts _).from_world (h0 _ _)
  | encodeEnq a c => exact (encodeEnqCheck_drifts _).from_world (h0 _ _)
  | decodeResp a c => exact (decodeRespCheck_drifts _).from_world (h0 _ _)
  | extractPayload a c => exact (extractFrom_drifts _ _ _).from_world (h0 _ _)
  | exchange a c => exact (exchangeEnc_drifts _).from_world (h0 _ _)

theorem resume_drifts (b : Busy) (s : State) : Drifts s (resume b s) := by
  cases b with
  | readExact => exact readExactLoop_drifts s
  | checksum => exact checksumFold_drifts s
  | encodeCmd st => cases st; exact encodeCmdCheck_drifts s; exact encodeCmdBuild_drifts s
  | encodeEnq st => cases st; exact encodeEnqCheck_drifts s; exact encodeEnqBuild_drifts s
  | decodeResp st =>
    cases st with
    | check => exact decodeRespCheck_drifts s
    | frame f => exact resumeFrame_drifts _ f s
  | extractPayload st => cases st; exact extractFrom_drifts _ _ s; exact writeOut_drifts fun _ hu => .of_sameWorld hu
  | exchange st =>
    cases st with
    | enc => exact exchangeEnc_drifts s
    | txCmd => exact exchangeTxCmd_drifts s
    | rdAck => exact exchangeRdAck_drifts s
    | rdAckAddr => exact exchangeRdAckAddr_drifts s
    | txEnq => exact exchangeTxEnq_drifts s
    | frame f => exact resumeFrame_drifts _ f s
    | extract => exact extractFrom_drifts _ _ s

end Sys2Proof.Machine
end

