-- ==== Sys2Proof/Laws/Exchange.lean ====
section
/-! SUPPORT. What EXCHANGE can answer from each of its stages, whatever the outside world does (42_session.md R111 to R121). -/

namespace Sys2Proof.Machine

/-- The enquiry frame of the request's address (R72). -/
def State.enquiry (s : State) : Bytes := enqByte :: addrDigits s.address

/-- The block stands at an EXCHANGE stage whose transport request is outstanding. -/
structure ExchangeReady (st : ExchangeStage) (s : State) : Prop where
  seq : s.seq = .busy (.exchange st)
  resp : s.respPending = false
  out : s.out = []
  addr : s.address ≤ 15
  inv : exchangeInv st s
  fill : (Busy.exchange st).access = .rx → s.acc.length ≤ s.need.toNat

/-- The write of `c` with its `TxOk`, if there is one to make. -/
def sentOk (c : Bytes) : List Event := if c = [] then [] else [.tx c .ok]

@[simp] theorem sentOk_nil : sentOk [] = [] := rfl

/-- How far an EXCHANGE that ends with `IoError(io)` has come, with `c` and `e` still to be sent and `n` acknowledgement bytes still to be read:
the write of `c` failed; or reading the acknowledgement did; or the write of `e` did; or reading the response did. -/
def StoppedAt (c e : Bytes) (n : Nat) (io : IoErr) (evs : List Event) : Prop :=
  (c ≠ [] ∧ evs = [.tx c (.err io)]) ∨
    ((readBytes evs).length < n ∧ writesOf evs = sentOk c) ∨
    ((readBytes evs).length = n ∧ writesOf evs = sentOk c ++ [.tx e (.err io)]) ∨
    (n ≤ (readBytes evs).length ∧ writesOf evs = sentOk c ++ [.tx e .ok])

/-- What EXCHANGE can come to, with `c` and `e` still to be sent and `n` acknowledgement bytes still to be read. -/
def ExchangePost (c e : Bytes) (n : Nat) (s t : State) : Prop :=
  ∃ used evs, Moves used evs s t ∧
    ((t.Ended ∧ t.req = s.req ∧ t.inBuf = s.inBuf ∧ (s.Small → t.Small) ∧
        ((t.status = 3 ∧ t.out = [] ∧ StoppedAt c e n t.ioerr evs) ∨
          ((t.status = 4 ∨ t.status = 5 ∨ t.status = 6) ∧ t.out = [] ∧ writesOf evs = sentOk c) ∨
          (writesOf evs = sentOk c ++ [.tx e .ok] ∧
            ((t.status = 0 ∧ (readBytes evs).length = n + 7 + t.len ∧ t.out.length = t.len ∧ t.len ≤ 65535) ∨
              (7 ≤ t.status.toNat ∧ t.status.toNat ≤ 12 ∧ t.out = []))))) ∨
      (t.Waits ∧ t.req = s.req ∧ t.inBuf = s.inBuf ∧ t.status = s.status ∧ t.ioerr = s.ioerr ∧ (s.Small → t.Small) ∧
        ∃ st, ExchangeReady st t) ∨
      (t.AsReset ∧ ∃ k, .reset k ∈ used))

/-- One more stage in front: it wrote `c0`, or nothing at all, and read `m` bytes. -/
theorem StoppedAt.lift {c0 c e : Bytes} {n m : Nat} {io : IoErr} {evs evs' : List Event} (hfirst : c0 = [] ∧ evs = [] ∨ c = [])
    (hw : writesOf evs = sentOk c0) (hread : (readBytes evs).length = m) (h : StoppedAt c e n io evs') :
    StoppedAt (c0 ++ c) e (m + n) io (evs ++ evs') := by
  rcases hfirst with ⟨rfl, rfl⟩ | rfl
  · simp at hread; subst hread; simpa using h
  · rcases h with ⟨h, -⟩ | ⟨h1, h2⟩ | ⟨h1, h2⟩ | ⟨h1, h2⟩
    · exact absurd rfl h
    · exact .inr (.inl ⟨by simp; omega, by simp [hw, h2]⟩)
    · exact .inr (.inr (.inl ⟨by simp; omega, by simp [hw, h2]⟩))
    · exact .inr (.inr (.inr ⟨by simp; omega, by simp [hw, h2]⟩))

/-- One more stage in front: it wrote `c0`, or nothing at all, and read `m` bytes. -/
theorem ExchangePost.lift {c0 c e : Bytes} {n m : Nat} {used : List Input} {evs : List Event} {s v t : State} (hm : Moves used evs s v)
    (hreq : v.req = s.req) (hin : v.inBuf = s.inBuf) (hst : v.status = s.status) (hio : v.ioerr = s.ioerr)
    (hsm : s.Small → v.Small) (hfirst : c0 = [] ∧ evs = [] ∨ c = []) (hw : writesOf evs = sentOk c0) (hread : (readBytes evs).length = m)
    (h : ExchangePost c e n v t) : ExchangePost (c0 ++ c) e (m + n) s t := by
  obtain ⟨used', evs', hm', h⟩ := h
  refine ⟨_, _, hm.trans hm', ?_⟩
  rcases h with ⟨h1, h2, h3, h4, h5⟩ | ⟨h1, h2, h3, h4, h5, h6, h7⟩ | ⟨h1, k, h2⟩
  · refine .inl ⟨h1, h2.trans hreq, h3.trans hin, fun h => h4 (hsm h), ?_⟩
    have hc : sentOk (c0 ++ c) = sentOk c0 ++ sentOk c := by rcases hfirst with ⟨rfl, -⟩ | rfl <;> simp
    rcases h5 with ⟨h5, h6, h7⟩ | ⟨h5, h6, h7⟩ | ⟨h5, h6⟩
    · exact .inl ⟨h5, h6, h7.lift hfirst hw hread⟩
    · exact .inr (.inl ⟨h5, h6, by rw [writesOf_append, hw, h7, hc]⟩)
    · refine .inr (.inr ⟨by rw [writesOf_append, hw, h5, hc, List.append_assoc], ?_⟩)
      refine h6.imp ?_ id
      rintro ⟨a, b, c, d⟩
      exact ⟨a, by rw [readBytes_append, List.length_append]; omega, c, d⟩
  · exact .inr (.inl ⟨h1, h2.trans hreq, h3.trans hin, h4.trans hst, h5.trans hio, fun h => h6 (hsm h), h7⟩)
  · exact .inr (.inr ⟨h1, k, List.mem_append_right _ h2⟩)

/-- The decoder's part of EXCHANGE, after a stretch that sent `e` and read nothing. -/
theorem FramePost.exchange {used0 : List Input} {evs0 : List Event} {e : Bytes} {s v t : State} (hm0 : Moves used0 evs0 s v)
    (hsent : writesOf evs0 = [.tx e .ok]) (hread : readBytes evs0 = []) (hreq : v.req = s.req) (hin : v.inBuf = s.inBuf) (hst : v.status = s.status)
    (hio : v.ioerr = s.ioerr) (hlen : v.len = s.len) (ha : v.address ≤ 15) (hf : v.fbuf = []) (hacc : v.acc = [])
    (h : FramePost .exchange v t) : ExchangePost [] e 0 s t := by
  obtain ⟨used, evs, hm, hrx, h⟩ := h
  refine ⟨_, _, hm0.trans hm, ?_⟩
  have hs := writesOf_of_rx hrx
  rcases h with ⟨h1, h2, h3, -, h5, h6⟩ | ⟨h1, h2, h3, -, h5, h6, h7, f, h8⟩ | ⟨h1, k, h2⟩
  · refine .inl ⟨h1, h2.trans hreq, h3.trans hin, fun h => h5 (by rw [hlen]; exact h.2.1), ?_⟩
    rcases h6 with ⟨a, b, c, d⟩ | ⟨a | ⟨a, a'⟩, b⟩
    · exact .inr (.inr ⟨by simp [hs, hsent], .inl ⟨a, by simpa [hf, hacc, hread] using b, d, c⟩⟩)
    · exact .inl ⟨a, b, .inr (.inr (.inr ⟨Nat.zero_le _, by simp [hs, hsent]⟩))⟩
    · exact .inr (.inr ⟨by simp [hs, hsent], .inr ⟨a, a', b⟩⟩)
  · have hadd : t.address = v.address := by rw [State.address, State.address, h2]
    exact .inr (.inl ⟨h1, h2.trans hreq, h3.trans hin, h5.trans hst, h6.trans hio, fun h => h7 (by rw [hlen]; exact h.2.1), .frame f,
      ⟨h8.seq, h8.resp, h8.out, by omega, h8.inv, fun _ => h8.fill⟩⟩)
  · exact .inr (.inr ⟨h1, k, List.mem_append_right _ h2⟩)

/-- A waiting read stays at its stage. -/
theorem ExchangeReady.read {st : ExchangeStage} {s t : State} {evs : List Event} (h : ExchangeReady st s) (hr : Reads evs s t)
    (hrx : (Busy.exchange st).access = .rx) (hnf : ∀ f, st ≠ .frame f) : ExchangeReady st t := by
  have hf := hr.frame
  refine ⟨hf.seq.trans h.seq, hf.respPending.trans h.resp, hf.out.trans h.out, by rw [hf.address]; exact h.addr, ?_, fun _ => hr.fill (h.fill hrx)⟩
  have hi := h.inv
  cases st with
  | enc => exact hi
  | txCmd => cases hrx
  | rdAck => exact hf.need.trans hi
  | rdAckAddr => exact ⟨hf.need.trans hi.1, by rw [hf.abuf, hf.address]; exact hi.2⟩
  | txEnq => cases hrx
  | frame f => exact absurd rfl (hnf f)
  | extract => exact hi

theorem small_of_reads {evs : List Event} {s t : State} (hr : Reads evs s t) (hfill : s.acc.length ≤ s.need.toNat) (h : s.Small) : t.Small := by
  have := hr.fill hfill
  have := t.need.isLt
  exact ⟨by omega, by rw [hr.frame.len]; exact h.2.1, by rw [hr.frame.fbuf]; exact h.2.2.1, by rw [hr.frame.abuf]; exact h.2.2.2⟩

/-- The ways an acknowledgement stage ends before its own check. -/
theorem afterRead_exchange {c e : Bytes} {n : Nat} {st : ExchangeStage} {s : State} {onShort : ErrKind} {k : State → Result}
    (h : ExchangeReady st s) (hrx : (Busy.exchange st).access = .rx) (hnf : ∀ f, st ≠ .frame f) (hc : c = [])
    (hk : onShort.code = 4 ∨ onShort.code = 5 ∨ onShort.code = 6)
    (hn : s.need.toNat ≤ n + s.acc.length)
    (full : ∀ used evs v, Moves used evs s v → Reads evs s v → ExchangeReady st v → v.acc.length = v.need.toNat →
      Good (ExchangePost c e n s) (k v)) :
    Good (ExchangePost c e n s) (afterRead s onShort k) := by
  refine afterRead_good ?_ ?_ ?_ ?_ ?_
  · intro used evs v hm hr h0
    have hv := h.read hr hrx hnf
    refine full used evs v hm hr hv ?_
    have := hv.fill hrx
    simp only [State.missing] at h0
    omega
  · intro used evs v hm hr _
    exact ⟨used, evs, hm.congr (State.sameWorld_refl s) (by simp [State.SameWorld]),
      .inl ⟨⟨rfl, rfl⟩, hr.frame.req, hr.frame.inBuf, fun h' => (small_of_reads hr (h.fill hrx) h' :),
        .inr (.inl ⟨hk, rfl, by rw [hc]; exact writesOf_of_rx (isRx_of_reads hr)⟩)⟩⟩
  · intro used evs v e hm hr h0
    have hl := congrArg List.length hr.acc
    rw [List.length_append] at hl
    have hnd : v.need.toNat = s.need.toNat := by rw [hr.frame.need]
    simp only [State.missing] at h0
    exact ⟨used, evs, hm.congr (State.sameWorld_refl s) (by simp [State.SameWorld]),
      .inl ⟨⟨rfl, rfl⟩, hr.frame.req, hr.frame.inBuf, fun h' => (small_of_reads hr (h.fill hrx) h' :),
        .inl ⟨rfl, rfl, .inr (.inl ⟨by omega, by rw [hc]; exact writesOf_of_rx (isRx_of_reads hr)⟩)⟩⟩⟩
  · intro used evs v hm hr h0 hi
    have hv := h.read hr hrx hnf
    exact ⟨used, evs, hm, .inr (.inl ⟨⟨by simp [State.awaiting, hv.seq, hrx, h0], hi, hv.resp⟩, hr.frame.req, hr.frame.inBuf,
      hr.frame.status, hr.frame.ioerr, fun h' => small_of_reads hr (h.fill hrx) h', st, hv⟩)⟩
  · intro used evs v hm hr hk
    exact ⟨used, evs, hm.resetBlock, .inr (.inr ⟨State.resetBlock_asReset v, hk⟩)⟩

theorem TxFrame.ready {st : ExchangeStage} {s t : State} (h : ExchangeReady st s) (hf : TxFrame s t) (htx : (Busy.exchange st).access = .tx) :
    ExchangeReady st t := by
  refine ⟨hf.seq.trans h.seq, hf.respPending.trans h.resp, hf.out.trans h.out, by rw [hf.address]; exact h.addr, ?_, fun h => (by rw [htx] at h; cases h)⟩
  have hi := h.inv
  cases st with
  | enc => exact hi
  | txCmd =>
    obtain ⟨h1, h2, h3⟩ := hi
    exact ⟨by rw [hf.fbuf, hf.rule, hf.address, hf.inBuf]; exact h1, by rw [hf.inBuf]; exact h2, by rw [hf.inBuf]; exact h3⟩
  | rdAck => cases htx
  | rdAckAddr => cases htx
  | txEnq => rw [exchangeInv, hf.fbuf, hf.address]; exact hi
  | frame f => cases htx
  | extract => exact hi

/-- The ways a writing stage ends before what follows it. -/
theorem afterTx_exchange {c e bytes : Bytes} {n : Nat} {st : ExchangeStage} {s : State} {k : State → Result} (h : ExchangeReady st s)
    (htx : (Busy.exchange st).access = .tx) (hb : bytes ≠ []) (herr : ∀ io, StoppedAt c e n io [.tx bytes (.err io)])
    (ok : ∀ used v, Moves used [.tx bytes .ok] s v → TxFrame s v → Good (ExchangePost c e n s) (k v)) :
    Good (ExchangePost c e n s) (afterTx bytes s k) := by
  have small : ∀ v, TxFrame s v → s.Small → v.Small := fun v hf h =>
    ⟨by rw [hf.acc]; exact h.1, by rw [hf.len]; exact h.2.1, by rw [hf.fbuf]; exact h.2.2.1, by rw [hf.abuf]; exact h.2.2.2⟩
  refine afterTx_good hb ?_ ?_ ?_ ?_
  · intro used v hm hf _
    exact ok used v hm hf
  · intro used v e hm hf
    exact ⟨used, _, hm.congr (State.sameWorld_refl s) (by simp [State.SameWorld]),
      .inl ⟨⟨rfl, rfl⟩, hf.req, hf.inBuf, fun h' => small v hf h', .inl ⟨rfl, rfl, herr e⟩⟩⟩
  · intro used v hm hf hi
    have hv := hf.ready h htx
    exact ⟨used, _, hm, .inr (.inl ⟨⟨by simp [State.awaiting, hv.seq, htx], hi, hv.resp⟩, hf.req, hf.inBuf, hf.status, hf.ioerr,
      small v hf, st, hv⟩)⟩
  · intro used v hm hk
    exact ⟨used, _, hm.resetBlock, .inr (.inr ⟨State.resetBlock_asReset v, hk⟩)⟩

theorem exchangeTxEnq_good {s : State} (hs : s.seq = .busy (.exchange .txEnq)) (hp : s.respPending = false) (ho : s.out = [])
    (ha : s.address ≤ 15) : Good (ExchangePost [] s.enquiry 0 s) (exchangeTxEnq s) := by
  have h : ExchangeReady .txEnq s.assembleEnq := ⟨hs, hp, ho, ha, rfl, by simp [Busy.access]⟩
  unfold exchangeTxEnq
  rw [buildEnq_of_le _ ha]
  refine Good.mono (Q := ExchangePost [] s.enquiry 0 s.assembleEnq) (afterTx_exchange h rfl (by simp) (fun io => .inr (.inr (.inl ⟨rfl, rfl⟩))) ?_)
    fun t ht => .lift (v := s.assembleEnq) (c0 := []) (m := 0) (.of_sameWorld (State.sameWorld_refl s)) rfl rfl rfl rfl (fun h' => ⟨h'.1, h'.2.1, (by decide : 3 ≤ 65542), h'.2.2.2⟩)
      (.inl ⟨rfl, rfl⟩) rfl rfl ht
  intro used v hm hf
  have hv := hf.ready h rfl
  exact (decodeFrame_good .exchange hv.resp hv.out).mono fun t ht =>
    ht.exchange (s := s.assembleEnq) (v := v.beginFrame .exchange) (hm.congr (State.sameWorld_refl _) (State.sameWorld_refl v)) rfl
      (by simp [Event.got]) hf.req hf.inBuf hf.status hf.ioerr hf.len hv.addr rfl rfl

theorem exchangeRdAckAddr_good {s : State} (h : ExchangeReady .rdAckAddr s) :
    Good (ExchangePost [] s.enquiry (2 - s.acc.length) s) (exchangeRdAckAddr s) := by
  unfold exchangeRdAckAddr
  have hneed : s.need.toNat = 2 := by rw [h.inv.1]; rfl
  refine afterRead_exchange h rfl (by simp) rfl (by decide) (by omega) ?_
  intro used evs v hm hr hv hacc
  split
  next hb =>
    refine (exchangeTxEnq_good (s := v.goto (.exchange .txEnq)) rfl hv.resp hv.out hv.addr).mono fun t ht => ?_
    have hl := congrArg List.length hr.acc
    rw [List.length_append] at hl
    have h2 : v.acc.length = 2 := by rw [hacc, hv.inv.1]; rfl
    have := ExchangePost.lift (s := s) (v := v.goto (.exchange .txEnq)) (hm.congr (State.sameWorld_refl s) (State.sameWorld_refl v)) hr.frame.req hr.frame.inBuf hr.frame.status hr.frame.ioerr
      (fun h' => (small_of_reads hr (h.fill rfl) h' :)) (c0 := []) (.inr rfl) (writesOf_of_rx (isRx_of_reads hr)) rfl ht
    rw [show (v.goto (.exchange .txEnq)).enquiry = s.enquiry by simp only [State.enquiry]; rw [← hr.frame.address]; rfl,
      show (readBytes evs).length + 0 = 2 - s.acc.length by omega] at this
    exact this
  · exact ⟨used, evs, hm.congr (State.sameWorld_refl s) (State.sameWorld_refl v),
      .inl ⟨⟨rfl, rfl⟩, hr.frame.req, hr.frame.inBuf, fun h' => (small_of_reads hr (h.fill rfl) h' :),
        .inr (.inl ⟨.inr (.inr rfl), rfl, writesOf_of_rx (isRx_of_reads hr)⟩)⟩⟩

/-- The state in which the acknowledgement's address is read (R114). -/
def State.beginAckAddr (s : State) : State :=
  ({ s with abuf := addrDigits s.address }).enterRead (.exchange .rdAckAddr) 2

theorem exchangeRdAck_good {s : State} (h : ExchangeReady .rdAck s) :
    Good (ExchangePost [] s.enquiry (3 - s.acc.length) s) (exchangeRdAck s) := by
  unfold exchangeRdAck
  have hneed : s.need.toNat = 1 := by rw [(h.inv : s.need = 1)]; rfl
  refine afterRead_exchange h rfl (by simp) rfl (by decide) (by omega) ?_
  intro used evs v hm hr hv hacc
  split
  next hb =>
    refine (exchangeRdAckAddr_good (s := v.beginAckAddr)
      ⟨rfl, hv.resp, hv.out, hv.addr, ⟨rfl, rfl⟩, fun _ => Nat.zero_le _⟩).mono fun t ht => ?_
    have hl := congrArg List.length hr.acc
    rw [List.length_append] at hl
    have h1 : v.acc.length = 1 := by rw [hacc, (hv.inv : v.need = 1)]; rfl
    have hsm : s.Small → v.beginAckAddr.Small := fun h' =>
      have h'' := small_of_reads hr (h.fill rfl) h'
      ⟨Nat.zero_le _, h''.2.1, h''.2.2.1, Nat.le_refl 2⟩
    have := ExchangePost.lift (s := s) (v := v.beginAckAddr) (hm.congr (State.sameWorld_refl s) (State.sameWorld_refl v)) hr.frame.req hr.frame.inBuf hr.frame.status hr.frame.ioerr
      hsm (c0 := []) (.inr rfl) (writesOf_of_rx (isRx_of_reads hr)) rfl ht
    rw [show v.beginAckAddr.enquiry = s.enquiry by
        simp only [State.enquiry]; rw [← hr.frame.address]; rfl,
      show (readBytes evs).length + (2 - v.beginAckAddr.acc.length) = 3 - s.acc.length by
        show _ + (2 - 0) = _; omega] at this
    exact this
  · exact ⟨used, evs, hm.congr (State.sameWorld_refl s) (State.sameWorld_refl v),
      .inl ⟨⟨rfl, rfl⟩, hr.frame.req, hr.frame.inBuf, fun h' => (small_of_reads hr (h.fill rfl) h' :),
        .inr (.inl ⟨.inl rfl, rfl, writesOf_of_rx (isRx_of_reads hr)⟩)⟩⟩

theorem exchangeTxCmd_good {s : State} (h : ExchangeReady .txCmd s) :
    Good (ExchangePost (commandFrame s.lengthRule s.address s.inBuf) s.enquiry 3 s) (exchangeTxCmd s) := by
  unfold exchangeTxCmd
  obtain ⟨hfb, hlo, hhi⟩ := h.inv
  have hne : s.fbuf ≠ [] := by rw [hfb]; simp [commandFrame, frameWith]
  refine afterTx_exchange h rfl hne (fun io => .inl ⟨by rw [← hfb]; exact hne, by rw [hfb]⟩) ?_
  intro used v hm hf
  have hv := hf.ready h rfl
  refine (exchangeRdAck_good (s := v.enterRead (.exchange .rdAck) 1) ⟨rfl, hv.resp, hv.out, hv.addr, rfl, by simp⟩).mono fun t ht => ?_
  have := ExchangePost.lift (s := s) (v := v.enterRead (.exchange .rdAck) 1) (c0 := s.fbuf) (m := 0) (hm.congr (State.sameWorld_refl s) (State.sameWorld_refl v)) hf.req hf.inBuf hf.status hf.ioerr
    (fun h' => ⟨by simp, by show v.len ≤ _; rw [hf.len]; exact h'.2.1, by show v.fbuf.length ≤ _; rw [hf.fbuf]; exact h'.2.2.1,
      by show v.abuf.length ≤ _; rw [hf.abuf]; exact h'.2.2.2⟩) (.inr rfl) (by simp [sentOk, hne]) (by simp [Event.got]) ht
  rw [hfb, List.append_nil, show (v.enterRead (.exchange .rdAck) 1).enquiry = s.enquiry by simp only [State.enquiry]; rw [← hf.address]; rfl] at this
  exact this

/-- EXCHANGE once its command has passed `BuildFrame` (R112). -/
theorem exchangeEnc_good {s : State} (h1 : s.respPending = false) (h2 : s.out = []) (ha : s.address ≤ 15) (hlo : 1 ≤ s.inBuf.length)
    (hhi : s.inBuf.length ≤ 65535) :
    Good (ExchangePost (commandFrame s.lengthRule s.address s.inBuf) s.enquiry 3 s) (exchangeTxCmd (s.assemble.goto (.exchange .txCmd))) := by
  have hop := s.operand_eq
  have hfb : s.assemble.fbuf = commandFrame s.lengthRule s.address s.inBuf := by rw [State.assemble_fbuf, hop]
  have h := exchangeTxCmd_good (s := s.assemble.goto (.exchange .txCmd)) ⟨rfl, h1, h2, ha, ⟨hfb, hlo, hhi⟩, by simp [Busy.access]⟩
  refine h.mono fun t ht => ?_
  have := ExchangePost.lift (s := s) (v := s.assemble.goto (.exchange .txCmd)) (c0 := []) (m := 0) (Moves.of_sameWorld (by simp [State.SameWorld])) rfl rfl rfl rfl
    (fun h' => ⟨h'.1, h'.2.1, by show s.assemble.fbuf.length ≤ _; rw [hfb]; simp; omega, h'.2.2.2⟩) (.inl ⟨rfl, rfl⟩) rfl rfl ht
  exact this

end Sys2Proof.Machine
end

