-- ==== Sys2Proof/Laws/Frames.lean ====
section
/-! SUPPORT. How far the frame decoder comes when the transport delivers the beginning of a well-formed frame, in any split (41_codec.md R96 to R105). Each lemma passes one stage; the composites go from the start of `DecodeFrame` to a stage. -/

namespace Sys2Proof.Machine

/-- The decoder, begun in `s`, has taken the bytes `seen` of a frame and stands in `t`; `more` is the residue, and the answers `ks`, then `rest`, are to come. -/
structure Seen (s : State) (seen more : Bytes) (ks : List Nat) (rest : List Input) (t : State) : Prop where
  out : t.out = []
  fbuf : t.fbuf = seen
  abuf : t.abuf = addrDigits s.address
  rule : t.lengthRule = s.lengthRule
  req : t.req = s.req
  rx : t.rxResidue = more
  inputs : t.inputs = deliveries ks ++ rest
  line : t.txLine = s.txLine
  history : ∃ evs, t.history = s.history ++ evs ∧ readBytes evs = seen ∧ ∀ e ∈ evs, e.isRx = true

/-- Besides, its next read, of `n` bytes, has begun. -/
structure Reached (s : State) (seen more : Bytes) (ks : List Nat) (rest : List Input) (n : BitVec 16) (t : State) : Prop
    extends Seen s seen more ks rest t where
  acc : t.acc = []
  need : t.need = n
  bcc : t.bcc = xorfold seen

section
variable {u : FrameUser} {s t : State} {seen more bs p : Bytes} {h l : Byte} {ks : List Nat} {rest : List Input} {n : BitVec 16}

theorem Reached.missing (hr : Reached s seen more ks rest n t) : t.missing = n.toNat := by
  simp [State.missing, hr.acc, hr.need]

theorem Reached.setLen (hr : Reached s seen more ks rest n t) (x : Nat) : Reached s seen more ks rest n { t with len := x } :=
  ⟨⟨hr.out, hr.fbuf, hr.abuf, hr.rule, hr.req, hr.rx, hr.inputs, hr.line, hr.history⟩, hr.acc, hr.need, hr.bcc⟩

/-- The read that has begun fills up, and what follows it sees just the bytes asked for. -/
theorem Reached.fill (hr : Reached s seen (bs ++ more) ks rest n t) (hb : bs.length = n.toNat) (hk : ∀ k ∈ ks, 1 ≤ k) (hl : bs.length ≤ ks.length) :
    ∃ js v, (∀ o k, afterRead t o k = k v) ∧ After ks js bs.length ∧ v.acc = bs ∧ v.bcc = xorfold seen ∧ v.len = t.len ∧
      Seen s seen more js rest { v with history := t.history } ∧
      (∀ b n, Reached s (seen ++ bs) more js rest n (v.takeField.enterRead b n)) ∧
      Seen s (seen ++ bs) more js rest { v with fbuf := v.fbuf ++ v.acc } := by
  obtain ⟨evs0, e1, e2, e3⟩ := hr.history
  have hm := hr.missing
  obtain ⟨js, evs, h1, h2, h3, h4⟩ := afterRead_gathers hr.inputs hr.rx (by omega) hk hl
  have hacc : (t.gather bs more (deliveries js ++ rest) evs).acc = bs := by simp [State.gather, hr.acc]
  have hist : ∃ evs', (t.gather bs more (deliveries js ++ rest) evs).history = s.history ++ evs' ∧ readBytes evs' = seen ++ bs ∧
      ∀ e ∈ evs', e.isRx = true := by
    refine ⟨evs0 ++ evs, by simp [State.gather, e1], by simp [e2, h2], ?_⟩
    intro e he
    exact (List.mem_append.mp he).elim (e3 e) (h3 e)
  refine ⟨js, t.gather bs more (deliveries js ++ rest) evs, h1, h4, hacc, hr.bcc, rfl,
    ⟨hr.out, hr.fbuf, hr.abuf, hr.rule, hr.req, rfl, rfl, hr.line, hr.history⟩, fun b n => ⟨⟨hr.out, ?_, hr.abuf, hr.rule, hr.req, rfl, rfl, hr.line, hist⟩, rfl, rfl, ?_⟩,
    ⟨hr.out, ?_, hr.abuf, hr.rule, hr.req, rfl, rfl, hr.line, hist⟩⟩
  · show t.fbuf ++ (t.gather bs more (deliveries js ++ rest) evs).acc = _
    rw [hacc, hr.fbuf]
  · show t.bcc ^^^ xorfold (t.gather bs more (deliveries js ++ rest) evs).acc = _
    rw [hacc, hr.bcc, xorfold_field]
  · show t.fbuf ++ (t.gather bs more (deliveries js ++ rest) evs).acc = _
    rw [hacc, hr.fbuf]

/-! ### One stage each -/

theorem rdStart_pass (hr : Reached s [] (startByte :: more) ks rest 1 t) (hk : ∀ k ∈ ks, 1 ≤ k) (hl : 1 ≤ ks.length) :
    ∃ t' js, rdStart u t = rdAddr u t' ∧ After ks js 1 ∧ Reached s [startByte] more js rest 2 t' := by
  obtain ⟨js, v, h1, h2, h3, -, -, -, h4, -⟩ := Reached.fill (bs := [startByte]) hr rfl hk hl
  exact ⟨_, js, by rw [rdStart, h1, if_pos (by rw [h3]; rfl)], h2, h4 _ _⟩

theorem rdAddr_pass (hr : Reached s seen (addrDigits s.address ++ more) ks rest 2 t) (hk : ∀ k ∈ ks, 1 ≤ k) (hl : 2 ≤ ks.length) :
    ∃ t' js, rdAddr u t = rdLen u t' ∧ After ks js 2 ∧ Reached s (seen ++ addrDigits s.address) more js rest 2 t' := by
  obtain ⟨js, v, h1, h2, h3, -, -, h5, h4, -⟩ := Reached.fill (bs := addrDigits s.address) hr rfl hk hl
  exact ⟨_, js, by rw [rdAddr, h1, if_pos (h3.trans h5.abuf.symm)], h2, h4 _ _⟩

theorem rdLen_pass (hr : Reached s seen (h :: l :: more) ks rest 2 t) (hk : ∀ k ∈ ks, 1 ≤ k) (hl : 2 ≤ ks.length) :
    ∃ t' js, rdLen u t = rdPayload u t' ∧ After ks js 2 ∧ t'.len = lendec s.lengthRule h l ∧
      Reached s (seen ++ [h, l]) more js rest (BitVec.ofNat 16 (lendec s.lengthRule h l)) t' := by
  obtain ⟨js, v, h1, h2, h3, -, -, h5, h4, -⟩ := Reached.fill (bs := [h, l]) hr rfl hk hl
  have hlen : v.readLen.len = lendec s.lengthRule h l := by
    simp only [State.readLen, h3]
    rw [show v.lengthRule = s.lengthRule from h5.rule]; rfl
  refine ⟨v.readLen.takeField.enterRead (u.place .rdPayload) (BitVec.ofNat 16 v.readLen.takeField.len), js, by rw [rdLen, h1], h2, hlen, ?_⟩
  have := (h4 (u.place .rdPayload) (BitVec.ofNat 16 v.readLen.len)).setLen v.readLen.len
  rw [hlen] at this
  show Reached s _ more js rest _ (v.readLen.takeField.enterRead (u.place .rdPayload) (BitVec.ofNat 16 v.readLen.len))
  rw [hlen]
  have e : v.readLen.takeField.enterRead (u.place .rdPayload) (BitVec.ofNat 16 (lendec s.lengthRule h l)) =
      { (v.takeField.enterRead (u.place .rdPayload) (BitVec.ofNat 16 (lendec s.lengthRule h l))) with len := lendec s.lengthRule h l } := by
    rw [← hlen]; rfl
  rw [e]; exact this

theorem rdPayload_pass (hr : Reached s seen (p ++ more) ks rest n t) (hn : p.length = n.toNat) (hk : ∀ k ∈ ks, 1 ≤ k) (hl : p.length ≤ ks.length) :
    ∃ t' js, rdPayload u t = rdEnd u t' ∧ After ks js p.length ∧ t'.len = t.len ∧ Reached s (seen ++ p) more js rest 1 t' := by
  obtain ⟨js, v, h1, h2, h3, -, h6, -, h4, -⟩ := Reached.fill hr hn hk hl
  exact ⟨v.takeField.enterRead (u.place .rdEnd) 1, js, by rw [rdPayload, h1], h2, h6, h4 _ _⟩

theorem rdEnd_pass (hr : Reached s seen (endByte :: more) ks rest 1 t) (hk : ∀ k ∈ ks, 1 ≤ k) (hl : 1 ≤ ks.length) :
    ∃ t' js, rdEnd u t = rdBcc u t' ∧ After ks js 1 ∧ t'.len = t.len ∧ Reached s (seen ++ [endByte]) more js rest 1 t' := by
  obtain ⟨js, v, h1, h2, h3, -, h6, -, h4, -⟩ := Reached.fill (bs := [endByte]) hr rfl hk hl
  exact ⟨v.takeField.enterRead (u.place .rdBcc) 1, js, by rw [rdEnd, h1, if_pos (by rw [h3]; rfl)], h2, h6, h4 _ _⟩

theorem rdBcc_pass (hr : Reached s seen (xorfold seen :: more) ks rest 1 t) (hk : ∀ k ∈ ks, 1 ≤ k) (hl : 1 ≤ ks.length) :
    ∃ t' js, rdBcc u t = frameDone u t' ∧ After ks js 1 ∧ t'.len = t.len ∧ t'.bcc = xorfold seen ∧
      Seen s (seen ++ [xorfold seen]) more js rest t' := by
  obtain ⟨js, v, h1, h2, h3, h5, h6, -, -, h4⟩ := Reached.fill (bs := [xorfold seen]) hr rfl hk hl
  exact ⟨{ v with fbuf := v.fbuf ++ v.acc }, js, by rw [rdBcc, h1, if_pos (by rw [h3, h5]; rfl)], h2, h6, h5, h4⟩

/-! ### From the start of `DecodeFrame` to a stage -/

theorem decode_start (u : FrameUser) (hout : s.out = []) (hrx : s.rxResidue = more) (hi : s.inputs = deliveries ks ++ rest) :
    ∃ t, decodeFrame u s = rdStart u t ∧ Reached s [] more ks rest 1 t :=
  ⟨s.beginFrame u, rfl, ⟨hout, rfl, rfl, rfl, rfl, hrx, hi, rfl, [], by simp [State.beginFrame], rfl, by simp⟩, rfl, rfl, rfl⟩

theorem decode_addr (u : FrameUser) (hout : s.out = []) (hrx : s.rxResidue = startByte :: more) (hi : s.inputs = deliveries ks ++ rest)
    (hk : ∀ k ∈ ks, 1 ≤ k) (hl : 1 ≤ ks.length) :
    ∃ t js, decodeFrame u s = rdAddr u t ∧ After ks js 1 ∧ Reached s [startByte] more js rest 2 t := by
  obtain ⟨t, h1, h2⟩ := decode_start u hout hrx hi
  obtain ⟨t', js, h3, h4⟩ := rdStart_pass (u := u) h2 hk hl
  exact ⟨t', js, h1.trans h3, h4⟩

theorem decode_len (u : FrameUser) (hout : s.out = []) (hrx : s.rxResidue = startByte :: addrDigits s.address ++ more)
    (hi : s.inputs = deliveries ks ++ rest) (hk : ∀ k ∈ ks, 1 ≤ k) (hl : 3 ≤ ks.length) :
    ∃ t js, decodeFrame u s = rdLen u t ∧ After ks js 3 ∧ Reached s (startByte :: addrDigits s.address) more js rest 2 t := by
  obtain ⟨t, js, h1, h2, h3⟩ := decode_addr u hout (by rw [hrx]; rfl) hi hk (by omega)
  have := h2.enough
  obtain ⟨t', ls, h4, h5, h6⟩ := rdAddr_pass (u := u) h3 (fun k hk' => hk k (h2.sub k hk')) (by omega)
  exact ⟨t', ls, h1.trans h4, h2.trans h5, h6⟩

theorem decode_payload (u : FrameUser) (hout : s.out = []) (hrx : s.rxResidue = startByte :: addrDigits s.address ++ [h, l] ++ more)
    (hi : s.inputs = deliveries ks ++ rest) (hk : ∀ k ∈ ks, 1 ≤ k) (hl : 5 ≤ ks.length) :
    ∃ t js, decodeFrame u s = rdPayload u t ∧ After ks js 5 ∧ t.len = lendec s.lengthRule h l ∧
      Reached s (startByte :: addrDigits s.address ++ [h, l]) more js rest (BitVec.ofNat 16 (lendec s.lengthRule h l)) t := by
  obtain ⟨t, js, h1, h2, h3⟩ := decode_len (more := h :: l :: more) u hout (by rw [hrx]; simp) hi hk (by omega)
  have := h2.enough
  obtain ⟨t', ls, h4, h5, h6, h7⟩ := rdLen_pass (u := u) h3 (fun k hk' => hk k (h2.sub k hk')) (by omega)
  exact ⟨t', ls, h1.trans h4, h2.trans h5, h6, h7⟩

theorem ofNat_lendec (rule : LengthRule) (h l : Byte) : (BitVec.ofNat 16 (lendec rule h l)).toNat = lendec rule h l := by
  have := lendec_le rule h l
  rw [BitVec.toNat_ofNat]; omega

theorem decode_end (u : FrameUser) (hout : s.out = []) (hrx : s.rxResidue = startByte :: addrDigits s.address ++ [h, l] ++ p ++ more)
    (hp : p.length = lendec s.lengthRule h l) (hi : s.inputs = deliveries ks ++ rest) (hk : ∀ k ∈ ks, 1 ≤ k) (hl : 5 + p.length ≤ ks.length) :
    ∃ t js, decodeFrame u s = rdEnd u t ∧ After ks js (5 + p.length) ∧ t.len = p.length ∧
      Reached s (startByte :: addrDigits s.address ++ [h, l] ++ p) more js rest 1 t := by
  obtain ⟨t, js, h1, h2, h3, h4⟩ := decode_payload (more := p ++ more) u hout (by rw [hrx, List.append_assoc]) hi hk (by omega)
  have := h2.enough
  obtain ⟨t', ls, h5, h6, h7, h8⟩ := rdPayload_pass (u := u) h4 (by rw [ofNat_lendec, hp]) (fun k hk' => hk k (h2.sub k hk')) (by omega)
  exact ⟨t', ls, h1.trans h5, h2.trans h6, by rw [h7, h3, hp], h8⟩

theorem decode_bcc (u : FrameUser) (hout : s.out = []) (hrx : s.rxResidue = frameBody s.address h l p ++ more)
    (hp : p.length = lendec s.lengthRule h l) (hi : s.inputs = deliveries ks ++ rest) (hk : ∀ k ∈ ks, 1 ≤ k) (hl : 6 + p.length ≤ ks.length) :
    ∃ t js, decodeFrame u s = rdBcc u t ∧ After ks js (6 + p.length) ∧ t.len = p.length ∧
      Reached s (frameBody s.address h l p) more js rest 1 t := by
  obtain ⟨t, js, h1, h2, h3, h4⟩ := decode_end (more := endByte :: more) u hout (by rw [hrx]; simp [frameBody]) hp hi hk (by omega)
  have := h2.enough
  obtain ⟨t', ls, h5, h6, h7, h8⟩ := rdEnd_pass (u := u) h4 (fun k hk' => hk k (h2.sub k hk')) (by omega)
  refine ⟨t', ls, h1.trans h5, ?_, by rw [h7, h3], h8⟩
  have := h2.trans h6
  rwa [show 5 + p.length + 1 = 6 + p.length by omega] at this

theorem decode_done (u : FrameUser) (hout : s.out = []) (hrx : s.rxResidue = frameWith s.address h l p ++ more)
    (hp : p.length = lendec s.lengthRule h l) (hi : s.inputs = deliveries ks ++ rest) (hk : ∀ k ∈ ks, 1 ≤ k) (hl : 7 + p.length ≤ ks.length) :
    ∃ t js, decodeFrame u s = frameDone u t ∧ After ks js (7 + p.length) ∧ t.len = p.length ∧ t.bcc = xorfold (frameBody s.address h l p) ∧
      Seen s (frameWith s.address h l p) more js rest t := by
  obtain ⟨t, js, h1, h2, h3, h4⟩ := decode_bcc (more := xorfold (frameBody s.address h l p) :: more) u hout (by rw [hrx]; simp [frameWith]) hp hi hk (by omega)
  have := h2.enough
  obtain ⟨t', ls, h5, h6, h7, h8, h9⟩ := rdBcc_pass (u := u) h4 (fun k hk' => hk k (h2.sub k hk')) (by omega)
  refine ⟨t', ls, h1.trans h5, ?_, by rw [h7, h3], h8, h9⟩
  have := h2.trans h6
  rwa [show 6 + p.length + 1 = 7 + p.length by omega] at this

/-- What EXCHANGE answers once a whole frame is in (R117). -/
theorem frameDone_exchange {a : Nat} (hs : Seen s (frameWith a h l p) more ks rest t) (hl : t.len = p.length)
    (hp : p.length = lendec s.lengthRule h l) :
    frameDone .exchange t = .next { t.goto (.exchange .extract) with out := p }.finish := by
  have hle := lendec_le s.lengthRule h l
  have hf : FrameRead (t.goto (.exchange .extract)) :=
    ⟨hs.out, by rw [State.goto_len]; omega, by rw [State.goto_fbuf, hs.fbuf, State.goto_len, hl, frameWith_length],
      by rw [State.goto_fbuf, hs.fbuf, State.goto_lengthRule, hs.rule, State.goto_len, hl, hp]; rfl⟩
  have := extractFrom_whole (.exchange .extract) hf
  rw [State.goto_fbuf, State.goto_len, hl, hs.fbuf] at this
  rw [frameDone, hs.fbuf, this]
  have hd : ((frameWith a h l p).drop 5).take p.length = p := by simp [frameWith, frameBody, addrDigits]
  rw [hd]; rfl

/-! ### Ends of a stage -/

/-- The read comes up short: the residue is used up. -/
theorem Reached.short (hr : Reached s seen more ks (.rxTimeout :: rest) n t) (hm : more.length < n.toNat) (hk : ∀ k ∈ ks, 1 ≤ k)
    (hl : more.length ≤ ks.length) (o : ErrKind) (k : State → Result) :
    ∃ v : State, afterRead t o k = .next (v.raise o) ∧ v.rxResidue = [] := by
  obtain ⟨xs, evs, h1⟩ := afterRead_comes_short (onShort := o) (k := k) hr.inputs (by rw [hr.rx, hr.missing]; exact hm) hk (by rw [hr.rx]; exact hl)
  exact ⟨_, h1, rfl⟩

/-- The read meets an error after `bs`. -/
theorem Reached.error {e : IoErr} (hr : Reached s seen (bs ++ more) ks (.rxErr e :: rest) n t) (hm : bs.length < n.toNat) (hk : ∀ k ∈ ks, k = 1)
    (hl : ks.length = bs.length) (o : ErrKind) (k : State → Result) :
    ∃ v : State, afterRead t o k = .next (v.raise (.ioError e)) ∧ v.rxResidue = more ∧ v.inputs = rest := by
  have hks : ks = List.replicate bs.length 1 := List.eq_replicate_iff.mpr ⟨hl, hk⟩
  have hi := hr.inputs
  rw [hks] at hi
  obtain ⟨evs, h1⟩ := afterRead_errs (onShort := o) (k := k) hi hr.rx (by rw [hr.missing]; exact hm)
  exact ⟨_, h1, rfl, rfl⟩

end

end Sys2Proof.Machine
end

