-- ==== Sys2Proof/Laws/Operations.lean ====
section
/-! SUPPORT. What each transport operation can answer, whatever the outside world does: READ_EXACT, DECODE_RESP and EXCHANGE from their start and taken up at a stage. -/

namespace Sys2Proof.Machine

/-! ### READ_EXACT -/

/-- What READ_EXACT can come to from `s`, its reading in `u` (R86). -/
def ReadPost (s t : State) : Prop :=
  ∃ used evs u, Moves used evs s u ∧ Reads evs s u ∧
    (t = { u with out := u.acc }.finish ∨ (∃ e, t = { u with out := u.acc }.raiseKeeping (.ioError e)) ∨
      (t = u ∧ u.missing ≠ 0 ∧ u.inputs = [] ∧ evs.length + u.missing ≤ s.missing) ∨ (t = u.resetBlock ∧ ∃ k, .reset k ∈ used))

theorem readExactLoop_good {s : State} (h1 : s.out = []) (h2 : s.acc.length ≤ s.need.toNat) :
    Good (ReadPost s) (readExactLoop s) := by
  unfold readExactLoop
  have fits : ∀ evs u, Reads evs s u → ∀ k, writeOut u.acc u k = k { u with out := u.acc } := by
    intro evs u hr k
    have := hr.fill h2
    have := u.need.isLt
    exact writeOut_of_le (hr.frame.out.trans h1) (by omega)
  have h := readLoop_spec s.inputs s rfl
  revert h
  cases readLoop s.inputs s with
  | full u =>
    rintro ⟨⟨used, evs, hm, hr⟩, -⟩
    simp only [fits evs u hr]
    exact ⟨used, evs, u, hm, hr, .inl rfl⟩
  | short u =>
    rintro ⟨⟨used, evs, hm, hr⟩, -⟩
    simp only [fits evs u hr]
    exact ⟨used, evs, u, hm, hr, .inl rfl⟩
  | err e u =>
    rintro ⟨⟨used, evs, hm, hr⟩, -⟩
    simp only [fits evs u hr]
    exact ⟨used, evs, u, hm, hr, .inr (.inl ⟨e, rfl⟩)⟩
  | waiting u => rintro ⟨⟨used, evs, hm, hr, h2⟩, h3, h4⟩; exact ⟨used, evs, u, hm, hr, .inr (.inr (.inl ⟨rfl, h3, h4, h2⟩))⟩
  | cut t => rintro ⟨used, evs, u, hm, hr, rfl, h4⟩; exact ⟨used, evs, u, hm, hr, .inr (.inr (.inr ⟨rfl, h4⟩))⟩
  | refused r => exact id

/-- The state in which READ_EXACT begins to read. -/
def State.beginRead (a : BitVec 8) (c : BitVec 16) (s : State) : State :=
  (s.start (.readExact a c) .readExact).enterRead .readExact c

theorem exec_readExact (a : BitVec 8) (c : BitVec 16) (s : State) : exec (.readExact a c) s = readExactLoop (s.beginRead a c) := by
  change readExactLoop ((s.start (.readExact a c) .readExact).enterRead .readExact (s.start (.readExact a c) .readExact).count) = _
  rw [State.count_start]; rfl

theorem exec_readExact_good (a : BitVec 8) (c : BitVec 16) (s : State) :
    Good (ReadPost (s.beginRead a c)) (exec (.readExact a c) s) := by
  rw [exec_readExact]; exact readExactLoop_good rfl (Nat.zero_le _)

/-! ### DECODE_RESP -/

/-- DECODE_RESP once its address has passed. -/
def State.decodeRespBegun (a : BitVec 8) (c : BitVec 16) (s : State) : State := s.start (.decodeResp a c) (.decodeResp .check)

theorem exec_decodeResp_of_gt (a : BitVec 8) (c : BitVec 16) (s : State) (h : 15 < a.toNat) :
    exec (.decodeResp a c) s = .next ((s.decodeRespBegun a c).raise .invalidAddress) := by
  change decodeRespCheck (s.decodeRespBegun a c) = _
  rw [decodeRespCheck, State.decodeRespBegun, State.address_start, if_pos (by simpa [Config.addrMax, Instr.addr] using h)]

theorem exec_decodeResp_of_le (a : BitVec 8) (c : BitVec 16) (s : State) (h : a.toNat ≤ 15) :
    exec (.decodeResp a c) s = decodeFrame .decodeResp (s.decodeRespBegun a c) := by
  change decodeRespCheck (s.decodeRespBegun a c) = _
  rw [decodeRespCheck, State.decodeRespBegun, State.address_start, if_neg (by simpa [Config.addrMax, Instr.addr] using h)]

theorem exec_decodeResp_good (a : BitVec 8) (c : BitVec 16) (s : State) (h : a.toNat ≤ 15) :
    Good (FramePost .decodeResp ((s.decodeRespBegun a c).beginFrame .decodeResp)) (exec (.decodeResp a c) s) := by
  rw [exec_decodeResp_of_le a c s h]; exact decodeFrame_good .decodeResp rfl rfl

/-! ### EXCHANGE -/

/-- EXCHANGE at its first stage. -/
def State.exchangeBegun (a : BitVec 8) (c : BitVec 16) (s : State) : State := s.start (.exchange a c) (.exchange .enc)

theorem State.exchangeBegun_address (a : BitVec 8) (c : BitVec 16) (s : State) : (s.exchangeBegun a c).address = a.toNat := by
  simp [State.exchangeBegun, Instr.addr]

theorem exec_exchange_of_some (a : BitVec 8) (c : BitVec 16) (s : State) {k : ErrKind} (h : checkCommand a.toNat s.inBuf = some k) :
    exec (.exchange a c) s = .next ((s.exchangeBegun a c).raise k) := by
  change exchangeEnc (s.exchangeBegun a c) = _
  rw [exchangeEnc, s.exchangeBegun_address, State.operand_eq, show (s.exchangeBegun a c).inBuf = s.inBuf from rfl, h]

theorem exec_exchange_of_none (a : BitVec 8) (c : BitVec 16) (s : State) (h : checkCommand a.toNat s.inBuf = none) :
    exec (.exchange a c) s = exchangeTxCmd ((s.exchangeBegun a c).assemble.goto (.exchange .txCmd)) := by
  change exchangeEnc (s.exchangeBegun a c) = _
  rw [exchangeEnc, s.exchangeBegun_address, State.operand_eq, show (s.exchangeBegun a c).inBuf = s.inBuf from rfl, h]

theorem exec_exchange_good (a : BitVec 8) (c : BitVec 16) (s : State) (h : checkCommand a.toNat s.inBuf = none) :
    Good (ExchangePost (commandFrame s.lengthRule a.toNat s.inBuf) (enqByte :: addrDigits a.toNat) 3 (s.exchangeBegun a c))
      (exec (.exchange a c) s) := by
  rw [exec_exchange_of_none a c s h]
  have ha := s.exchangeBegun_address a c
  obtain ⟨-, h1, h2, h3⟩ | h' | h' | h' := checkCommand_cases a.toNat s.inBuf
  · have := exchangeEnc_good (s := s.exchangeBegun a c) rfl rfl (by omega) h2 h3
    rw [State.enquiry, ha] at this
    exact this
  · simp [h] at h'
  · simp [h] at h'
  · simp [h] at h'

/-! ### An operation taken up at a stage -/

/-- A busy block that meets the invariant goes on in one of these ways (R24). -/
theorem resume_good {b : Busy} {s : State} (hs : s.seq = .busy b) (h : busyInv b s) :
    (b = .readExact ∧ Good (ReadPost s) (resume b s)) ∨
    (∃ u f, b = u.place f ∧ Good (FramePost u s) (resume b s)) ∨
    (∃ st c e n, b = .exchange st ∧ Good (ExchangePost c e n s) (resume b s)) := by
  obtain ⟨haw, hp, ho, hb⟩ := h
  have fill : b.access = .rx → s.acc.length ≤ s.need.toNat := fun h => by
    simp [State.awaiting, hs, h, State.missing] at haw; omega
  cases b with
  | readExact => exact .inl ⟨rfl, readExactLoop_good ho (fill rfl)⟩
  | decodeResp st =>
    cases st with
    | check => exact hb.elim
    | frame f => exact .inr (.inl ⟨.decodeResp, f, rfl, resumeFrame_good ⟨hs, hp, ho, hb.2.2, fill rfl⟩⟩)
  | exchange st =>
    obtain ⟨-, hadd, hi⟩ := hb
    have hr : ExchangeReady st s := ⟨hs, hp, ho, hadd, hi, fill⟩
    cases st with
    | enc => exact hi.elim
    | txCmd => exact .inr (.inr ⟨_, _, _, _, rfl, exchangeTxCmd_good hr⟩)
    | rdAck => exact .inr (.inr ⟨_, _, _, _, rfl, exchangeRdAck_good hr⟩)
    | rdAckAddr => exact .inr (.inr ⟨_, _, _, _, rfl, exchangeRdAckAddr_good hr⟩)
    | txEnq => exact .inr (.inr ⟨_, _, _, _, rfl, exchangeTxEnq_good hs hp ho hadd⟩)
    | frame f => exact .inr (.inl ⟨.exchange, f, rfl, resumeFrame_good ⟨hs, hp, ho, hi, fill rfl⟩⟩)
    | extract => exact hi.elim
  | checksum => exact hb.elim
  | encodeCmd st => exact hb.elim
  | encodeEnq st => exact hb.elim
  | extractPayload st => exact hb.elim

/-! ### All that an operation can do -/

theorem State.AsReset.not_ended {t : State} (h : t.AsReset) : ¬ t.Ended := by
  intro h'
  have := congrArg State.respPending h
  rw [h'.2] at this; cases this

theorem State.AsReset.not_waits {t : State} (h : t.AsReset) : ¬ t.Waits := by
  intro h'
  have hs := congrArg State.seq h
  have ha := h'.1
  rw [State.awaiting, ← hs] at ha; cases ha

theorem State.Ended.not_waits {t : State} (h : t.Ended) : ¬ t.Waits := by
  intro h'
  have := h'.2.2
  rw [h.2] at this; cases this

/-- An operation with word `w` ended, or waits properly, or was cut off; `used` of the timeline went by. -/
def Settled (w : Word) (used : List Input) (s t : State) : Prop :=
  (t.Ended ∧ t.req = w ∧ t.inBuf = s.inBuf ∧ t.status.toNat ≤ 15 ∧ (s.Small → t.Small) ∧ t.out.length ≤ 65542) ∨
    (t.Waits ∧ t.req = w ∧ t.inBuf = s.inBuf ∧ t.out = [] ∧ t.status = s.status ∧ t.ioerr = s.ioerr ∧ (s.Small → t.Small) ∧
      ∃ b, t.seq = .busy b ∧ busyInv b t) ∨
    (t.AsReset ∧ ∃ k, .reset k ∈ used)

/-- What a step makes of it: the same, but that a reset may have come at the end. -/
theorem Settled.settle {w : Word} {used : List Input} {evs : List Event} {s t u : State} (hm : Moves used evs s t) (h : Settled w used s t)
    (hu : settle (.next t) = .next u) : ∃ used, Moves used evs s u ∧ Settled w used s u := by
  obtain ⟨t', e, h'⟩ := settle_cases hu
  cases e
  rcases h' with ⟨-, rfl⟩ | ⟨hp, ⟨k, xs, hi, rfl⟩ | ⟨-, rfl⟩⟩
  · exact ⟨used, hm, h⟩
  · refine ⟨used ++ [.reset k], ?_, .inr (.inr ⟨(t.await xs).resetBlock_asReset, k, by simp⟩)⟩
    simpa using (hm.trans (.pass hi rfl rfl)).resetBlock
  · obtain ⟨used', hm'⟩ := Moves.moved t
    refine ⟨used ++ used', by simpa using hm.trans hm', ?_⟩
    rcases h with ⟨⟨h1, -⟩, h2⟩ | ⟨h1, -⟩ | ⟨h1, -⟩
    · exact .inl ⟨⟨h1, hp⟩, h2⟩
    · have := h1.2.2; rw [hp] at this; cases this
    · have := congrArg State.respPending h1; rw [hp] at this; cases this

/-- What sets each operation apart: its accesses, its statuses, what it leaves alone. -/
def Profile (i : Instr) (evs : List Event) (s t : State) : Prop :=
  match i with
  | .readExact _ _ => (∀ e ∈ evs, e.isRx = true) ∧ (t.Ended → t.status = 0 ∨ t.status = 3) ∧
      (t.Ended ∨ t.Waits → t.bcc = s.bcc ∧ t.len = s.len ∧ t.fbuf = s.fbuf ∧ t.abuf = s.abuf ∧ t.txLine = s.txLine)
  | .decodeResp _ _ => (∀ e ∈ evs, e.isRx = true) ∧ (t.Ended ∨ t.Waits → t.txLine = s.txLine) ∧
      (t.Ended → t.status = 0 ∨ (t.status = 1 ∨ t.status = 3 ∨ 7 ≤ t.status.toNat ∧ t.status.toNat ≤ 12) ∧ t.out = [])
  | .exchange _ _ => t.Ended → t.status = 0 ∨ (t.status.toNat ≤ 12 ∨ t.status = 14) ∧ t.out = []
  | .checksum _ _ => evs = [] ∧ t.txLine = s.txLine ∧ t.status = 0
  | .encodeCmd _ _ => evs = [] ∧ t.txLine = s.txLine ∧ (t.status = 0 ∨ (t.status = 1 ∨ t.status = 2 ∨ t.status = 14) ∧ t.out = [])
  | .encodeEnq _ _ => evs = [] ∧ t.txLine = s.txLine ∧ (t.status = 0 ∨ t.status = 1 ∧ t.out = [])
  | .extractPayload _ _ => evs = [] ∧ t.txLine = s.txLine ∧ (t.status = 0 ∨ t.status = 13 ∧ t.out = [])

theorem status_le_of_frame {x : BitVec 8} (h : x = 0 ∨ x = 3 ∨ 7 ≤ x.toNat ∧ x.toNat ≤ 12) : x.toNat ≤ 15 := by
  obtain rfl | rfl | h := h
  · decide
  · decide
  · omega

/-- READ_EXACT settles. -/
theorem ReadPost.settled {a : BitVec 8} {c : BitVec 16} {s t : State} (h : ReadPost s t) (hs : s.seq = .busy .readExact)
    (hp : s.respPending = false) (ho : s.out = []) (hd : decodeWord s.req = .ok (.readExact (addrField s.req) s.count)) (hn : s.need = s.count)
    (hf : s.acc.length ≤ s.need.toNat) :
    ∃ used evs, Moves used evs s t ∧ Settled s.req used s t ∧ Profile (.readExact a c) evs s t := by
  obtain ⟨used, evs, u, hm, hr, h⟩ := h
  have hu := hr.frame
  have hrx := isRx_of_reads hr
  have hfill := hr.fill hf
  have hlt := u.need.isLt
  refine ⟨used, evs, ?_⟩
  rcases h with rfl | ⟨e, rfl⟩ | ⟨rfl, h1, h2, -⟩ | ⟨rfl, h1⟩
  · exact ⟨hm.congr (State.sameWorld_refl s) (State.sameWorld_refl u), .inl ⟨⟨rfl, rfl⟩, hu.req, hu.inBuf,
      by show (0 : BitVec 8).toNat ≤ 15; decide, (small_of_reads hr hf :), by show u.acc.length ≤ _; omega⟩,
      hrx, fun _ => .inl rfl, fun _ => ⟨hu.bcc, hu.len, hu.fbuf, hu.abuf, hu.txLine⟩⟩
  · exact ⟨hm.congr (State.sameWorld_refl s) (State.sameWorld_refl u), .inl ⟨⟨rfl, rfl⟩, hu.req, hu.inBuf,
      by show (3 : BitVec 8).toNat ≤ 15; decide, (small_of_reads hr hf :), by show u.acc.length ≤ _; omega⟩,
      hrx, fun _ => .inr rfl, fun _ => ⟨hu.bcc, hu.len, hu.fbuf, hu.abuf, hu.txLine⟩⟩
  · have ha : t.awaiting = true := by simp [State.awaiting, hu.seq.trans hs, Busy.access, h1]
    have hc : t.count = s.count := by rw [State.count, State.count, hu.req]
    have hw : t.Waits := ⟨ha, h2, hu.respPending.trans hp⟩
    exact ⟨hm, .inr (.inl ⟨hw, hu.req, hu.inBuf, hu.out.trans ho, hu.status, hu.ioerr, small_of_reads hr hf,
      .readExact, hu.seq.trans hs, ha, hw.2.2, hu.out.trans ho, by rw [hc, hu.req]; exact hd, by rw [hc, hu.need, hn]⟩),
      hrx, fun h => absurd hw h.not_waits, fun _ => ⟨hu.bcc, hu.len, hu.fbuf, hu.abuf, hu.txLine⟩⟩
  · have hr := u.resetBlock_asReset
    exact ⟨hm.resetBlock, .inr (.inr ⟨hr, h1⟩), hrx, fun h => absurd h hr.not_ended, fun h => (h.elim hr.not_ended hr.not_waits).elim⟩

/-- The decoder settles: `hb` is what makes a waiting decoder a proper one. -/
theorem FramePost.settled {a : BitVec 8} {c : BitVec 16} {u : FrameUser} {s t : State} (h : FramePost u s t)
    (hb : ∀ t f, t.req = s.req → FrameReady u f t → t.awaiting = true → busyInv (u.place f) t) :
    ∃ used evs, Moves used evs s t ∧ Settled s.req used s t ∧ Profile (.decodeResp a c) evs s t := by
  obtain ⟨used, evs, hm, hrx, h⟩ := h
  refine ⟨used, evs, hm, ?_⟩
  rcases h with ⟨h1, h2, h3, h4, h5, h6⟩ | ⟨h1, h2, h3, h4, h5, h6, h7, f, h8⟩ | h
  · refine ⟨.inl ⟨h1, h2, h3, status_le_of_frame (h6.imp (·.1) (·.1)), fun h => h5 h.2.1, ?_⟩, hrx, fun _ => h4,
      fun _ => h6.imp (·.1) fun h => ⟨.inr h.1, h.2⟩⟩
    rcases h6 with ⟨-, -, h, h'⟩ | ⟨-, h⟩
    · rw [h']; cases u <;> simp only [FrameUser.outLength] <;> omega
    · simp [h]
  · exact ⟨.inr (.inl ⟨h1, h2, h3, h8.out, h5, h6, fun h => h7 h.2.1, _, h8.seq, hb t f h2 h8 h1.1⟩), hrx, fun _ => h4,
      fun h => absurd h1 h.not_waits⟩
  · exact ⟨.inr (.inr h), hrx, fun h' => (h'.elim h.1.not_ended h.1.not_waits).elim, fun h' => absurd h' h.1.not_ended⟩

/-- EXCHANGE settles. -/
theorem ExchangePost.settled {a : BitVec 8} {k : BitVec 16} {c e : Bytes} {n : Nat} {s t : State} (h : ExchangePost c e n s t)
    (hd : decodeWord s.req = .ok (.exchange (addrField s.req) s.count)) :
    ∃ used evs, Moves used evs s t ∧ Settled s.req used s t ∧ Profile (.exchange a k) evs s t := by
  obtain ⟨used, evs, hm, h⟩ := h
  refine ⟨used, evs, hm, ?_⟩
  rcases h with ⟨h1, h2, h3, h4, h5⟩ | ⟨h1, h2, h3, h4, h5, h6, st, h7⟩ | h
  · have hs : t.status = 0 ∨ (t.status.toNat ≤ 12 ∨ t.status = 14) ∧ t.out = [] := by
      rcases h5 with ⟨h, h', -⟩ | ⟨h | h | h, h', -⟩ | ⟨-, ⟨h, -⟩ | ⟨-, h, h'⟩⟩
      · exact .inr ⟨.inl (by rw [h]; decide), h'⟩
      · exact .inr ⟨.inl (by rw [h]; decide), h'⟩
      · exact .inr ⟨.inl (by rw [h]; decide), h'⟩
      · exact .inr ⟨.inl (by rw [h]; decide), h'⟩
      · exact .inl h
      · exact .inr ⟨.inl h, h'⟩
    refine ⟨.inl ⟨h1, h2, h3, ?_, h4, ?_⟩, fun _ => hs⟩
    · rcases hs with h | ⟨h | h, -⟩
      · rw [h]; decide
      · omega
      · rw [h]; decide
    · rcases h5 with ⟨-, h, -⟩ | ⟨-, h, -⟩ | ⟨-, ⟨-, -, h, h'⟩ | ⟨-, -, h⟩⟩
      · simp [h]
      · simp [h]
      · omega
      · simp [h]
  · have hc : t.count = s.count := by rw [State.count, State.count, h2]
    exact ⟨.inr (.inl ⟨h1, h2, h3, h7.out, h4, h5, h6, _, h7.seq, h1.1, h7.resp, h7.out, by rw [h2, hc]; exact hd, h7.addr, h7.inv⟩),
      fun h => absurd h1 h.not_waits⟩
  · exact ⟨.inr (.inr h), fun h' => absurd h' h.1.not_ended⟩

/-- All that an operation can do: the world moves on, it settles, and it keeps to its profile. -/
def ExecPost (i : Instr) (s t : State) : Prop :=
  ∃ used evs, Moves used evs s t ∧ Settled (encode i) used s t ∧ Profile i evs s t

/-- What an operation does from its begun state `v` it does from `s`. -/
theorem ExecPost.of_begun {i : Instr} {s v t : State} (hw : s.SameWorld v) (hin : v.inBuf = s.inBuf) (hst : v.status = s.status)
    (hio : v.ioerr = s.ioerr) (hsm : s.Small → v.Small) (hreq : v.req = encode i) (hpr : ∀ evs, Profile i evs v t → Profile i evs s t)
    (h : ∃ used evs, Moves used evs v t ∧ Settled v.req used v t ∧ Profile i evs v t) : ExecPost i s t := by
  obtain ⟨used, evs, h1, h2, h3⟩ := h
  refine ⟨used, evs, h1.congr hw (State.sameWorld_refl t), ?_, hpr evs h3⟩
  rw [hreq] at h2
  rcases h2 with ⟨h1, h2, h3, h4, h5, h6⟩ | ⟨h1, h2, h3, h4, h5, h6, h7, h8⟩ | h
  · exact .inl ⟨h1, h2, h3.trans hin, h4, fun h => h5 (hsm h), h6⟩
  · exact .inr (.inl ⟨h1, h2, h3.trans hin, h4, h5.trans hst, h6.trans hio, fun h => h7 (hsm h), h8⟩)
  · exact .inr (.inr h)

/-- An operation that ends at once, with the world as it was. -/
theorem ExecPost.of_ended {i : Instr} {s t : State} (he : t.Ended) (hw : s.SameWorld t) (hreq : t.req = encode i) (hin : t.inBuf = s.inBuf)
    (hst : t.status.toNat ≤ 15) (hsm : s.Small → t.Small) (hout : t.out.length ≤ 65542) (hpr : Profile i [] s t) : ExecPost i s t :=
  ⟨[], [], .of_sameWorld hw, .inl ⟨he, hreq, hin, hst, hsm, hout⟩, hpr⟩

theorem exec_spec (i : Instr) (s : State) : Good (ExecPost i s) (exec i s) := by
  cases i with
  | readExact a c =>
    refine (exec_readExact_good a c s).mono fun t ht => .of_begun (v := s.beginRead a c) (State.sameWorld_refl s) rfl rfl rfl
      (fun h => ⟨Nat.zero_le _, h.2⟩) rfl (fun _ => id) (ht.settled rfl rfl rfl ?_ ?_ (Nat.zero_le _))
    · simp [State.beginRead, decodeWord, State.count, Instr.opcode, Instr.addr, Instr.count]
    · simp [State.beginRead, State.count, Instr.count]
  | checksum a c =>
    rw [exec_checksum]
    exact .of_ended ⟨rfl, rfl⟩ (State.sameWorld_refl s) rfl rfl (by show (0 : BitVec 8).toNat ≤ 15; decide) id (by simp [State.finish])
      ⟨rfl, rfl, rfl⟩
  | encodeCmd a c =>
    obtain ⟨t, ht, h1, ⟨h2, h3, h4, h5, h6, h7⟩, h8, h9, h10, h11⟩ := exec_encodeCmd_cases a c s
    rw [ht]
    refine .of_ended h1 h2 h3 h4 ?_ (fun h => ⟨by rw [h5]; exact h.1, by rw [h8]; exact h.2.1, h10 h.2.2.1, by rw [h7]; exact h.2.2.2⟩) h9
      ⟨rfl, h2.2.2.2.1, h11⟩
    rcases h11 with h | ⟨h | h | h, -⟩ <;> rw [h] <;> decide
  | encodeEnq a c =>
    obtain ⟨t, ht, h1, ⟨h2, h3, h4, h5, h6, h7⟩, h8, h9, h10, h11, h12⟩ := exec_encodeEnq_cases a c s
    rw [ht]
    refine .of_ended h1 h2 h3 h4 ?_ (fun h => ⟨by rw [h5]; exact h.1, by rw [h9]; exact h.2.1, h11 h.2.2.1, by rw [h7]; exact h.2.2.2⟩)
      h10 ⟨rfl, h2.2.2.2.1, h12.imp (·.1) fun h => ⟨h.1, h.2.1⟩⟩
    rcases h12 with ⟨h, -⟩ | ⟨h, -⟩ <;> rw [h] <;> decide
  | extractPayload a c =>
    obtain ⟨t, ht, h1, ⟨h2, h3, h4, h5, h6, h7⟩, h8, h9, h10, h11, h12⟩ := exec_extractPayload_cases a c s
    rw [ht]
    refine .of_ended h1 h2 h3 h4 ?_ (fun h => ⟨by rw [h5]; exact h.1, h10 h.2.1, by rw [h9]; exact h.2.2.1, by rw [h7]; exact h.2.2.2⟩) h11
      ⟨rfl, h2.2.2.2.1, h12⟩
    rcases h12 with h | ⟨h, -⟩ <;> rw [h] <;> decide
  | decodeResp a c =>
    by_cases ha : a.toNat ≤ 15
    · refine (exec_decodeResp_good a c s ha).mono fun t ht => .of_begun (v := (s.decodeRespBegun a c).beginFrame .decodeResp)
        (State.sameWorld_refl s) rfl rfl rfl (fun h => ⟨Nat.zero_le _, h.2.1, Nat.zero_le _, Nat.le_refl 2⟩) rfl (fun _ => id) (ht.settled ?_)
      intro t f hreq hr haw
      have hreq' : t.req = encode (.decodeResp a c) := hreq
      have hadd : t.address = a.toNat := by rw [State.address, hreq', addrField_encode]; rfl
      refine ⟨haw, hr.resp, hr.out, ?_, by rw [hadd]; exact ha, hr.inv⟩
      rw [State.count, hreq']; simp [decodeWord, Instr.opcode, Instr.addr, Instr.count]
    · rw [exec_decodeResp_of_gt a c s (by omega)]
      exact .of_ended ⟨rfl, rfl⟩ (State.sameWorld_refl s) rfl rfl (by show (1 : BitVec 8).toNat ≤ 15; decide) id (Nat.zero_le _)
        ⟨by simp, fun _ => rfl, fun _ => .inr ⟨.inl rfl, rfl⟩⟩
  | exchange a c =>
    have bad : ∀ k, checkCommand a.toNat s.inBuf = some k → k.code.toNat ≤ 12 ∨ k.code = 14 →
        Good (ExecPost (.exchange a c) s) (exec (.exchange a c) s) := by
      intro k hk hc
      rw [exec_exchange_of_some a c s hk]
      exact .of_ended ⟨rfl, rfl⟩ (State.sameWorld_refl s) rfl rfl
        (by show k.code.toNat ≤ 15; rcases hc with h | h; · omega
            · rw [h]; decide) id (Nat.zero_le _) (fun _ => .inr ⟨hc, rfl⟩)
    obtain ⟨hk, h2, h3, h4⟩ | ⟨hk, h2⟩ | ⟨hk, h2, h3⟩ | ⟨hk, h2, h3, h4⟩ := checkCommand_cases a.toNat s.inBuf
    · refine (exec_exchange_good a c s hk).mono fun t ht => .of_begun (v := s.exchangeBegun a c) (State.sameWorld_refl s) rfl rfl rfl id rfl
        (fun _ => id) (ht.settled ?_)
      simp [State.exchangeBegun, decodeWord, State.count, Instr.opcode, Instr.addr, Instr.count]
    · exact bad _ hk (by decide)
    · exact bad _ hk (by decide)
    · exact bad _ hk (by decide)

/-- All that a busy block which meets the invariant can do (R24). -/
theorem resume_spec {b : Busy} {s : State} (hs : s.seq = .busy b) (h : busyInv b s) :
    Good (fun t => ∃ used evs, Moves used evs s t ∧ Settled s.req used s t) (resume b s) := by
  have hb := h.2.2.2
  rcases resume_good hs h with ⟨rfl, hg⟩ | ⟨u, f, rfl, hg⟩ | ⟨st, c, e, n, rfl, hg⟩
  · refine hg.mono fun t ht => ?_
    have hf : s.acc.length ≤ s.need.toNat := by
      have := h.1; simp [State.awaiting, hs, Busy.access, State.missing] at this; omega
    obtain ⟨used, evs, h1, h2, -⟩ := ht.settled (a := 0) (c := 0) hs h.2.1 h.2.2.1 hb.1 hb.2 hf
    exact ⟨used, evs, h1, h2⟩
  · refine hg.mono fun t ht => ?_
    have proper : ∀ t f, t.req = s.req → FrameReady u f t → t.awaiting = true → busyInv (u.place f) t := by
      intro t f hreq hr haw
      have hc : t.count = s.count := by rw [State.count, State.count, hreq]
      have ha : t.address = s.address := by rw [State.address, State.address, hreq]
      cases u with
      | decodeResp => exact ⟨haw, hr.resp, hr.out, by rw [hreq, hc]; exact hb.1, by rw [ha]; exact hb.2.1, hr.inv⟩
      | exchange => exact ⟨haw, hr.resp, hr.out, by rw [hreq, hc]; exact hb.1, by rw [ha]; exact hb.2.1, hr.inv⟩
    obtain ⟨used, evs, h1, h2, -⟩ := ht.settled (a := 0) (c := 0) proper
    exact ⟨used, evs, h1, h2⟩
  · refine hg.mono fun t ht => ?_
    obtain ⟨used, evs, h1, h2, -⟩ := ht.settled (a := 0) (k := 0) hb.1
    exact ⟨used, evs, h1, h2⟩

end Sys2Proof.Machine
end

