-- ==== Sys2Proof/Laws/Handshake.lean ====
section
/-! SUPPORT. How EXCHANGE goes when the transport takes the command and delivers an acknowledgement, in any split (42_session.md R112 to R115). -/

namespace Sys2Proof.Machine

/-- The operation, EXCHANGE to address `a` begun from `s`, has its command frame written and has read the bytes `seen`; `more` is the residue
and the answers `ks`, then `rest`, are to come. -/
structure Sent (a : BitVec 8) (s : State) (seen more : Bytes) (ks : List Nat) (rest : List Input) (t : State) : Prop where
  out : t.out = []
  address : t.address = a.toNat
  rule : t.lengthRule = s.lengthRule
  rx : t.rxResidue = more
  inputs : t.inputs = deliveries ks ++ rest
  line : t.txLine = s.txLine ++ commandFrame s.lengthRule a.toNat s.inBuf
  history : readBytes t.history = readBytes s.history ++ seen

section
variable {a : BitVec 8} {c : BitVec 16} {s t : State} {bs seen more : Bytes} {ks : List Nat} {rest : List Input}

/-- A command that `BuildFrame` accepts. -/
theorem checkCommand_none {a : Nat} {p : Bytes} (h1 : a ≤ 15) (h2 : 1 ≤ p.length) (h3 : p.length ≤ 65535) : checkCommand a p = none := by
  obtain h | h | h | h := checkCommand_cases a p
  · exact h.1
  · omega
  · simp [h.2.2] at h2
  · omega

/-- The command is written, and the acknowledgement is awaited. -/
theorem exchange_sent (h : checkCommand a.toNat s.inBuf = none) (hrx : s.rxResidue = more) (hi : s.inputs = .txOk :: (deliveries ks ++ rest)) :
    ∃ t, exec (.exchange a c) s = exchangeRdAck t ∧ t.missing = 1 ∧ t.acc = [] ∧ Sent a s [] more ks rest t := by
  have hfb : ((s.exchangeBegun a c).assemble.goto (.exchange .txCmd)).fbuf = commandFrame s.lengthRule a.toNat s.inBuf := by
    rw [State.goto_fbuf, State.assemble_fbuf, State.operand_eq, State.exchangeBegun_address]; rfl
  have hx := exec_exchange_of_none a c s h
  rw [exchangeTxCmd, afterTx_ok (s := (s.exchangeBegun a c).assemble.goto (.exchange .txCmd)) (ks := []) (xs := deliveries ks ++ rest) hi] at hx
  refine ⟨_, hx, rfl, rfl, rfl, s.exchangeBegun_address a c, rfl, hrx, rfl, ?_, ?_⟩
  · show s.txLine ++ ((s.exchangeBegun a c).assemble.goto (.exchange .txCmd)).fbuf = _
    rw [hfb]
  · show readBytes (s.history ++ _) = _
    simp [Event.got]

theorem Sent.read (h : Sent a s seen (bs ++ more) ks rest t) (hacc : t.acc = []) (hm : bs.length = t.missing) (hk : ∀ k ∈ ks, 1 ≤ k)
    (hl : bs.length ≤ ks.length) :
    ∃ js v, (∀ o k, afterRead t o k = k v) ∧ After ks js bs.length ∧ v.acc = bs ∧ v.abuf = t.abuf ∧ Sent a s (seen ++ bs) more js rest v := by
  obtain ⟨js, evs, h1, h2, h3, h4⟩ := afterRead_gathers h.inputs h.rx hm hk hl
  refine ⟨js, t.gather bs more (deliveries js ++ rest) evs, h1, h4, ?_, rfl, h.out, h.address, h.rule, rfl, rfl, h.line, ?_⟩
  · simp [State.gather, hacc]
  · show readBytes (t.history ++ evs) = _
    rw [readBytes_append, h.history, h2, List.append_assoc]

/-- The acknowledgement byte is there, and its address is awaited (R113). -/
theorem exchangeRdAck_pass (h : Sent a s seen (ackByte :: more) ks rest t) (hacc : t.acc = []) (hm : t.missing = 1) (hk : ∀ k ∈ ks, 1 ≤ k)
    (hl : 1 ≤ ks.length) :
    ∃ js t', exchangeRdAck t = exchangeRdAckAddr t' ∧ After ks js 1 ∧ t'.acc = [] ∧ t'.missing = 2 ∧ t'.abuf = addrDigits a.toNat ∧
      Sent a s (seen ++ [ackByte]) more js rest t' := by
  obtain ⟨js, v, h1, h2, h3, h4, h5⟩ := Sent.read (bs := [ackByte]) h hacc hm.symm hk hl
  refine ⟨js, v.beginAckAddr, by rw [exchangeRdAck, h1, if_pos (by rw [h3]; rfl)]; rfl, h2, rfl, rfl, ?_,
    h5.out, h5.address, h5.rule, h5.rx, h5.inputs, h5.line, h5.history⟩
  show addrDigits v.address = _
  rw [h5.address]

/-- The acknowledgement's address is the right one, and the enquiry is to be written (R114). -/
theorem exchangeRdAckAddr_pass (h : Sent a s seen (addrDigits a.toNat ++ more) ks rest t) (hacc : t.acc = []) (hm : t.missing = 2)
    (hab : t.abuf = addrDigits a.toNat) (hk : ∀ k ∈ ks, 1 ≤ k) (hl : 2 ≤ ks.length) :
    ∃ js t', exchangeRdAckAddr t = exchangeTxEnq t' ∧ After ks js 2 ∧ Sent a s (seen ++ addrDigits a.toNat) more js rest t' := by
  obtain ⟨js, v, h1, h2, h3, h4, h5⟩ := Sent.read (bs := addrDigits a.toNat) h hacc hm.symm hk hl
  exact ⟨js, v.goto (.exchange .txEnq), by rw [exchangeRdAckAddr, h1, if_pos (by rw [h3, h4, hab])], h2,
    h5.out, h5.address, h5.rule, h5.rx, h5.inputs, h5.line, h5.history⟩

/-- From the start to the enquiry. -/
theorem exchange_acknowledged (h : checkCommand a.toNat s.inBuf = none) (hrx : s.rxResidue = ackByte :: addrDigits a.toNat ++ more)
    (hi : s.inputs = .txOk :: (deliveries ks ++ rest)) (hk : ∀ k ∈ ks, 1 ≤ k) (hl : 3 ≤ ks.length) :
    ∃ js t, exec (.exchange a c) s = exchangeTxEnq t ∧ After ks js 3 ∧ Sent a s (ackByte :: addrDigits a.toNat) more js rest t := by
  obtain ⟨t1, e1, m1, a1, s1⟩ := exchange_sent (c := c) h hrx hi
  obtain ⟨js, t2, e2, w2, a2, m2, b2, s2⟩ := exchangeRdAck_pass s1 a1 m1 hk (by omega)
  have := w2.enough
  obtain ⟨ls, t3, e3, w3, s3⟩ := exchangeRdAckAddr_pass s2 a2 m2 b2 (fun k hk' => hk k (w2.sub k hk')) (by omega)
  exact ⟨ls, t3, (e1.trans e2).trans e3, w2.trans w3, s3⟩

/-- The enquiry is written, and `DecodeFrame` begins (R115, R116). -/
theorem exchangeTxEnq_sent (h : Sent a s seen more ks (.txOk :: rest) t) (ha : a.toNat ≤ 15) :
    exchangeTxEnq t = decodeFrame .exchange (((t.assembleEnq.await rest).send (enqByte :: addrDigits a.toNat)).record (.tx (enqByte :: addrDigits a.toNat) .ok)) := by
  rw [exchangeTxEnq, h.address, buildEnq_of_le _ ha]
  exact afterTx_ok (s := t.assembleEnq) h.inputs

end

end Sys2Proof.Machine
end

