-- ==== Sys2Proof/Laws/Later.lean ====
section
/-! SUPPORT. The two transport loops use the timeline up in order: what comes later does not change what they do before, and an unanswered request meets it where it waits (20_memory.md R47). -/

namespace Sys2Proof.Machine

/-- More of the timeline, after what is there. -/
def State.later (ys : List Input) (s : State) : State := { s with inputs := s.inputs ++ ys }

theorem State.later_await (ys xs : List Input) (s : State) : (s.later ys).await (xs ++ ys) = (s.await xs).later ys := rfl

theorem meanwhile_later (ys : List Input) (x : Input) (s : State) :
    (s.later ys).meanwhile x = (s.meanwhile x).map (State.later ys) := by
  cases x with
  | offer r => simp only [State.meanwhile]; split <;> rfl
  | reset k | arrive b | rxDeliver k | rxTimeout | rxErr e | txOk | txErr e k | hostWrite x b | hostRead x n | proceed => rfl

/-- What `readLoop` answers when `ys` comes after. -/
def ReadResult.later (ys : List Input) : ReadResult → ReadResult
  | .full t => .full (t.later ys)
  | .short t => .short (t.later ys)
  | .err e t => .err e (t.later ys)
  | .cut t => .cut (t.later ys)
  | .waiting t => readLoop ys (t.later ys)
  | .refused r => .refused r

theorem readLoop_later (ys xs : List Input) (s : State) (h : s.inputs = xs) :
    readLoop (xs ++ ys) (s.later ys) = (readLoop xs s).later ys := by
  induction xs generalizing s with
  | nil =>
    by_cases hm : s.missing = 0
    · rw [List.nil_append, readLoop_full (s := s.later ys) hm, readLoop_full hm]; rfl
    · simp [readLoop, hm, ReadResult.later]
  | cons x xs ih =>
    by_cases hm : s.missing = 0
    · rw [readLoop_full (s := s.later ys) hm, readLoop_full hm]; rfl
    rw [List.cons_append, readLoop.eq_def, readLoop.eq_def (x :: xs) s]
    dsimp only
    rw [show (s.later ys).missing = s.missing from rfl, if_neg hm, if_neg hm]
    have go : (match ((s.later ys).await (xs ++ ys)).meanwhile x with | .ok s' => readLoop (xs ++ ys) s' | .error r => .refused r) =
        ReadResult.later ys (match (s.await xs).meanwhile x with | .ok s' => readLoop xs s' | .error r => .refused r) := by
      rw [State.later_await, meanwhile_later]
      cases hq : (s.await xs).meanwhile x with
      | error r => rfl
      | ok s' => exact ih s' (meanwhile_spec h hq).2.1
    cases x with
    | rxDeliver k =>
      show (if s.granted k = 0 then _ else _) = ReadResult.later ys (if s.granted k = 0 then _ else _)
      split
      · rfl
      · exact ih ((s.await xs).take (s.granted k)) rfl
    | rxTimeout | rxErr e | reset k => rfl
    | offer r | arrive b | hostWrite x b | hostRead x n | txOk | txErr e k | proceed => exact go

/-- What `awaitTx` answers when `ys` comes after. -/
def TxResult.later (bytes : Bytes) (ys : List Input) : TxResult → TxResult
  | .ok t => .ok (t.later ys)
  | .err e t => .err e (t.later ys)
  | .cut t => .cut (t.later ys)
  | .waiting t => awaitTx bytes ys (t.later ys)
  | .refused r => .refused r

theorem awaitTx_later (bytes : Bytes) (ys xs : List Input) (s : State) (h : s.inputs = xs) :
    awaitTx bytes (xs ++ ys) (s.later ys) = (awaitTx bytes xs s).later bytes ys := by
  induction xs generalizing s with
  | nil => rfl
  | cons x xs ih =>
    have go : (match ((s.later ys).await (xs ++ ys)).meanwhile x with | .ok s' => awaitTx bytes (xs ++ ys) s' | .error r => .refused r) =
        TxResult.later bytes ys (match (s.await xs).meanwhile x with | .ok s' => awaitTx bytes xs s' | .error r => .refused r) := by
      rw [State.later_await, meanwhile_later]
      cases hq : (s.await xs).meanwhile x with
      | error r => rfl
      | ok s' => exact ih s' (meanwhile_spec h hq).2.1
    rw [List.cons_append, awaitTx.eq_def, awaitTx.eq_def bytes (x :: xs) s]
    dsimp only
    cases x with
    | txOk | txErr e k | reset k => rfl
    | offer r | arrive b | hostWrite x b | hostRead x n | rxDeliver k | rxTimeout | rxErr e | proceed => exact go

end Sys2Proof.Machine
end

