-- ==== Sys2Proof/Laws/PerInstr.lean ====
section
/-! SUPPORT. Statements about every operation as syntax, one lemma per constructor of Instr (30_encoding.md R54, R55). -/

namespace Sys2Proof.Laws.OpByte

/-- The byte an operation's row of spec/opcode_table.json gives as its match, under the mask 0x000000FF. -/
def tableByte : Instr → Byte
  | .readExact _ _ => 0x00
  | .checksum _ _ => 0x01
  | .encodeCmd _ _ => 0x02
  | .encodeEnq _ _ => 0x03
  | .decodeResp _ _ => 0x04
  | .extractPayload _ _ => 0x05
  | .exchange _ _ => 0x06

/-- The word of an operation has its row's low byte and its two operand fields in their places. -/
def Statement (i : Instr) : Prop :=
  (encode i).extractLsb' 0 8 = tableByte i ∧ (encode i).extractLsb' 8 8 = i.addr ∧ (encode i).extractLsb' 16 16 = i.count

/-- What each lemma below needs: the fields of a request word, for an operation code of three bits. -/
theorem fields (count : BitVec 16) (addr : BitVec 8) (op : BitVec 3) :
    (requestWord count addr op).extractLsb' 0 8 = op.setWidth 8 ∧ (requestWord count addr op).extractLsb' 8 8 = addr ∧
      (requestWord count addr op).extractLsb' 16 16 = count := by
  have h1 := count.isLt; have h2 := addr.isLt; have h3 := op.isLt
  have e : (requestWord count addr op).toNat = count.toNat * 2 ^ 16 + addr.toNat * 2 ^ 8 + op.toNat := by
    rw [requestWord, BitVec.toNat_ofNat]; omega
  refine ⟨?_, ?_, ?_⟩ <;> apply BitVec.eq_of_toNat_eq <;>
    simp only [BitVec.extractLsb'_toNat, BitVec.toNat_setWidth, e, Nat.shiftRight_eq_div_pow] <;> omega

theorem readExact (addr : BitVec 8) (count : BitVec 16) : Statement (.readExact addr count) := fields count addr 0
theorem checksum (addr : BitVec 8) (count : BitVec 16) : Statement (.checksum addr count) := fields count addr 1
theorem encodeCmd (addr : BitVec 8) (count : BitVec 16) : Statement (.encodeCmd addr count) := fields count addr 2
theorem encodeEnq (addr : BitVec 8) (count : BitVec 16) : Statement (.encodeEnq addr count) := fields count addr 3
theorem decodeResp (addr : BitVec 8) (count : BitVec 16) : Statement (.decodeResp addr count) := fields count addr 4
theorem extractPayload (addr : BitVec 8) (count : BitVec 16) : Statement (.extractPayload addr count) := fields count addr 5
theorem exchange (addr : BitVec 8) (count : BitVec 16) : Statement (.exchange addr count) := fields count addr 6

end Sys2Proof.Laws.OpByte
end

