-- ==== Sys2Proof/Laws/Twins.lean ====
section
/-! SUPPORT. EXCHANGE decodes a response as DECODE_RESP does (42_session.md R116, R117): one lemma per stage of `DecodeFrame`, over two states that agree on what the decoder works with. -/

namespace Sys2Proof.Machine

/-- Two states in which `DecodeFrame` goes the same way, `s` for DECODE_RESP and `t` for EXCHANGE: they agree on the receive side, the timeline
and the registers `DecodeFrame` works with. -/
structure Twin (L : LengthRule) (s t : State) : Prop where
  rule : s.lengthRule = L
  rule' : t.lengthRule = L
  rx : t.rxResidue = s.rxResidue
  inputs : t.inputs = s.inputs
  out : s.out = []
  out' : t.out = []
  acc : t.acc = s.acc
  need : t.need = s.need
  fbuf : t.fbuf = s.fbuf
  bcc : t.bcc = s.bcc
  abuf : t.abuf = s.abuf
  rp : s.respPending = false

variable {L : LengthRule}

/-- EXCHANGE ends in `t` as DECODE_RESP ends in `t'`, with the payload of its frame; or with `FrameTooShort`, which no EXCHANGE ends with (R117). -/
def EndsAs (rule : LengthRule) (t' t : State) : Prop := t.Ended ∧ ((t.status = t'.status ∧ t.rxResidue = t'.rxResidue ∧ t.inputs = t'.inputs ∧
        (t'.status = 0 → t.out = (t'.out.drop 5).take (lendec rule (t'.out.getD 3 0) (t'.out.getD 4 0))) ∧ (t'.status ≠ 0 → t.out = []) ∧ (t'.status = 3 → t.ioerr = t'.ioerr)) ∨ t.status = 13)

/-- Where DECODE_RESP's answer is an end, EXCHANGE's is one like it. -/
def EndAlike (rule : LengthRule) (r' r : Result) : Prop := ∀ t', r' = .next t' → t'.Ended → ∃ t, r = .next t ∧ EndsAs rule t' t

/-- Both raise the same kind (R116). -/
theorem raise_alike {s t : State} (h : Twin L s t) (k) : EndAlike L (.next (s.raise k)) (.next (t.raise k)) := by
  intro t' e he
  cases e
  refine ⟨_, rfl, ⟨rfl, rfl⟩, .inl ⟨rfl, h.rx, h.inputs, ?_, fun _ => rfl, ?_⟩⟩
  · intro h0; cases k <;> cases h0
  · intro h0; cases k <;> first | rfl | cases h0

theorem endAlike_of_not_ended {t r rule} (h : ¬ t.Ended) : EndAlike rule (.next t) r := by
  intro t' e he; cases e; exact absurd he h

/-- The two reads go alike. -/
def ReadAlike (L : LengthRule) (r r' : ReadResult) : Prop :=
  match r, r' with
  | .full t, .full t' => Twin L t t'
  | .short t, .short t' => Twin L t t'
  | .err e t, .err e' t' => e = e' ∧ Twin L t t'
  | .waiting t, .waiting _ => t.respPending = false
  | .cut t, .cut _ => t.respPending = false
  | .refused _, .refused _ => True
  | _, _ => False

/-- The two passed the same input alike. -/
def PassAlike (L : LengthRule) (xs : List Input) (r r' : Except Refusal State) : Prop :=
  match r, r' with
  | .ok s, .ok t => Twin L s t ∧ s.inputs = xs
  | .error _, .error _ => True
  | _, _ => False

theorem meanwhile_alike (x xs) (s t : State) (h : Twin L s t) : PassAlike L xs ((s.await xs).meanwhile x) ((t.await xs).meanwhile x) := by
  obtain ⟨a0, a1, a2, a3, a4, a5, a6, a7, a8, a9, a10, a11⟩ := h
  cases x with
  | offer r =>
    by_cases hf : r.fits = true
    · simp only [State.meanwhile, hf, if_true]
      exact ⟨⟨a0, a1, a2, rfl, a4, a5, a6, a7, a8, a9, a10, a11⟩, rfl⟩
    · simp [State.meanwhile, hf, PassAlike]
  | arrive b => exact ⟨⟨a0, a1, by simp [a2], rfl, a4, a5, a6, a7, a8, a9, a10, a11⟩, rfl⟩
  | hostWrite | hostRead => trivial
  | _ => exact ⟨⟨a0, a1, a2, rfl, a4, a5, a6, a7, a8, a9, a10, a11⟩, rfl⟩

theorem readLoop_alike (xs) : ∀ s t : State, Twin L s t → s.inputs = xs → ReadAlike L (readLoop xs s) (readLoop xs t) := by
  induction xs with
  | nil =>
    intro s t h _
    have hm : t.missing = s.missing := by rw [State.missing, State.missing, h.acc, h.need]
    unfold readLoop; rw [hm]
    split
    · exact h
    · exact h.rp
  | cons x xs ih =>
    intro s t h _
    have hm : t.missing = s.missing := by rw [State.missing, State.missing, h.acc, h.need]
    rw [readLoop.eq_def, readLoop.eq_def (x :: xs) t]
    dsimp only
    rw [hm]
    split
    · exact h
    have hq := meanwhile_alike x xs s t h
    have go : ReadAlike L (match (s.await xs).meanwhile x with | .ok s' => readLoop xs s' | .error r => .refused r) (match (t.await xs).meanwhile x with | .ok s' => readLoop xs s' | .error r => .refused r) := by
      revert hq
      cases (s.await xs).meanwhile x <;> cases (t.await xs).meanwhile x <;> intro hq
      · trivial
      · exact hq.elim
      · exact hq.elim
      · exact ih _ _ hq.1 hq.2
    obtain ⟨a0, a1, a2, a3, a4, a5, a6, a7, a8, a9, a10, a11⟩ := h
    have recd : ∀ e e', Twin L ((s.await xs).record e) ((t.await xs).record e') := fun e e' => ⟨a0, a1, a2, rfl, a4, a5, a6, a7, a8, a9, a10, a11⟩
    cases x with
    | rxDeliver k =>
      have hg : t.granted k = s.granted k := by simp only [State.granted, hm, a2]
      dsimp only; rw [hg]
      split
      · exact recd _ _
      · exact ih _ _ ⟨a0, a1, by simp [a2], rfl, a4, a5, by simp [a6, a2], a7, a8, a9, a10, a11⟩ rfl
    | rxTimeout => exact recd _ _
    | rxErr e => exact ⟨rfl, recd _ _⟩
    | reset k => exact rfl
    | offer | arrive | hostWrite | hostRead | txOk | txErr | proceed => exact go

theorem afterRead_alike {s t : State} (h : Twin L s t) (o k k') (hk : ∀ s' t', Twin L s' t' → EndAlike L (k s') (k' t')) :
   EndAlike L (afterRead s o k) (afterRead t o k') := by
  unfold afterRead
  rw [h.inputs]
  have := readLoop_alike s.inputs s t h rfl
  revert this
  generalize readLoop s.inputs s = r
  generalize readLoop s.inputs t = r'
  intro h1
  cases r <;> cases r' <;> try exact h1.elim
  · exact hk _ _ h1
  · exact raise_alike h1 _
  · obtain ⟨rfl, h1⟩ := h1; exact raise_alike h1 _
  · exact endAlike_of_not_ended fun h => by have h1' := h.2.symm.trans h1; cases h1'
  · exact endAlike_of_not_ended fun h => by have h1' := h.2.symm.trans h1; cases h1'
  · intro t' e; cases e

/-- The next field's read begins in both. -/
theorem Twin.next {s t : State} (h : Twin L s t) (b b' n) : Twin L (s.takeField.enterRead b n) (t.takeField.enterRead b' n) :=
  ⟨h.rule, h.rule', h.rx, h.inputs, h.out, h.out', rfl, rfl, by simp [h.fbuf, h.acc], by simp [h.bcc, h.acc], h.abuf, h.rp⟩


/-- The frame is in: DECODE_RESP hands it over, EXCHANGE its payload (R104, R117). -/
theorem frameDone_alike {s t : State} (h : Twin L s t) : EndAlike L (frameDone .decodeResp s) (frameDone .exchange t) := by
  intro t' e he
  have hs : s.fbuf.length ≤ 65542 := by
    by_contra hn
    simp [frameDone, writeOut, State.memWrite, Config.maxOut, h.out] at e
    (split at e <;> simp_all); omega
  have e' : frameDone .decodeResp s = .next { s with out := s.fbuf }.finish := by
    show writeOut _ _ _ = _
    rw [writeOut_of_le h.out hs]
  rw [e'] at e; cases e
  show ∃ t', extractFrom t.fbuf _ (t.goto _) = _ ∧ _
  unfold extractFrom
  split
  · exact ⟨_, rfl, ⟨rfl, rfl⟩, .inr rfl⟩
  · dsimp only
    split
    · exact ⟨_, rfl, ⟨rfl, rfl⟩, .inr rfl⟩
    · unfold sliceFrame
      have hl : (((t.goto (.exchange .extract)).decodeLen t.fbuf).goto (.exchange .extract)).len = lendec L (s.fbuf.getD 3 0) (s.fbuf.getD 4 0) := by
        show lendec t.lengthRule (t.fbuf.getD 3 0) (t.fbuf.getD 4 0) = _
        rw [h.fbuf, h.rule']
      rw [hl, writeOut_of_le (s := ((t.goto (.exchange .extract)).decodeLen t.fbuf).goto (.exchange .extract)) h.out' (v := (t.fbuf.drop 5).take _) (by rw [List.length_take, List.length_drop, h.fbuf]; omega)]
      refine ⟨_, rfl, ⟨rfl, rfl⟩, .inl ⟨rfl, h.rx, h.inputs, fun _ => ?_, fun h0 => absurd rfl h0, fun h0 => by cases h0⟩⟩
      show (t.fbuf.drop 5).take _ = (s.fbuf.drop 5).take _
      rw [h.fbuf]; rfl

theorem rdBcc_alike {s t : State} (h : Twin L s t) : EndAlike L (rdBcc .decodeResp s) (rdBcc .exchange t) := by
  refine afterRead_alike h _ _ _ fun s' t' w => ?_
  rw [w.acc, w.bcc]
  split
  · exact frameDone_alike (s := { s' with fbuf := s'.fbuf ++ s'.acc }) ⟨w.rule, w.rule', w.rx, w.inputs, w.out, w.out', rfl, w.need, by simp [w.fbuf], rfl, w.abuf, w.rp⟩
  · exact raise_alike w _

theorem rdEnd_alike {s t : State} (h : Twin L s t) : EndAlike L (rdEnd .decodeResp s) (rdEnd .exchange t) := by
  refine afterRead_alike h _ _ _ fun s' t' w => ?_
  rw [w.acc]
  split
  · exact rdBcc_alike (w.next _ _ _)
  · exact raise_alike w _

theorem rdPayload_alike {s t : State} (h : Twin L s t) : EndAlike L (rdPayload .decodeResp s) (rdPayload .exchange t) := by
  refine afterRead_alike h _ _ _ fun s' t' w => ?_
  exact rdEnd_alike (w.next _ _ _)

theorem rdLen_alike {s t : State} (h : Twin L s t) : EndAlike L (rdLen .decodeResp s) (rdLen .exchange t) := by
  refine afterRead_alike h _ _ _ fun s' t' w => ?_
  dsimp only
  have hl : t'.readLen.len = s'.readLen.len := by
    show lendec t'.lengthRule _ _ = lendec s'.lengthRule _ _
    rw [w.rule, w.rule', w.acc]
  show EndAlike L (rdPayload _ (s'.readLen.takeField.enterRead _ (BitVec.ofNat 16 s'.readLen.len))) (rdPayload _ (t'.readLen.takeField.enterRead _ (BitVec.ofNat 16 t'.readLen.len)))
  rw [hl]
  exact rdPayload_alike (Twin.next (s := s'.readLen) (t := t'.readLen) ⟨w.rule, w.rule', w.rx, w.inputs, w.out, w.out', w.acc, w.need, w.fbuf, w.bcc, w.abuf, w.rp⟩ _ _ _)

theorem rdAddr_alike {s t : State} (h : Twin L s t) : EndAlike L (rdAddr .decodeResp s) (rdAddr .exchange t) := by
  refine afterRead_alike h _ _ _ fun s' t' w => ?_
  rw [w.acc, w.abuf]
  split
  · exact rdLen_alike (w.next _ _ _)
  · exact raise_alike w _

theorem rdStart_alike {s t : State} (h : Twin L s t) : EndAlike L (rdStart .decodeResp s) (rdStart .exchange t) := by
  refine afterRead_alike h _ _ _ fun s' t' w => ?_
  rw [w.acc]
  split
  · exact rdAddr_alike (w.next _ _ _)
  · exact raise_alike w _

end Sys2Proof.Machine
end

