-- ==== Sys2Proof/Tests/Slice0.lean ====
section
/-! SUPPORT. The model's own tests. Expected results are those of spec/95_test_vectors.md, or counted by hand from the rules, never the model's own answer. After them,
one witness per statement of Certificates/Slice0/Obligations.lean that has hypotheses: states and operands that meet all of them. -/

namespace Sys2Proof.Tests

open Sys2Proof.Machine

/-! ### Helpers -/

/-- The block after reset with `IN`, the residue and the timeline as given. -/
def box (operand rx : Bytes) (xs : List Input) : State :=
  { State.reset with inBuf := operand, rxResidue := rx, inputs := xs }

/-- The same with `LENGTH_RULE = FIXED`. -/
def boxFixed (operand rx : Bytes) (xs : List Input) : State := { box operand rx xs with lengthRule := .fixed }

/-- The same, idle with one request offered. -/
def asked (w : Word) (operand rx : Bytes) (xs : List Input) : State := { box [] rx xs with offered := [⟨⟨w, operand⟩, 0⟩] }

/-- `STATUS`, `OUT` and the residue of an operation that ended with a response. -/
def answer : Result → Option (BitVec 8 × Bytes × Bytes)
  | .next t => if t.respPending then some (t.status, t.out, t.rxResidue) else none
  | .fault _ => none
  | .refused _ => none

/-- What stands on the transmit line. -/
def line : Result → Bytes
  | .next t => t.txLine
  | .fault _ => []
  | .refused _ => []

/-- What the state after it shows of `SEQ`, the response and the offers. -/
def outcome : Result → Option (Sequencer × Bool × List Offer)
  | .next t => some (t.seq, t.respPending, t.offered)
  | .fault _ => none
  | .refused _ => none

/-- Frames of section 2 of the vectors. -/
def frameG : Bytes := [0x02, 0x30, 0x35, 0x00, 0x02, 0x52, 0x46, 0x03, 0x12]
def frameR : Bytes := [0x02, 0x30, 0x35, 0x00, 0x06, 0x58, 0x58, 0x30, 0x30, 0x30, 0x38, 0x03, 0x0A]
def ackA5 : Bytes := [0x06, 0x30, 0x35]

/-- The greedy transport's answers: `n` deliveries of all it holds. -/
def greedy (n : Nat) : List Input := List.replicate n (.rxDeliver 65535)

/-! ### Decoding: words written out bit by bit from R54 and R55 -/

theorem test_word_readExact : decodeWord (BitVec.ofNat 32 0b0000000000000011_00000000_00000_000) = .ok (.readExact 0 3) := by decide
theorem test_word_checksum : decodeWord (BitVec.ofNat 32 0b1010101111001101_00010010_00000_001) = .ok (.checksum 0x12 0xABCD) := by decide
theorem test_word_encodeCmd : decodeWord (BitVec.ofNat 32 0b0001001000110100_00000101_00000_010) = .ok (.encodeCmd 5 0x1234) := by decide
theorem test_word_encodeEnq : decodeWord (BitVec.ofNat 32 0b0000000000000000_00010000_00000_011) = .ok (.encodeEnq 16 0) := by decide
theorem test_word_decodeResp : decodeWord (BitVec.ofNat 32 0b0000000000000000_00000010_00000_100) = .ok (.decodeResp 2 0) := by decide
theorem test_word_extractPayload : decodeWord (BitVec.ofNat 32 0b0000000000000000_00000000_00000_101) = .ok (.extractPayload 0 0) := by decide
theorem test_word_exchange : decodeWord (BitVec.ofNat 32 0b0000000000000000_00001111_00000_110) = .ok (.exchange 15 0) := by decide

/-- Vectors Q1 to Q4: reserved words. -/
theorem test_word_reserved :
    decodeWord 0x00000007 = .error .reservedOp ∧ decodeWord 0x00000008 = .error .reservedBits ∧
      decodeWord 0x00000512 = .error .reservedBits ∧ decodeWord 0x0000050C = .error .reservedBits := by decide

theorem test_table_word : decodeTableWord 32 0x00000506 = some (.exchange 5 0) ∧ decodeTableWord 32 7 = none := by decide

/-- From reset, the placed word is accepted and run by the very next step (vector C1). -/
theorem test_fetch_word : answer (step (State.reset.withFetchWord 32 0x00000001)) = some (0, [0x00], []) := by decide

/-! ### WellFormed: ill-formed terms that each check refuses -/

theorem test_operand_too_long (b : Bytes) (h : b.length = 65543) : Request.fits ⟨0, b⟩ = false := by simp [Request.fits, Config.maxIn, h]
theorem test_operand_longest (b : Bytes) (h : b.length = 65542) : Request.fits ⟨0, b⟩ = true := by simp [Request.fits, Config.maxIn, h]
theorem test_legalWord_refuses : legalWord 7 = false ∧ legalWord 8 = false ∧ legalWord 0xFF = false ∧ legalWord 0xFFFFFF06 = true := by decide
theorem test_wellFormed_refuses : Request.wellFormed ⟨7, []⟩ = false ∧ Request.wellFormed ⟨6, []⟩ = true := by decide
theorem test_assembled_refuses :
    (Instr.readExact 1 3).assembled = false ∧ (Instr.checksum 0 1).assembled = false ∧ (Instr.encodeCmd 5 1).assembled = false ∧
      (Instr.encodeEnq 5 1).assembled = false ∧ (Instr.decodeResp 5 1).assembled = false ∧ (Instr.extractPayload 1 0).assembled = false ∧
      (Instr.exchange 5 1).assembled = false := by decide

/-- An operand the channel cannot carry is never offered (U14). -/
theorem test_offer_too_long (b : Bytes) (h : b.length = 65543) :
    step (box [] [] [.offer ⟨⟨1, b⟩, 0⟩]) = .refused .operandTooLong := by
  have : Request.fits ⟨1, b⟩ = false := by simp [Request.fits, Config.maxIn, h]
  show (if Request.fits ⟨1, b⟩ then _ else Host.Outcome.refused Refusal.operandTooLong) = _
  rw [this]; rfl

/-! ### READ_EXACT (vectors R5, R8) -/

theorem test_readExact_short : answer (exec (.readExact 0 4) (box [] [1, 2] (greedy 1 ++ [.rxTimeout]))) = some (0, [1, 2], []) := by decide
theorem test_readExact_error_keeps :
    answer (exec (.readExact 0 3) (box [] [0xAA] [.rxDeliver 1, .rxErr ⟨7⟩])) = some (3, [0xAA], []) := by decide

/-! ### CHECKSUM (vectors C6, Q5) -/

theorem test_checksum_fold : answer (exec (.checksum 0 0) (box (frameG.take 8) [] [])) = some (0, [0x12], []) := by decide
theorem test_checksum_ignores_fields : answer (step (asked 0xFFFFFF01 [1] [] [])) = some (0, [1], []) := by decide

/-! ### ENCODE_CMD (vectors E11, E15) -/

theorem test_encodeCmd_raw :
    answer (exec (.encodeCmd 2 0) (box [2, 3] [] [])) = some (0, [0x02, 0x30, 0x32, 0x00, 0x02, 0x02, 0x03, 0x03, 0x00], []) := by decide
theorem test_encodeCmd_address_first : answer (exec (.encodeCmd 16 0) (box [] [] [])) = some (1, [], []) := by decide

/-! ### ENCODE_ENQ (vectors E23, E25) -/

theorem test_encodeEnq_tens : answer (exec (.encodeEnq 10 0) (box [] [] [])) = some (0, [0x05, 0x31, 0x30], []) := by decide
theorem test_encodeEnq_address : answer (exec (.encodeEnq 16 0) (box [] [] [])) = some (1, [], []) := by decide

/-! ### DECODE_RESP (vectors D16, D22) -/

theorem test_decodeResp_false_accept :
    answer (exec (.decodeResp 5 0) (box [] [0x02, 0x30, 0x35, 0x00, 0x00, 0x03, 0x04, 0x03, 0x01] (greedy 6))) =
      some (0, [0x02, 0x30, 0x35, 0x00, 0x00, 0x03, 0x04], [0x03, 0x01]) := by decide
theorem test_decodeResp_short_length :
    answer (exec (.decodeResp 5 0) (box [] (frameG.set 4 1) (greedy 6))) = some (11, [], [0x03, 0x12]) := by decide

/-! ### EXTRACT_PAYLOAD (vectors X6, X7) -/

theorem test_extractPayload_short : answer (exec (.extractPayload 0 0) (box [0x02, 0x30, 0x35, 0x00, 0x03, 0x41, 0x42] [] [])) = some (13, [], []) := by decide
theorem test_extractPayload_unchecked :
    answer (exec (.extractPayload 0 0) (box [0xFF, 0x00, 0x00, 0x00, 0x02, 0x41, 0x42, 0x99] [] [])) = some (0, [0x41, 0x42], []) := by decide

/-! ### EXCHANGE (vectors S1, S12) -/

theorem test_exchange_reply :
    answer (exec (.exchange 5 0) (box [0x52, 0x46] (ackA5 ++ frameR) ([.txOk] ++ greedy 2 ++ [.txOk] ++ greedy 6))) =
      some (0, [0x58, 0x58, 0x30, 0x30, 0x30, 0x38], []) := by decide
theorem test_exchange_not_ack :
    line (exec (.exchange 5 0) (box [0x52, 0x46] [0x05, 0x30, 0x35] ([.txOk] ++ greedy 1))) = frameG ∧
      answer (exec (.exchange 5 0) (box [0x52, 0x46] [0x05, 0x30, 0x35] ([.txOk] ++ greedy 1))) = some (4, [], [0x30, 0x35]) := by decide

/-! ### Reset (vectors Z3, Z4) -/

theorem test_reset_cuts_write :
    line (exec (.exchange 5 0) (box [0x52, 0x46] [] [.reset 4])) = [0x02, 0x30, 0x35, 0x00] ∧
      answer (exec (.exchange 5 0) (box [0x52, 0x46] [] [.reset 4])) = none := by decide
theorem test_reset_keeps_offer :
    outcome (exec (.readExact 0 1) (box [] [] [.offer ⟨⟨1, [9]⟩, 0⟩, .reset 0])) = some (.idle, false, [⟨⟨1, [9]⟩, 0⟩]) := by decide

/-- R142, R145, R146: a reset before acceptance keeps the request, one while CHECKSUM runs cuts it off, one after its response lands on the idle block. -/
theorem test_reset_at_any_time :
    outcome (step (asked 1 [9] [] [.reset 0])) = some (.idle, false, [⟨⟨1, [9]⟩, 0⟩]) ∧
      outcome (step (asked 1 [9] [] [.proceed, .reset 0])) = some (.idle, false, []) ∧
      outcome (step (asked 1 [9] [] [.proceed, .proceed, .reset 0])) = some (.idle, true, []) := by decide

/-- R128: at the end of EXCHANGE reset wins over the response. -/
theorem test_reset_wins_at_the_end :
    outcome (step (asked 0x00000506 [0x52, 0x46] [] [.proceed, .txOk, .rxTimeout, .reset 0])) = some (.idle, false, []) := by decide

/-! ### Interleaved exchanges (R139, U7) -/

/-- The idle block with a request of exchange `x` offered, after the exchanges `past` used the connection, the latest first. -/
def askedBy (x : Nat) (past : List Nat) (w : Word) (operand : Bytes) (xs : List Input) : State :=
  { box [] [] xs with offered := [⟨⟨w, operand⟩, x⟩], exchanges := past }

/-- R139's example: exchange 2's READ_EXACT came between exchange 1's command and its DECODE_RESP. -/
theorem test_interleaved_refused : step (askedBy 1 [2, 1] 0x00000504 [] [.rxTimeout]) = .refused .exchangesInterleaved := by rfl

/-- Without exchange 2, or for exchange 3, DECODE_RESP runs; CHECKSUM does not use the connection. -/
theorem test_in_turn_runs :
    answer (step (askedBy 1 [1] 0x00000504 [] [.rxTimeout])) = some (7, [], []) ∧
      answer (step (askedBy 3 [2, 1] 0x00000504 [] [.rxTimeout])) = some (7, [], []) ∧
      answer (step (askedBy 1 [2, 1] 0x00000001 [9] [])) = some (0, [9], []) := by decide

/-! ### Witnesses -/

/-- Waiting for the first of 3 bytes. -/
def waitingRead : State := { State.reset with req := 0x00030000, need := 3, seq := .busy .readExact }

/-- Waiting for the answer to the command's write. -/
def waitingWrite : State :=
  { box [0x52, 0x46] [] [] with req := 0x00000506, fbuf := frameG, bcc := 0x12, seq := .busy (.exchange .txCmd) }

theorem waitingRead_bounded : waitingRead.Bounded := ⟨by decide, by decide, by decide, by decide, by decide, by decide⟩
theorem waitingWrite_bounded : waitingWrite.Bounded := ⟨by decide, by decide, by decide, by decide, by decide, by decide⟩

theorem waitingRead_inv (xs : List Input) : ({ waitingRead with inputs := xs } : State).Inv := by
  refine ⟨waitingRead_bounded, (by decide : waitingRead.status.toNat ≤ 15), ?_, ?_, .nil, ?_⟩
  · intro r hr; cases hr
  · intro e he; cases he
  · exact ⟨rfl, rfl, rfl, (by decide : decodeWord waitingRead.req = .ok (.readExact (addrField waitingRead.req) waitingRead.count)),
      (by decide : waitingRead.need = waitingRead.count)⟩

theorem waitingWrite_inv (xs : List Input) : ({ waitingWrite with inputs := xs } : State).Inv := by
  refine ⟨waitingWrite_bounded, (by decide : waitingWrite.status.toNat ≤ 15), ?_, ?_, .nil, ?_⟩
  · intro r hr; cases hr
  · intro e he; cases he
  · exact ⟨rfl, rfl, rfl, (by decide : decodeWord waitingWrite.req = .ok (.exchange (addrField waitingWrite.req) waitingWrite.count)),
      (by decide : waitingWrite.address ≤ Config.addrMax),
      (by decide : waitingWrite.fbuf = commandFrame waitingWrite.lengthRule waitingWrite.address waitingWrite.inBuf),
      (by decide : 1 ≤ waitingWrite.inBuf.length), (by decide : waitingWrite.inBuf.length ≤ Config.maxPayload)⟩

theorem witness_EncodeOfDecodeIsTheWord : decodeWord 0xFFFFFF06 = .ok (.exchange 255 65535) ∧ decodeWord 0 = .ok (.readExact 0 0) := by decide

theorem witness_OperationCodeSelectsOperation :
    ∀ op : BitVec 3, ((0xFFFFFF00 : Word) ||| op.setWidth 32).extractLsb' 3 5 = 0 ∧
      ((0xFFFFFF00 : Word) ||| op.setWidth 32).extractLsb' 0 3 = op ∧ (0x00000008 : Word).extractLsb' 3 5 ≠ 0 ∧ (0x00000086 : Word).extractLsb' 3 5 ≠ 0 := by decide

theorem witness_StepRunsAcceptedOperation :
    (asked 0x00000506 [0x52] [] []).seq = .idle ∧ (asked 0x00000506 [0x52] [] []).offered = [⟨⟨0x00000506, [0x52]⟩, 0⟩] ∧
      decodeWord 0x00000506 = .ok (.exchange 5 0) ∧ resetNext (asked 0x00000506 [0x52] [] []).inputs = false ∧
      usesTransport (.exchange 5 0) = true ∧ returnsTo 0 (asked 0x00000506 [0x52] [] []).exchanges = false ∧ returnsTo 1 [1, 0] = false ∧
      returnsTo 2 [1, 0] = false ∧ usesTransport (.checksum 0 0) = false ∧ returnsTo 0 [1, 0] = true := by decide

theorem witness_AcceptanceLatchesRequest :
    (∃ t, step (asked 0x00000001 [9] [] []) = .next t ∧ t.req = 0x00000001 ∧ t.inBuf = [9]) ∧
      (∃ t, step (asked 0x00010000 [9] [] [.reset 0]) = .next t ∧ t.AsReset) := ⟨⟨_, rfl, rfl, rfl⟩, _, rfl, rfl⟩

theorem witness_ReservedEncodingEndsIllegal :
    (asked 7 [] [] []).seq = .idle ∧ (asked 7 [] [] []).offered = [⟨⟨7, []⟩, 0⟩] ∧ (7 : Word).extractLsb' 0 3 = 7 ∧
      (asked 8 [] [] []).offered = [⟨⟨8, []⟩, 0⟩] ∧ (8 : Word).extractLsb' 3 5 ≠ 0 ∧ (0xFE : Word).extractLsb' 3 5 ≠ 0 ∧
      resetNext (asked 7 [] [] [.proceed, .proceed, .reset 0]).inputs = false ∧
      resetNext (afterMove (asked 7 [] [] [.proceed, .proceed, .reset 0]).inputs) = false := by decide

theorem witness_OfferedRequestsAreHeld :
    outcome (exec (.readExact 0 1) (box [] [] [.offer ⟨⟨7, []⟩, 0⟩, .offer ⟨⟨1, [2]⟩, 0⟩, .rxTimeout])) = some (.idle, true, [⟨⟨7, []⟩, 0⟩, ⟨⟨1, [2]⟩, 0⟩]) ∧
      waitingRead.seq = .busy .readExact ∧ ∃ t, step { waitingRead with inputs := [.offer ⟨⟨7, []⟩, 0⟩] } = .next t ∧ t.offered = [⟨⟨7, []⟩, 0⟩] :=
  ⟨by decide, rfl, _, rfl, rfl⟩

theorem witness_OneResponsePerOperation :
    (∃ t, exec (.checksum 0 0) (box [] [] []) = .next t ∧ t.Ended) ∧ (∃ t, exec (.readExact 0 1) (box [] [] []) = .next t ∧ t.Waits) ∧
      (∃ t, exec (.readExact 0 1) (box [] [] [.reset 0]) = .next t ∧ t.response = none) ∧
      (∃ t, step (asked 0x00000001 [9] [] [.proceed, .reset 0]) = .next t ∧ t.response = none) ∧
      ({ waitingRead with inputs := [.rxTimeout] } : State).Inv ∧ ∃ t, step { waitingRead with inputs := [.rxTimeout] } = .next t ∧ t.Ended :=
  ⟨⟨_, rfl, rfl, rfl⟩, ⟨_, rfl, rfl, rfl, rfl⟩, ⟨_, rfl, rfl⟩, ⟨_, rfl, rfl⟩, waitingRead_inv _, _, rfl, rfl, rfl⟩

theorem witness_OnlyAnUnansweredRequestIsStuck :
    waitingRead.awaiting = true ∧ waitingRead.inputs = [] ∧ step waitingRead = .fault .transportHang := ⟨rfl, rfl, rfl⟩

/-- An operation that waits with one byte missing refuses the offer of an operand the channel cannot carry. -/
theorem readExactLoop_offer {s : State} {r : Offer} (hm : s.missing = 1) (hi : s.inputs = [.offer r]) (hf : r.fits = false) :
    readExactLoop s = .refused .operandTooLong := by
  simp [readExactLoop, hi, readLoop, hm, State.meanwhile, hf]

theorem witness_OutputNeverOverflows (b : Bytes) (h : b.length = 65543) :
    exec (.readExact 0 1) (box [] [] [.hostRead 0 1]) = .refused .transportInterference ∧
      exec (.readExact 0 1) (box [] [] [.offer ⟨⟨0, b⟩, 0⟩]) = .refused .operandTooLong :=
  ⟨rfl, readExactLoop_offer
    (by decide : (((box [] [] []).start (.readExact 0 1) .readExact).enterRead .readExact ((box [] [] []).start (.readExact 0 1) .readExact).count).missing = 1) rfl (test_operand_too_long b h)⟩

theorem witness_XorfoldLaws : [1, 2, 4].Perm ([4, 1, 2] : Bytes) ∧ (0 : Byte) ≠ 0x80 := by decide

theorem witness_EncodeCmdBuildsFrame (l : Nat) (h : l = 1 ∨ l = 65535) :
    (0 : BitVec 8).toNat ≤ 15 ∧ (15 : BitVec 8).toNat ≤ 15 ∧ 1 ≤ (box (List.replicate l 0) [] []).inBuf.length ∧
      (box (List.replicate l 0) [] []).inBuf.length ≤ 65535 ∧ (boxFixed (List.replicate l 0) [] []).inBuf.length ≤ 65535 := by
  have e : (List.replicate l (0 : Byte)).length = l := List.length_replicate
  simp only [box, boxFixed, e]
  refine ⟨by decide, by decide, ?_, ?_, ?_⟩ <;> omega

theorem witness_EncodeCmdErrors :
    15 < (16 : BitVec 8).toNat ∧ 15 < (255 : BitVec 8).toNat ∧ (box [] [] []).inBuf = [] ∧
      65535 < (box (List.replicate 65536 0) [] []).inBuf.length := by
  refine ⟨by decide, by decide, rfl, ?_⟩
  show 65535 < (List.replicate 65536 (0 : Byte)).length
  rw [List.length_replicate]; omega

theorem witness_EncodeEnqBuildsEnquiry :
    (0 : BitVec 8).toNat ≤ 15 ∧ (15 : BitVec 8).toNat ≤ 15 ∧ 15 < (16 : BitVec 8).toNat ∧ 15 < (255 : BitVec 8).toNat := by decide

theorem witness_FixedLengthField : lenenc .fixed 65535 = (0xFF, 0xFF) ∧ 65535 ≤ 65535 ∧ lenenc .fixed 0 = (0, 0) := by decide

theorem witness_ExtractPayloadSlices :
    (box [0, 0, 0, 0] [] []).inBuf.length < 5 ∧ (box [0, 0, 0, 0, 0] [] []).inBuf = 0 :: 0 :: 0 :: 0 :: 0 :: [] ∧
      lendec .historical 0 0 ≤ ([] : Bytes).length ∧ (box [0, 0, 0, 0, 1] [] []).inBuf = 0 :: 0 :: 0 :: 0 :: 1 :: [] ∧
      ([] : Bytes).length < lendec .historical 0 1 := by decide

theorem witness_ComputeOperationsFrame :
    (∃ t, exec (.checksum 0 0) (box [] [] []) = .next t) ∧ (∃ t, exec (.encodeCmd 16 0) (box [] [] []) = .next t) ∧
      (∃ t, exec (.encodeCmd 15 0) (box [1] [] []) = .next t) ∧ (∃ t, exec (.encodeEnq 15 0) (box [] [] []) = .next t ∧ t.status = 0) ∧
      (∃ t, exec (.encodeEnq 16 0) (box [] [] []) = .next t ∧ t.status ≠ 0) ∧ (∃ t, exec (.extractPayload 0 0) (box [] [] []) = .next t) :=
  ⟨⟨_, rfl⟩, ⟨_, rfl⟩, ⟨_, rfl⟩, ⟨_, rfl, rfl⟩, ⟨_, rfl, by decide⟩, _, rfl⟩

theorem feeds_ones (n : Nat) : Feeds (List.replicate n 1) n := by
  refine ⟨fun k hk => ?_, by simp⟩
  rw [List.eq_of_mem_replicate hk]

/-- The block with a residue and a one-byte transport's `n` answers, then `rest`. -/
def oneByOne (operand rx : Bytes) (n : Nat) (rest : List Input) : State := box operand rx (deliveries (List.replicate n 1) ++ rest)

theorem witness_ReadExactGathersCount (rest : List Input) :
    (oneByOne [] ([6, 7] ++ [8]) 2 rest).rxResidue = [6, 7] ++ [8] ∧ ([6, 7] : Bytes).length = (2 : BitVec 16).toNat ∧
      Feeds (List.replicate 2 1) ([6, 7] : Bytes).length ∧ Feeds [65535, 1] ([6, 7] : Bytes).length ∧
      (oneByOne [] ([6, 7] ++ [8]) 2 rest).inputs = deliveries (List.replicate 2 1) ++ rest ∧
      ([] : Bytes).length = (0 : BitVec 16).toNat ∧ Feeds [] 0 :=
  ⟨rfl, rfl, feeds_ones 2, ⟨by simp, by simp⟩, rfl, rfl, by simp, by simp⟩

theorem witness_ReadExactShortIsNoError (rest : List Input) :
    (oneByOne [] [6] 1 (.rxTimeout :: rest)).rxResidue.length < (2 : BitVec 16).toNat ∧ Feeds (List.replicate 1 1) 1 ∧
      (oneByOne [] [6] 1 (.rxTimeout :: rest)).inputs = deliveries (List.replicate 1 1) ++ .rxTimeout :: rest ∧
      (oneByOne [] [] 0 (.rxTimeout :: rest)).rxResidue.length < (1 : BitVec 16).toNat ∧ Feeds [] 0 :=
  ⟨(by decide : 1 < (2 : BitVec 16).toNat), feeds_ones 1, rfl, (by decide : 0 < (1 : BitVec 16).toNat), by simp, by simp⟩

theorem witness_ReadExactErrorKeepsBytes (e : IoErr) (rest : List Input) :
    (oneByOne [] ([6] ++ [7]) 1 (.rxErr e :: rest)).rxResidue = [6] ++ [7] ∧ ([6] : Bytes).length < (2 : BitVec 16).toNat ∧
      (oneByOne [] ([6] ++ [7]) 1 (.rxErr e :: rest)).inputs = deliveries (List.replicate 1 1) ++ .rxErr e :: rest ∧
      ([] : Bytes).length < (1 : BitVec 16).toNat := ⟨rfl, by decide, rfl, by decide⟩

theorem witness_ReadExactNeverOverreads :
    (∃ t, exec (.readExact 0 2) (oneByOne [] [1, 2, 3] 2 []) = .next t ∧ t.out = [1, 2]) ∧
      ∃ t, exec (.readExact 0 2) (oneByOne [] [1, 2, 3] 1 []) = .next t ∧ t.Waits ∧ t.history.length = 1 :=
  ⟨⟨_, rfl, rfl⟩, _, rfl, ⟨rfl, rfl, rfl⟩, rfl⟩

/-- A residue of a frame for address 5 with payload `p` and one byte more, and one answer for each byte of the frame. -/
def framed (p : Bytes) : State := oneByOne [] (frameWith 5 0 (BitVec.ofNat 8 p.length) p ++ [0xAA]) (7 + p.length) []

theorem witness_DecodeRespAcceptsFrame :
    (5 : BitVec 8).toNat ≤ 15 ∧ ([] : Bytes).length = lendec .historical 0 0 ∧ ([0x52, 0x46] : Bytes).length = lendec .historical 0 2 ∧
      (framed [0x52, 0x46]).lengthRule = .historical ∧
      (framed [0x52, 0x46]).rxResidue = [0x02, 0x30, 0x35, 0, 2] ++ [0x52, 0x46] ++ [0x03] ++
        [xorfold ([0x02, 0x30, 0x35, 0, 2] ++ [0x52, 0x46] ++ [0x03])] ++ [0xAA] ∧
      (framed []).rxResidue = [0x02, 0x30, 0x35, 0, 0] ++ [] ++ [0x03] ++ [xorfold ([0x02, 0x30, 0x35, 0, 0] ++ [] ++ [0x03])] ++ [0xAA] ∧
      (framed [0x52, 0x46]).inputs = deliveries (List.replicate 9 1) ++ [] := by decide

theorem witness_DecodeRespRejectsAddressFirst : 15 < (16 : BitVec 8).toNat ∧ 15 < (255 : BitVec 8).toNat := by decide

theorem witness_DecodeRespRejectsStartAndAddress :
    (0 : BitVec 8).toNat ≤ 15 ∧ (15 : BitVec 8).toNat ≤ 15 ∧ Feeds (List.replicate 3 1) 3 ∧ (oneByOne [] ackA5 3 []).inputs = deliveries (List.replicate 3 1) ++ [] ∧
      ((0x06 : Byte) ≠ 0x02 ∧ (oneByOne [] ackA5 3 []).rxResidue = 0x06 :: [0x30, 0x35]) ∧
      ([0x30, 0x36] ≠ [BitVec.ofNat 8 (0x30 + (5 : BitVec 8).toNat / 10), BitVec.ofNat 8 (0x30 + (5 : BitVec 8).toNat % 10)] ∧
        (oneByOne [] [0x02, 0x30, 0x36] 3 []).rxResidue = [0x02, 0x30, 0x36] ++ []) :=
  ⟨by decide, by decide, feeds_ones 3, rfl, ⟨by decide, rfl⟩, by decide, rfl⟩

theorem witness_DecodeRespRejectsEndAndChecksum :
    (5 : BitVec 8).toNat ≤ 15 ∧ ([0x52] : Bytes).length = lendec .historical 0 1 ∧ Feeds (List.replicate 8 1) 8 ∧
      ((0x04 : Byte) ≠ 0x03 ∧ (oneByOne [] [0x02, 0x30, 0x35, 0, 1, 0x52, 0x04] 8 []).rxResidue = [0x02, 0x30, 0x35, 0, 1] ++ [0x52] ++ [0x04] ++ []) ∧
      ((0x00 : Byte) ≠ xorfold ([0x02, 0x30, 0x35, 0, 1] ++ [0x52] ++ [0x03]) ∧
        (oneByOne [] [0x02, 0x30, 0x35, 0, 1, 0x52, 0x03, 0x00] 8 []).rxResidue = [0x02, 0x30, 0x35, 0, 1] ++ [0x52] ++ [0x03, 0x00] ++ []) ∧
      (oneByOne [] [0x02, 0x30, 0x35, 0, 1, 0x52, 0x04] 8 []).inputs = deliveries (List.replicate 8 1) ++ [] :=
  ⟨by decide, by decide, feeds_ones 8, ⟨by decide, rfl⟩, ⟨by decide, rfl⟩, rfl⟩

/-- The first `j` bytes of frame G, one at a time, then a timeout: a witness at every boundary of the statuses. -/
theorem witness_DecodeRespShortReadKinds (j : Nat) (hj : j = 0 ∨ j = 1 ∨ j = 2 ∨ j = 3 ∨ j = 4 ∨ j = 5 ∨ j = 6 ∨ j = 7 ∨ j = 8) :
    (5 : BitVec 8).toNat ≤ 15 ∧ ([0x52, 0x46] : Bytes).length = lendec .historical 0 2 ∧ j < 7 + ([0x52, 0x46] : Bytes).length ∧
      (oneByOne [] ((frameWith 5 0 2 [0x52, 0x46]).take j) j [.rxTimeout]).rxResidue = (frameWith (5 : BitVec 8).toNat 0 2 [0x52, 0x46]).take j ∧
      Feeds (List.replicate j 1) j ∧
      (oneByOne [] ((frameWith 5 0 2 [0x52, 0x46]).take j) j [.rxTimeout]).inputs = deliveries (List.replicate j 1) ++ .rxTimeout :: [] :=
  ⟨by decide, by decide, by simp; omega, rfl, feeds_ones j, rfl⟩

theorem witness_DecodeRespIoErrorAtEveryStep (e : IoErr) (j : Nat) (hj : j = 0 ∨ j = 5 ∨ j = 8) :
    (5 : BitVec 8).toNat ≤ 15 ∧ ([0x52, 0x46] : Bytes).length = lendec .historical 0 2 ∧ j < 7 + ([0x52, 0x46] : Bytes).length ∧
      (oneByOne [] ((frameWith 5 0 2 [0x52, 0x46]).take j ++ [0xAA]) j [.rxErr e]).rxResidue =
        (frameWith (5 : BitVec 8).toNat 0 2 [0x52, 0x46]).take j ++ [0xAA] ∧
      (oneByOne [] ((frameWith 5 0 2 [0x52, 0x46]).take j ++ [0xAA]) j [.rxErr e]).inputs = deliveries (List.replicate j 1) ++ .rxErr e :: [] :=
  ⟨by decide, by decide, by simp; omega, rfl, rfl⟩

/-- Vectors D23 (a payload byte) and D8 (the checksum byte). -/
theorem witness_ChecksumCatchesPayloadByte :
    (5 : BitVec 8).toNat ≤ 15 ∧ ([] ++ 0x52 :: [0x46] : Bytes).length = lendec .historical 0 2 ∧ Feeds (List.replicate 9 1) (8 + 0 + 1) ∧
      (0x52 : Byte) ≠ 0x53 ∧ (0x12 : Byte) = xorfold (frameBody 5 0 2 ([] ++ 0x52 :: [0x46])) ∧
      (oneByOne [] [0x02, 0x30, 0x35, 0, 2, 0x53, 0x46, 0x03, 0x12] 9 []).rxResidue = frameBody 5 0 2 ([] ++ 0x53 :: [0x46]) ++ [0x12] ∧
      (0x13 : Byte) ≠ xorfold (frameBody 5 0 2 ([] ++ 0x52 :: [0x46])) ∧
      (oneByOne [] [0x02, 0x30, 0x35, 0, 2, 0x52, 0x46, 0x03, 0x13] 9 []).rxResidue = frameBody 5 0 2 ([] ++ 0x52 :: [0x46]) ++ [0x13] :=
  ⟨by decide, by decide, feeds_ones 9, by decide, by decide, rfl, by decide, rfl⟩

theorem witness_CodecRoundTrip :
    (15 : BitVec 8).toNat ≤ 15 ∧ 1 ≤ ([0x52, 0x46] : Bytes).length ∧ ([0x52, 0x46] : Bytes).length ≤ 255 ∧
      (box [0x52, 0x46] [] []).inBuf = [0x52, 0x46] ∧ (List.replicate 255 (0 : Byte)).length ≤ 255 ∧
      (List.replicate 65535 (0 : Byte)).length ≤ 65535 ∧ (boxFixed [] [] []).lengthRule = .fixed ∧
      Feeds (List.replicate 9 1) (7 + ([0x52, 0x46] : Bytes).length) ∧ (framed [0x52, 0x46]).inputs = deliveries (List.replicate 9 1) ++ [] ∧
      (framed [0x52, 0x46]).rxResidue = frameG ++ [0xAA] ∧ (box frameG [] []).inBuf = frameG ∧
      answer (exec (.encodeCmd 5 0) (box [0x52, 0x46] [] [])) = some (0, frameG, []) :=
  ⟨by decide, by decide, by decide, rfl, by rw [List.length_replicate], by rw [List.length_replicate], rfl, feeds_ones 9, rfl, by decide, rfl, by decide⟩

theorem witness_LongHistoricalPayloadIsMisframed (l : Nat) (h : l = 256 ∨ l = 65535) :
    (15 : BitVec 8).toNat ≤ 15 ∧ (box (List.replicate l 0) [] []).lengthRule = .historical ∧
      256 ≤ (box (List.replicate l 0) [] []).inBuf.length ∧ (box (List.replicate l 0) [] []).inBuf.length ≤ 65535 := by
  have e : (List.replicate l (0 : Byte)).length = l := List.length_replicate
  simp only [box, e]
  refine ⟨by decide, rfl, ?_, ?_⟩ <;> omega

/-- Vector S17, one byte at a time, with a byte behind the frame. -/
theorem witness_ExchangeCompletes :
    (5 : BitVec 8).toNat ≤ 15 ∧ 1 ≤ ([0x52, 0x46] : Bytes).length ∧ ([0x52, 0x46] : Bytes).length ≤ 65535 ∧
      ([0x58, 0x58, 0x30, 0x30, 0x30, 0x38] : Bytes).length = lendec .historical 0 6 ∧
      (box [0x52, 0x46] (ackA5 ++ frameR ++ [0xAA]) []).rxResidue =
        [0x06, 0x30, 0x35] ++ frameWith 5 0 6 [0x58, 0x58, 0x30, 0x30, 0x30, 0x38] ++ [0xAA] ∧
      Feeds (List.replicate 3 1) 3 ∧ Feeds (List.replicate 13 1) (7 + ([0x58, 0x58, 0x30, 0x30, 0x30, 0x38] : Bytes).length) ∧
      (box [0x52, 0x46] (ackA5 ++ frameR ++ [0xAA])
        (.txOk :: deliveries (List.replicate 3 1) ++ .txOk :: deliveries (List.replicate 13 1))).inputs =
        .txOk :: deliveries (List.replicate 3 1) ++ .txOk :: deliveries (List.replicate 13 1) ++ [] :=
  ⟨by decide, by decide, by decide, by decide, by decide, feeds_ones 3, feeds_ones 13, rfl⟩

theorem witness_ExchangeChecksCommandFirst :
    15 < (16 : BitVec 8).toNat ∧ (box [] [] []).inBuf = [] ∧ 65535 < (box (List.replicate 65536 0) [] []).inBuf.length := by
  refine ⟨by decide, rfl, ?_⟩
  show 65535 < (List.replicate 65536 (0 : Byte)).length
  rw [List.length_replicate]; omega

theorem witness_ExchangeWriteFailures (e : IoErr) (n : Nat) :
    (5 : BitVec 8).toNat ≤ 15 ∧ (box [0x52, 0x46] ackA5 [.txErr e n]).inputs = .txErr e n :: [] ∧
      (box [0x52, 0x46] ackA5 []).rxResidue = [0x06, BitVec.ofNat 8 (0x30 + (5 : BitVec 8).toNat / 10), BitVec.ofNat 8 (0x30 + (5 : BitVec 8).toNat % 10)] ++ [] ∧
      Feeds (List.replicate 3 1) 3 ∧
      (box [0x52, 0x46] ackA5 (.txOk :: deliveries (List.replicate 3 1) ++ [.txErr e n])).inputs =
        .txOk :: deliveries (List.replicate 3 1) ++ .txErr e n :: [] :=
  ⟨by decide, rfl, by decide, feeds_ones 3, rfl⟩

theorem witness_ExchangeAcknowledgementFailures (e : IoErr) :
    (5 : BitVec 8).toNat ≤ 15 ∧ 1 ≤ ([0x52, 0x46] : Bytes).length ∧ Feeds (List.replicate 3 1) 3 ∧
      ((box [0x52, 0x46] [0x15, 0x30, 0x35] []).rxResidue = 0x15 :: [0x30, 0x35] ∧ (0x15 : Byte) ≠ 0x06) ∧
      (box [0x52, 0x46] [] (.txOk :: deliveries (List.replicate 3 1))).inputs = .txOk :: deliveries (List.replicate 3 1) ++ [] ∧
      (box [0x52, 0x46] [] [.txOk, .rxTimeout]).inputs = .txOk :: .rxTimeout :: [] ∧
      ((box [0x52, 0x46] [0x06, 0x30, 0x36] []).rxResidue = [0x06, 0x30, 0x36] ++ [] ∧
        [0x30, 0x36] ≠ [BitVec.ofNat 8 (0x30 + (5 : BitVec 8).toNat / 10), BitVec.ofNat 8 (0x30 + (5 : BitVec 8).toNat % 10)]) ∧
      (([0x30] : Bytes).length < 2 ∧ (box [0x52, 0x46] [0x06, 0x30] []).rxResidue = 0x06 :: [0x30] ∧ ([] : Bytes).length < 2 ∧ (box [1] [0x06] []).rxResidue = 0x06 :: [] ∧
        (box [0x52, 0x46] [] (.txOk :: deliveries (List.replicate 3 1) ++ [.rxTimeout])).inputs = .txOk :: deliveries (List.replicate 3 1) ++ .rxTimeout :: []) ∧
      (box [0x52, 0x46] [] [.txOk, .rxErr e]).inputs = .txOk :: .rxErr e :: [] ∧
      ((box [0x52, 0x46] [0x06, 0x30, 0xAA] []).rxResidue = 0x06 :: [0x30] ++ [0xAA] ∧
        (box [0x52, 0x46] [] [.txOk, .rxDeliver 1, .rxDeliver 1, .rxErr e]).inputs = .txOk :: deliveries (List.replicate (1 + ([0x30] : Bytes).length) 1) ++ .rxErr e :: []) :=
  ⟨by decide, by decide, feeds_ones 3, ⟨rfl, by decide⟩, rfl, rfl, ⟨rfl, by decide⟩, ⟨by decide, rfl, by decide, rfl, rfl⟩, rfl, rfl, rfl⟩

/-- Vector S14: the acknowledgement and nothing more; DECODE_RESP of the same rest ends in `MalformedStart`. -/
theorem witness_ExchangeDecodesResponse :
    (5 : BitVec 8).toNat ≤ 15 ∧ 1 ≤ ([0x52, 0x46] : Bytes).length ∧ Feeds (List.replicate 3 1) 3 ∧
      (box [0x52, 0x46] ackA5 []).rxResidue =
        [0x06, BitVec.ofNat 8 (0x30 + (5 : BitVec 8).toNat / 10), BitVec.ofNat 8 (0x30 + (5 : BitVec 8).toNat % 10)] ++ (box [] [] [.rxTimeout]).rxResidue ∧
      (box [0x52, 0x46] ackA5 (.txOk :: deliveries (List.replicate 3 1) ++ [.txOk, .rxTimeout])).inputs =
        .txOk :: deliveries (List.replicate 3 1) ++ .txOk :: (box [] [] [.rxTimeout]).inputs ∧
      (∃ t, exec (.decodeResp 5 0) (box [] [] [.rxTimeout]) = .next t ∧ t.Ended ∧ t.status = 7) ∧
      (∃ t, exec (.decodeResp 5 0) (box [] [] [.rxErr ⟨1⟩]) = .next t ∧ t.Ended ∧ t.status = 3) ∧
      (∃ t, exec (.decodeResp 5 0) (framed []) = .next t ∧ t.Ended ∧ t.status = 0) :=
  ⟨by decide, by decide, feeds_ones 3, by decide, rfl, ⟨_, rfl, ⟨rfl, rfl⟩, rfl⟩, ⟨_, rfl, ⟨rfl, rfl⟩, rfl⟩, _, rfl, ⟨rfl, rfl⟩, rfl⟩

/-- One for each status class, and one for each way to an `IoError`: at the command, its acknowledgement, the enquiry, the response. -/
theorem witness_ExchangeTxTrace :
    (∃ t, exec (.exchange 16 0) (box [1] [] []) = .next t ∧ t.Ended ∧ t.status = 1) ∧
      (∃ t, exec (.exchange 5 0) (box [0x52, 0x46] [] [.txOk, .rxTimeout]) = .next t ∧ t.Ended ∧ t.status = 5) ∧
      (∃ t, exec (.exchange 5 0) (box [0x52, 0x46] ackA5 ([.txOk] ++ greedy 2 ++ [.txOk, .rxTimeout])) = .next t ∧ t.Ended ∧ t.status = 7) ∧
      (∃ t, exec (.exchange 5 0) (box [0x52, 0x46] [] [.txErr ⟨1⟩ 4]) = .next t ∧ t.Ended ∧ t.status = 3 ∧ t.history.length = 1) ∧
      (∃ t, exec (.exchange 5 0) (box [0x52, 0x46] [6] [.txOk, .rxDeliver 1, .rxErr ⟨1⟩]) = .next t ∧ t.Ended ∧ t.status = 3 ∧
        (readBytes t.history).length = 1) ∧
      (∃ t, exec (.exchange 5 0) (box [0x52, 0x46] ackA5 ([.txOk] ++ greedy 2 ++ [.txErr ⟨1⟩ 0])) = .next t ∧ t.Ended ∧ t.status = 3 ∧
        sentBytes t.history = frameG) ∧
      (∃ t, exec (.exchange 5 0) (box [0x52, 0x46] ackA5 ([.txOk] ++ greedy 2 ++ [.txOk, .rxErr ⟨1⟩])) = .next t ∧ t.Ended ∧ t.status = 3 ∧
        sentBytes t.history = frameG ++ [0x05, 0x30, 0x35]) :=
  ⟨⟨_, rfl, ⟨rfl, rfl⟩, rfl⟩, ⟨_, rfl, ⟨rfl, rfl⟩, rfl⟩, ⟨_, rfl, ⟨rfl, rfl⟩, rfl⟩, ⟨_, rfl, ⟨rfl, rfl⟩, rfl, rfl⟩,
    ⟨_, rfl, ⟨rfl, rfl⟩, rfl, rfl⟩, ⟨_, rfl, ⟨rfl, rfl⟩, rfl, rfl⟩, _, rfl, ⟨rfl, rfl⟩, rfl, rfl⟩

theorem witness_ExchangeRxConsumption :
    ∃ t, exec (.exchange 5 0) (box [0x52, 0x46] (ackA5 ++ frameR) ([.txOk] ++ greedy 2 ++ [.txOk] ++ greedy 6)) = .next t ∧ t.Ended ∧ t.status = 0 :=
  ⟨_, rfl, ⟨rfl, rfl⟩, rfl⟩

theorem witness_TransportOperationsFrame :
    (∃ t, exec (.readExact 0 1) (box [] [] [.rxTimeout]) = .next t ∧ t.Ended) ∧ (∃ t, exec (.readExact 0 1) (box [] [] []) = .next t ∧ t.Waits) ∧
      (∃ t, exec (.decodeResp 5 0) (box [] [] []) = .next t ∧ t.Waits) ∧ (∃ t, exec (.exchange 5 0) (box [1] [] []) = .next t ∧ t.Waits) :=
  ⟨⟨_, rfl, rfl, rfl⟩, ⟨_, rfl, rfl, rfl, rfl⟩, ⟨_, rfl, rfl, rfl, rfl⟩, _, rfl, rfl, rfl, rfl⟩

theorem witness_TransportAccessPerOperation : ∃ t, exec (.exchange 5 0) (box [1] [] [.txOk, .rxTimeout]) = .next t ∧ t.history ≠ [] :=
  ⟨_, rfl, by simp [State.raise, State.raiseKeeping, State.respond, State.record]⟩

theorem witness_ReceivedBytesAreConserved :
    (∃ t, exec (.readExact 0 2) (box [] [7] [.arrive [8, 9], .rxDeliver 2]) = .next t ∧ t.out = [7, 8]) ∧
      (∃ t, exec (.exchange 5 0) (box [1] [7] [.arrive [8], .reset 3]) = .next t ∧ t.rxResidue = [7, 8]) := ⟨⟨_, rfl, rfl⟩, _, rfl, rfl⟩

theorem witness_StatusesPerOperation : ∃ t, exec (.exchange 16 0) (box [1] [] []) = .next t ∧ t.Ended ∧ t.status = 1 := ⟨_, rfl, ⟨rfl, rfl⟩, rfl⟩

theorem witness_OutAfterError :
    (∃ t, exec (.decodeResp 5 0) (box [] [6] [.rxDeliver 1]) = .next t ∧ t.Ended ∧ t.status ≠ 0) ∧
      (∃ t, exec (.readExact 0 2) (box [] [6] [.rxDeliver 1, .rxErr ⟨1⟩]) = .next t ∧ t.Ended ∧ t.status = 3 ∧ t.out = [6]) :=
  ⟨⟨_, rfl, ⟨rfl, rfl⟩, by decide⟩, _, rfl, ⟨rfl, rfl⟩, rfl, rfl⟩

theorem witness_ResetWhileIdle :
    (box [1] [2] [.reset 0]).seq = .idle ∧ (box [1] [2] [.reset 0]).inputs = .reset 0 :: [] ∧
      (asked 1 [2] [3] [.reset 0]).seq = .idle ∧ (asked 1 [2] [3] [.reset 0]).inputs = .reset 0 :: [] := by decide

/-- A command that is accepted, at the highest address; one refused for its address, one for its empty operand; and a word that is no EXCHANGE. -/
theorem witness_ResetCutsAcceptedOperation :
    (asked 0x00000506 [1] [] [.proceed, .reset 4]).seq = .idle ∧ (asked 0x00000506 [1] [] [.proceed, .reset 4]).offered = [⟨⟨0x00000506, [1]⟩, 0⟩] ∧
      (asked 0x00000506 [1] [] [.proceed, .reset 4]).inputs = .proceed :: .reset 4 :: [] ∧
      returnsTo 0 (asked 0x00000506 [1] [] [.proceed, .reset 4]).exchanges = false ∧
      line (step (asked 0x00000506 [1] [] [.proceed, .reset 4])) = [0x02, 0x30, 0x35, 0x00] ∧
      decodeWord 0x00000F06 = .ok (.exchange 15 0) ∧ line (step (asked 0x00000F06 [1] [] [.proceed, .reset 2])) = [0x02, 0x31] ∧
      decodeWord 0x00001006 = .ok (.exchange 16 0) ∧ line (step (asked 0x00001006 [1] [] [.proceed, .reset 2])) = [] ∧
      line (step (asked 0x00000F06 [] [] [.proceed, .reset 2])) = [] ∧
      decodeWord 1 = .ok (.checksum 0 0) ∧ line (step (asked 1 [1] [] [.proceed, .reset 2])) = [] := by decide

/-- CHECKSUM with a reset at its end and without; READ_EXACT taken up from a wait. -/
theorem witness_ResetWinsOverResponse :
    (∃ t, exec (.checksum 0 0) { asked 1 [9] [] [.proceed, .reset 0] with offered := [], inBuf := [9], inputs := [.reset 0] } = .next t ∧ t.Ended ∧
        t.inputs = .reset 0 :: [] ∧ resetNext (asked 1 [9] [] [.proceed, .reset 0]).inputs = false ∧ usesTransport (.checksum 0 0) = false) ∧
      (∃ t, exec (.checksum 0 0) { asked 1 [9] [] [] with offered := [], inBuf := [9] } = .next t ∧ t.Ended ∧ resetNext t.inputs = false) ∧
      (∃ t, resume .readExact { waitingRead with inputs := [.rxTimeout, .reset 0] } = .next t ∧ t.Ended ∧ t.inputs = .reset 0 :: []) :=
  ⟨⟨_, rfl, ⟨rfl, rfl⟩, rfl, rfl, rfl⟩, ⟨_, rfl, ⟨rfl, rfl⟩, rfl⟩, _, rfl, ⟨rfl, rfl⟩, rfl⟩

theorem witness_ResetWhileWaiting :
    ({ waitingWrite with inputs := [.reset 9] } : State).Inv ∧ ({ waitingWrite with inputs := [.reset 9] } : State).awaiting = true ∧
      ({ waitingRead with inputs := [.reset 0] } : State).Inv ∧ ({ waitingRead with inputs := [.reset 0] } : State).awaiting = true :=
  ⟨waitingWrite_inv _, rfl, waitingRead_inv _, rfl⟩

theorem witness_ConfigurationNeverChanges : ∃ t, step (boxFixed [] [] [.reset 0]) = .next t ∧ t.lengthRule = .fixed := ⟨_, rfl, rfl⟩

theorem witness_HostUsesTransportOnlyWhileIdle :
    (box [] [] [.hostWrite 0 [1]]).inputs = .hostWrite 0 [1] :: [] ∧ (box [] [] [.hostWrite 0 [1]]).seq = .idle ∧ (box [] [] [.hostWrite 0 [1]]).offered = [] ∧
      returnsTo 0 (box [] [] [.hostWrite 0 [1]]).exchanges = false ∧ returnsTo 0 (box [] [] [.hostRead 0 2]).exchanges = false ∧
      (box [] [] [.hostRead 0 2]).inputs = .hostRead 0 2 :: [] ∧
      ({ waitingRead with inputs := [.hostWrite 0 [1]] } : State).Inv ∧ ({ waitingRead with inputs := [.hostRead 0 2] } : State).Inv ∧
      ({ waitingRead with inputs := [.hostRead 0 2] } : State).awaiting = true :=
  ⟨rfl, rfl, rfl, rfl, rfl, rfl, waitingRead_inv _, waitingRead_inv _, rfl⟩

theorem witness_EveryStepKeepsInvariant :
    ({ waitingWrite with inputs := [.txOk] } : State).Inv ∧ ∃ t, step { waitingWrite with inputs := [.txOk] } = .next t ∧ t.seq = .busy (.exchange .rdAck) :=
  ⟨waitingWrite_inv _, _, rfl, rfl⟩

theorem witness_NothingIsLeftBetweenOperations :
    ({ box [1] [2] [] with acc := [9], bcc := 9, len := 9, fbuf := [9], abuf := [9], status := 9 } : State).inBuf = (box [1] [2] []).inBuf ∧
      (box [1] [2] []).SameWorld { box [1] [2] [] with acc := [9], bcc := 9, len := 9, fbuf := [9], abuf := [9], status := 9 } :=
  ⟨rfl, rfl, rfl, rfl, rfl, rfl, rfl, rfl⟩

theorem witness_WaitingOperationGoesOn :
    [Input.rxTimeout] ≠ [] ∧ (∃ t, exec (.readExact 0 1) (box [] [] []) = .next t ∧ t.Waits) ∧
      (∃ t, exec (.checksum 0 0) (box [] [] []) = .next t ∧ t.Ended) :=
  ⟨by decide, ⟨_, rfl, rfl, rfl, rfl⟩, _, rfl, rfl, rfl⟩

/-- A state that meets the invariant, with exchange `x` asking after the exchanges `past`. -/
theorem askedBy_inv {x : Nat} {past : List Nat} (w : Word) (xs : List Input) (h : past.Nodup) : (askedBy x past w [] xs).Inv := by
  refine ⟨⟨Nat.zero_le _, Nat.zero_le _, Nat.zero_le _, Nat.zero_le _, Nat.zero_le _, Nat.zero_le _⟩, Nat.zero_le _, ?_, ?_, h, trivial⟩
  · intro r hr; cases List.mem_singleton.mp hr; rfl
  · intro e he; cases he

/-- By each of the three operations, and by the host's own write and read. -/
theorem witness_InterleavedExchangesAreRefused :
    (askedBy 1 [2, 1] 0x00030000 [] []).nextUse = some 1 ∧ (askedBy 1 [2, 1] 0x00000504 [] []).nextUse = some 1 ∧
      (askedBy 1 [2, 3, 1] 0x00000506 [] []).nextUse = some 1 ∧ (1 ≠ 2 ∧ 1 ∈ [3, 1]) ∧
      ({ box [] [] [.hostWrite 1 [9]] with exchanges := [2, 1] } : State).nextUse = some 1 ∧
      ({ box [] [] [.hostRead 1 9] with exchanges := [2, 1] } : State).nextUse = some 1 ∧
      (askedBy 1 [2, 1] 0x00000504 [] [.rxTimeout]).Inv ∧ step (askedBy 1 [2, 1] 0x00000504 [] [.rxTimeout]) = .refused .exchangesInterleaved :=
  ⟨rfl, rfl, rfl, by decide, rfl, rfl, askedBy_inv _ _ (by decide), rfl⟩

/-- A use that goes on, one that begins, and none. -/
theorem witness_ExchangesAreNotedInTurn :
    ((askedBy 1 [1] 0x00000504 [] []).Inv ∧ ∃ t, step (askedBy 1 [1] 0x00000504 [] []) = .next t ∧ t.exchanges = [1]) ∧
      ((askedBy 2 [1] 0x00000504 [] []).Inv ∧ ∃ t, step (askedBy 2 [1] 0x00000504 [] []) = .next t ∧ t.exchanges = [2, 1]) ∧
      ((askedBy 2 [1] 0x00000001 [] []).Inv ∧ ∃ t, step (askedBy 2 [1] 0x00000001 [] []) = .next t ∧ t.exchanges = [1]) :=
  ⟨⟨askedBy_inv _ _ (by decide), _, rfl, rfl⟩, ⟨askedBy_inv _ _ (by decide), _, rfl, rfl⟩, askedBy_inv _ _ (by decide), _, rfl, rfl⟩

end Sys2Proof.Tests
end

section
/-! The state's accounts from one step to the next (10_state.md R16 to R30, 70_reset_and_hazards.md R142 to R153): what an accepted request
comes to, and the invariant of a state between steps. -/

namespace Sys2Proof.Machine

/-! ### The request an idle block accepts -/

/-- A legal word is the word of the operation it names (R54, R55). -/
theorem encode_of_decodeWord {w : Word} {i : Instr} (h : decodeWord w = .ok i) : encode i = w := by
  have hr : rsvField w = 0 := by
    by_contra hr
    rw [decodeWord, if_neg hr] at h
    cases h
  have word : ∀ o : BitVec 3, (opField w).toNat = o.toNat → requestWord (countField w) (addrField w) o = w := by
    intro o ho
    rw [← BitVec.eq_of_toNat_eq ho]
    exact requestWord_fields w hr
  rw [decodeWord, if_pos hr] at h
  split at h <;> cases h <;> exact word _ ‹_›

/-- A reserved request settles at once, and the world stays as it was (R57). -/
theorem State.illegal_settled (w : Word) (s : State) : Settled w [] s (s.illegal w) :=
  .inl ⟨⟨rfl, rfl⟩, rfl, rfl, (by decide : ErrKind.illegalOperation.code.toNat ≤ 15), id, Nat.zero_le _⟩

/-- From `s` the world moved on to `t`, and there the operation with word `w` has settled. -/
def Settles (w : Word) (s t : State) : Prop := ∃ used evs, Moves used evs s t ∧ Settled w used s t

/-- What settles by itself also settles when a step puts `settle` around it. -/
theorem Settles.settle {w : Word} {s t : State} {r : Result} (h : Good (Settles w s) r) (ht : settle r = .next t) : Settles w s t := by
  obtain ⟨v, rfl, -⟩ := settle_cases ht
  obtain ⟨used, evs, hm, hset⟩ := h
  obtain ⟨used', hm', hset'⟩ := hset.settle hm ht
  exact ⟨used', evs, hm', hset'⟩

/-- What a request makes of the state it is accepted in: its operand is latched, and its use of the connection noted (R16, R153). -/
def State.accepted (r : Offer) (rest : List Offer) (uses : Bool) (s : State) : State := (s.moved.accept r rest).noted uses r.exchange

/-- All that the step of an idle block with a request offered can come to: a reset comes first, or the request is accepted in its exchange's turn
and settles, be it legal or reserved. -/
theorem step_offered {s t : State} {r : Offer} {rest : List Offer} (hs : s.seq = .idle) (ho : s.offered = r :: rest) (ht : step s = .next t) :
    (∃ k xs, s.inputs = .reset k :: xs ∧ t = (s.await xs).resetBlock) ∨
      ∃ uses, (uses = true → returnsTo r.exchange s.exchanges = false) ∧ Settles r.word (s.accepted r rest uses) t := by
  rcases resetNext_cases s.inputs with hq | ⟨k, xs, hq⟩
  · right
    cases hd : decodeWord r.word with
    | ok i =>
      rw [step_legal hs ho hq hd] at ht
      obtain ⟨-, -, hr⟩ | ⟨hx, hr⟩ := inTurn_cases (usesTransport i) r.exchange (s.moved.accept r rest) (exec i)
      · rw [hr] at ht; cases ht
      · rw [hr] at ht
        refine ⟨_, hx, Settles.settle ((exec_spec i _).mono ?_) ht⟩
        rintro v ⟨used, evs, hm, hset, -⟩
        exact ⟨used, evs, hm, encode_of_decodeWord hd ▸ hset⟩
    | error e =>
      rw [step_rejects hs ho hq hd] at ht
      have hset : Settles r.word (s.accepted r rest false) ((s.accepted r rest false).illegal r.word) :=
        ⟨[], [], .of_sameWorld (State.sameWorld_refl _), State.illegal_settled r.word _⟩
      exact ⟨false, by simp, Settles.settle (r := .next _) hset ht⟩
  · rw [step_reset hs hq] at ht
    cases ht
    exact .inl ⟨k, xs, hq, rfl⟩

/-- Settles O6: what an accepted request comes to latches it, unless a reset cut it off or came before it. -/
theorem acceptanceLatchesRequest : Obligations.AcceptanceLatchesRequest := by
  intro s t r rest hs ho ht
  rcases step_offered hs ho ht with ⟨k, xs, hi, rfl⟩ | ⟨uses, -, used, evs, hm, hset⟩
  · exact .inr ⟨(s.await xs).resetBlock_asReset, [.reset k], k, hi, by simp⟩
  · rcases hset with ⟨-, hreq, hin, -⟩ | ⟨-, hreq, hin, -⟩ | ⟨hr, k, hk⟩
    · exact .inl ⟨hreq, hin⟩
    · exact .inl ⟨hreq, hin⟩
    · obtain ⟨first, hfirst⟩ := Moves.moved s
      refine .inr ⟨hr, first ++ used, k, ?_, List.mem_append_right _ hk⟩
      rw [hfirst.inputs, List.append_assoc, ← hm.inputs]; rfl

/-! ### The invariant -/

/-- The part of the invariant that does not look at the sequencer: bounds, the status, offers the channel can carry, allowed accesses, exchanges noted once each. -/
structure State.Sound (s : State) : Prop where
  bounded : s.Bounded
  status : s.status.toNat ≤ 15
  fits : ∀ r ∈ s.offered, r.fits = true
  allowed : ∀ e ∈ s.history, e.allowed
  exchanges : s.exchanges.Nodup

theorem State.inv_iff (s : State) : s.Inv ↔ s.Sound ∧ ∀ b, s.seq = .busy b → busyInv b s := by
  have seq : (match s.seq with | .idle => True | .busy b => busyInv b s) ↔ ∀ b, s.seq = .busy b → busyInv b s := by
    cases s.seq <;> simp
  constructor
  · rintro ⟨h1, h2, h3, h4, h5, h6⟩
    exact ⟨⟨h1, h2, h3, h4, h5⟩, seq.mp h6⟩
  · rintro ⟨⟨h1, h2, h3, h4, h5⟩, h6⟩
    exact ⟨h1, h2, h3, h4, h5, seq.mpr h6⟩

/-- An idle block has only the sound part to keep. -/
theorem State.Sound.inv_of_idle {s : State} (h : s.Sound) (hs : s.seq = .idle) : s.Inv :=
  (State.inv_iff s).mpr ⟨h, by simp [hs]⟩

/-- The bounds of R18, R19 and R22 are those of the working registers, of `IN` and of `OUT`. -/
theorem State.bounded_iff (s : State) : s.Bounded ↔ s.Small ∧ s.inBuf.length ≤ Config.maxIn ∧ s.out.length ≤ Config.maxOut := by
  unfold State.Bounded State.Small Config.maxOut
  tauto

/-- What the world does keeps the sound part, as long as the registers stay within their bounds. -/
theorem State.Sound.moves {used : List Input} {evs : List Event} {s t : State} (h : s.Sound) (hm : Moves used evs s t)
    (hb : t.Bounded) (hst : t.status.toNat ≤ 15) : t.Sound where
  bounded := hb
  status := hst
  fits := by
    rw [hm.offered]
    exact fun r hr => (List.mem_append.mp hr).elim (h.fits r) (hm.fits r)
  allowed := by
    rw [hm.history]
    exact fun e he => (List.mem_append.mp he).elim (h.allowed e) (hm.allowed e)
  exchanges := by rw [hm.exchanges]; exact h.exchanges

/-- A block that stands as reset leaves it is within its bounds, and idle. -/
theorem State.AsReset.bounded {t : State} (h : t.AsReset) : t.Bounded ∧ t.status.toNat ≤ 15 ∧ t.seq = .idle := by
  rw [← (h : t.resetBlock = t)]
  exact ⟨⟨Nat.zero_le _, Nat.zero_le _, Nat.zero_le _, Nat.zero_le _, Nat.zero_le _, Nat.zero_le _⟩, Nat.zero_le _, rfl⟩

/-- A request in its exchange's turn is accepted soundly (R18, R153). -/
theorem State.Sound.accepted {s : State} {r : Offer} {rest : List Offer} {uses : Bool} (h : s.Sound) (ho : s.offered = r :: rest)
    (hx : uses = true → returnsTo r.exchange s.exchanges = false) : (s.accepted r rest uses).Sound where
  bounded := (State.bounded_iff _).mpr
    ⟨((State.bounded_iff s).mp h.bounded).1, of_decide_eq_true (h.fits r (by simp [ho])), ((State.bounded_iff s).mp h.bounded).2.2⟩
  status := h.status
  fits := fun q hq => h.fits q (by rw [ho]; exact List.mem_cons_of_mem _ hq)
  allowed := h.allowed
  exchanges := nodup_noted (s := s.moved.accept r rest) h.exchanges hx

/-- An operation that settles leaves a state that meets the invariant, whether it ended, waits or was cut off. -/
theorem Settles.inv {w : Word} {s t : State} (hset : Settles w s t) (h : s.Sound) : t.Inv := by
  obtain ⟨used, evs, hm, hset⟩ := hset
  obtain ⟨hsmall, hin, -⟩ := (State.bounded_iff s).mp h.bounded
  have bounded : (s.Small → t.Small) → t.inBuf = s.inBuf → t.out.length ≤ 65542 → t.Bounded := fun hsm hi ho =>
    (State.bounded_iff t).mpr ⟨hsm hsmall, hi ▸ hin, ho⟩
  rcases hset with ⟨⟨hs, -⟩, -, hi, hst, hsm, ho⟩ | ⟨-, -, hi, ho, hst, -, hsm, b, hs, hb⟩ | ⟨hr, -⟩
  · exact (h.moves hm (bounded hsm hi ho) hst).inv_of_idle hs
  · refine (State.inv_iff t).mpr ⟨h.moves hm (bounded hsm hi (by simp [ho])) (hst ▸ h.status), ?_⟩
    rintro b' hb'
    rw [hs] at hb'
    cases hb'
    exact hb
  · obtain ⟨hb, hst, hs⟩ := hr.bounded
    exact (h.moves hm hb hst).inv_of_idle hs

/-- A reset of the block leaves a state that meets the invariant (R142). -/
theorem State.Sound.resetBlock {s : State} (h : s.Sound) : s.resetBlock.Inv := by
  obtain ⟨hb, hst, hs⟩ := s.resetBlock_asReset.bounded
  exact State.Sound.inv_of_idle ⟨hb, hst, h.fits, h.allowed, h.exchanges⟩ hs

/-- An exchange in its turn is noted soundly (R153). -/
theorem State.Sound.noted {s : State} {x : Nat} (h : s.Sound) (hx : returnsTo x s.exchanges = false) : (s.noted true x).Sound :=
  ⟨h.bounded, h.status, h.fits, h.allowed, nodup_joined h.exchanges hx⟩

/-- The idle block with nothing offered keeps the sound part, whatever the outside world does next (R34, R51, R142, R144). -/
theorem stepIdle_inv {s t : State} (h : s.Sound) (hs : s.seq = .idle) (ht : stepIdle s = .next t) : t.Inv := by
  have turn : ∀ (x : Nat) (xs : List Input) (k : State → State), (∀ u : State, u.Sound → u.seq = .idle → (k u).Inv) →
      inTurn true x (s.await xs) (fun u => .next (k u)) = .next t → t.Inv := by
    intro x xs k hk hr
    obtain ⟨-, -, hi⟩ | ⟨hx, hi⟩ := inTurn_cases true x (s.await xs) fun u => .next (k u)
    · rw [hi] at hr; cases hr
    · rw [hi] at hr
      cases hr
      exact hk _ (State.Sound.noted (s := s.await xs) ⟨h.1, h.2, h.3, h.4, h.5⟩ (hx rfl)) hs
  cases hi : s.inputs with
  | nil =>
    simp only [stepIdle, hi] at ht
    cases ht
    exact h.inv_of_idle hs
  | cons x xs =>
    have hq : (s.await xs).Sound := ⟨h.1, h.2, h.3, h.4, h.5⟩
    simp only [stepIdle, hi] at ht
    cases x with
    | offer r =>
      simp only at ht
      split at ht
      next hf =>
        cases ht
        refine State.Sound.inv_of_idle ⟨hq.1, hq.2, fun q hq => ?_, hq.4, hq.5⟩ hs
        rcases List.mem_append.mp hq with hq | hq
        · exact h.fits q hq
        · rw [List.mem_singleton.mp hq]; exact hf
      · cases ht
    | reset k => cases ht; exact hq.resetBlock
    | arrive b => cases ht; exact State.Sound.inv_of_idle ⟨hq.1, hq.2, hq.3, hq.4, hq.5⟩ hs
    | hostWrite e b => exact turn e xs (State.send b) (fun u hu => State.Sound.inv_of_idle ⟨hu.1, hu.2, hu.3, hu.4, hu.5⟩) ht
    | hostRead e n =>
      exact turn e xs (fun u => { u with rxResidue := u.rxResidue.drop n }) (fun u hu => State.Sound.inv_of_idle ⟨hu.1, hu.2, hu.3, hu.4, hu.5⟩) ht
    | rxDeliver k | rxTimeout | rxErr e | txOk | txErr e k | proceed => cases ht; exact hq.inv_of_idle hs

/-- Settles O52: an idle block with a request offered accepts it soundly and it settles, a busy block goes on and settles, and nothing the outside
world does to an idle block breaks the sound part. -/
theorem everyStepKeepsInvariant : Obligations.EveryStepKeepsInvariant := by
  intro s t hinv ht
  obtain ⟨hsound, hbusy⟩ := (State.inv_iff s).mp hinv
  cases hs : s.seq with
  | busy b =>
    cases hh : s.hung with
    | true => rw [step_hung hs hh] at ht; cases ht
    | false =>
      rw [step_busy hs hh] at ht
      exact (Settles.settle (resume_spec hs (hbusy b hs)) ht).inv hsound
  | idle =>
    cases ho : s.offered with
    | nil => rw [step_idle hs ho] at ht; exact stepIdle_inv hsound hs ht
    | cons r rest =>
      rcases step_offered hs ho ht with ⟨k, xs, -, rfl⟩ | ⟨uses, hx, hset⟩
      · exact State.Sound.resetBlock (s := s.await xs) ⟨hsound.1, hsound.2, hsound.3, hsound.4, hsound.5⟩
      · exact hset.inv (hsound.accepted ho hx)

/-- Settles O53: the state after reset is as reset leaves it, and nothing has happened around it. -/
theorem resetMeetsInvariant : Obligations.ResetMeetsInvariant := by
  obtain ⟨hb, hst, hs⟩ := State.AsReset.bounded (t := State.reset) rfl
  exact State.Sound.inv_of_idle ⟨hb, hst, by simp [State.reset], by simp [State.reset], .nil⟩ hs

/-- Settles O47: `State.reset` gives each of the four. -/
theorem resetStateValues : Obligations.ResetStateValues := ⟨rfl, rfl, rfl, rfl⟩

/-! ### Steps of the idle and of the busy block -/

/-- Settles O5: the state in which the request is accepted is the one `step_accepts` names. -/
theorem stepRunsAcceptedOperation : Obligations.StepRunsAcceptedOperation :=
  fun _ _ _ _ hs ho hd hq hx => step_accepts hs ho hq hd hx

/-- What went by without a fault held the offers. -/
theorem Drifts.offered {s t : State} {r : Result} (h : Drifts s r) (hr : r = .next t) :
    ∃ used, s.inputs = used ++ t.inputs ∧ t.offered = s.offered ++ offersIn used := by
  subst hr
  obtain ⟨used, hi, ho, -⟩ := h
  exact ⟨used, hi, ho⟩

/-- Settles O8, by the drift of an operation and of one taken up at a wait. -/
theorem offeredRequestsAreHeld : Obligations.OfferedRequestsAreHeld := by
  refine ⟨fun i s t ht => (exec_drifts i s).offered ht, fun b s t hs ht => ?_⟩
  cases hh : s.hung with
  | true => rw [step_hung hs hh] at ht; cases ht
  | false => rw [step_busy hs hh] at ht; exact (resume_drifts b s).settle.offered ht

/-! ### What an operation leaves as it was -/

/-- Settles O20, from all that each of the four operations can do. -/
theorem computeOperationsFrame : Obligations.ComputeOperationsFrame := by
  intro i s t ht
  cases i with
  | checksum a c =>
    rw [exec_checksum] at ht
    cases ht
    exact ⟨State.sameWorld_refl s, rfl, rfl, rfl, rfl, rfl, rfl, rfl, rfl⟩
  | encodeCmd a c =>
    obtain ⟨u, hu, -, ⟨hw, hreq, hin, hacc, hneed, hab⟩, hlen, -⟩ := exec_encodeCmd_cases a c s
    rw [hu] at ht
    cases ht
    exact ⟨hw, hreq, hin, hacc, hneed, hlen, hab⟩
  | encodeEnq a c =>
    obtain ⟨u, hu, -, ⟨hw, hreq, hin, hacc, hneed, hab⟩, hbcc, hlen, -, -, hf⟩ := exec_encodeEnq_cases a c s
    rw [hu] at ht
    cases ht
    refine ⟨hw, hreq, hin, hacc, hneed, hbcc, hlen, hab, ?_⟩
    rcases hf with ⟨hst, hf⟩ | ⟨hst, -, hf⟩
    · exact ⟨fun _ => hf, fun h => absurd hst h⟩
    · exact ⟨fun h => absurd (hst.symm.trans h) (by decide), fun _ => hf⟩
  | extractPayload a c =>
    obtain ⟨u, hu, -, ⟨hw, hreq, hin, hacc, hneed, hab⟩, hbcc, hf, -⟩ := exec_extractPayload_cases a c s
    rw [hu] at ht
    cases ht
    exact ⟨hw, hreq, hin, hacc, hneed, hbcc, hf, hab⟩
  | readExact a c | decodeResp a c | exchange a c => trivial

/-- Settles O42: the world's account, the settlement and the profile of the operation say it together. -/
theorem transportOperationsFrame : Obligations.TransportOperationsFrame := by
  intro i s t ht hend
  obtain ⟨used, evs, hm, hset, hpr⟩ := (exec_spec i s).of_next ht
  constructor
  · rcases hset with ⟨he, hreq, hin, -⟩ | ⟨-, hreq, hin, hout, hst, hio, -⟩ | ⟨hr, -⟩
    · exact ⟨hm.rule, hin, hreq, hm.exchanges, fun h => absurd h he.not_waits⟩
    · exact ⟨hm.rule, hin, hreq, hm.exchanges, fun _ => ⟨hout, hst, hio⟩⟩
    · exact (hend.elim hr.not_ended hr.not_waits).elim
  · cases i with
    | readExact a c => exact hpr.2.2 hend
    | decodeResp a c => exact hpr.2.1 hend
    | exchange a c => trivial
    | checksum a c | encodeCmd a c | encodeEnq a c | extractPayload a c => exact hpr.2.1

end Sys2Proof.Machine
end

section
/-! Nothing is left between operations (10_state.md R22, R28): two states that agree on all but registers an operation writes before it reads them go the same way.
One lemma per stage, each citing the next, over the registers that stage reads. -/

namespace Sys2Proof.Machine

/-- The states agree on the configuration, the accepted request, `OUT`, the sequencer and the world around the block, and hold no response. -/
structure Alike (s t : State) : Prop where
  world : s.SameWorld t
  req : t.req = s.req
  inBuf : t.inBuf = s.inBuf
  out : t.out = s.out
  seq : t.seq = s.seq
  quiet : s.respPending = false
  quiet' : t.respPending = false

/-- They also agree on the registers of `ReadExact` (R80). -/
structure ReadingAlike (s t : State) : Prop extends Alike s t where
  acc : t.acc = s.acc
  need : t.need = s.need

/-- They also agree on the registers of `DecodeFrame` (R96). -/
structure DecodingAlike (s t : State) : Prop extends ReadingAlike s t where
  bcc : t.bcc = s.bcc
  fbuf : t.fbuf = s.fbuf
  abuf : t.abuf = s.abuf

/-- Two results a host cannot tell apart: the same stop, or the same response, `SEQ`, `REQ`, `OUT`, `IN` and world. -/
def SameOutcome : Result → Result → Prop
  | .next t, .next t' =>
    t'.response = t.response ∧ t'.seq = t.seq ∧ t'.req = t.req ∧ t'.out = t.out ∧ t'.inBuf = t.inBuf ∧ t.SameWorld t'
  | .fault f, .fault f' => f = f'
  | .refused r, .refused r' => r = r'
  | _, _ => False

/-! ### Ends of an operation -/

/-- The error value a raised kind shows to the host (R21, R125). -/
def ErrKind.shown : ErrKind → Option IoErr
  | .ioError e => some e
  | .invalidAddress | .emptyPayload | .notAcknowledged | .shortAck | .ackAddressMismatch | .malformedStart | .addressMismatch | .shortLength
  | .lengthMismatch | .malformedEnd | .checksumMismatch | .frameTooShort | .payloadTooLong | .illegalOperation => none

theorem State.response_raiseKeeping (k : ErrKind) (s : State) : (s.raiseKeeping k).response = some (k.code, k.shown, s.out) := by
  cases k <;> rfl

theorem State.response_finish (s : State) : s.finish.response = some (statusOk, none, s.out) := rfl

theorem State.response_of_quiet {s : State} (h : s.respPending = false) : s.response = none := by simp [State.response, h]

section
variable {s t : State}

theorem Alike.lengthRule (h : Alike s t) : t.lengthRule = s.lengthRule := h.world.1

theorem Alike.inputs (h : Alike s t) : t.inputs = s.inputs := h.world.2.2.2.2.2.1

theorem Alike.address (h : Alike s t) : t.address = s.address := by rw [State.address, State.address, h.req]

theorem Alike.operand (h : Alike s t) : t.operand = s.operand := by rw [State.operand_eq, State.operand_eq, h.inBuf]

/-- An operation that waits, or that a reset has cut off, shows no response. -/
theorem Alike.waits (h : Alike s t) : SameOutcome (.next s) (.next t) :=
  ⟨by rw [State.response_of_quiet h.quiet, State.response_of_quiet h.quiet'], h.seq, h.req, h.out, h.inBuf, h.world⟩

theorem Alike.finish (h : Alike s t) : SameOutcome (.next s.finish) (.next t.finish) :=
  ⟨by rw [State.response_finish, State.response_finish, h.out], rfl, h.req, h.out, h.inBuf, h.world⟩

theorem Alike.raiseKeeping (h : Alike s t) (k : ErrKind) : SameOutcome (.next (s.raiseKeeping k)) (.next (t.raiseKeeping k)) :=
  ⟨by rw [State.response_raiseKeeping, State.response_raiseKeeping, h.out], rfl, h.req, h.out, h.inBuf, h.world⟩

theorem Alike.setOut (h : Alike s t) (v : Bytes) : Alike { s with out := v } { t with out := v } :=
  ⟨h.world, h.req, h.inBuf, rfl, h.seq, h.quiet, h.quiet'⟩

theorem Alike.raise (h : Alike s t) (k : ErrKind) : SameOutcome (.next (s.raise k)) (.next (t.raise k)) := (h.setOut []).raiseKeeping k

theorem Alike.goto (h : Alike s t) (b : Busy) : Alike (s.goto b) (t.goto b) := ⟨h.world, h.req, h.inBuf, h.out, rfl, h.quiet, h.quiet'⟩

/-- A read begins in both. -/
theorem Alike.enterRead (h : Alike s t) (b : Busy) (n : BitVec 16) : ReadingAlike (s.enterRead b n) (t.enterRead b n) :=
  ⟨⟨h.world, h.req, h.inBuf, h.out, rfl, h.quiet, h.quiet'⟩, rfl, rfl⟩

theorem Alike.resetBlock (h : Alike s t) : Alike s.resetBlock t.resetBlock := ⟨h.world, rfl, rfl, rfl, rfl, rfl, rfl⟩

/-- A write to `OUT` goes through in both, or is refused in both. -/
theorem Alike.writeOut (h : Alike s t) (v : Bytes) {k : State → Result} (hk : ∀ u w, Alike u w → SameOutcome (k u) (k w)) :
    SameOutcome (writeOut v s k) (writeOut v t k) := by
  unfold Machine.writeOut State.memWrite
  rw [h.out]
  by_cases hv : s.out.length + v.length ≤ Config.maxOut
  · simp only [hv, if_true]
    exact hk _ _ (h.setOut _)
  · simp only [hv, if_false]
    rfl

/-! ### The world goes on -/

theorem Alike.await (h : Alike s t) (xs : List Input) : Alike (s.await xs) (t.await xs) := by
  obtain ⟨⟨h1, h2, h3, h4, h5, -, h7⟩, h8, h9, h10, h11, h12, h13⟩ := h
  exact ⟨⟨h1, h2, h3, h4, h5, rfl, h7⟩, h8, h9, h10, h11, h12, h13⟩

theorem Alike.record (h : Alike s t) (e : Event) : Alike (s.record e) (t.record e) := by
  obtain ⟨⟨h1, h2, h3, h4, h5, h6, h7⟩, h8, h9, h10, h11, h12, h13⟩ := h
  exact ⟨⟨h1, h2, h3, h4, by simp [h5], h6, h7⟩, h8, h9, h10, h11, h12, h13⟩

theorem Alike.send (h : Alike s t) (b : Bytes) : Alike (s.send b) (t.send b) := by
  obtain ⟨⟨h1, h2, h3, h4, h5, h6, h7⟩, h8, h9, h10, h11, h12, h13⟩ := h
  exact ⟨⟨h1, h2, h3, by simp [h4], h5, h6, h7⟩, h8, h9, h10, h11, h12, h13⟩

theorem ReadingAlike.missing (h : ReadingAlike s t) : t.missing = s.missing := by rw [State.missing, State.missing, h.acc, h.need]

theorem ReadingAlike.granted (h : ReadingAlike s t) (k : Nat) : t.granted k = s.granted k := by
  rw [State.granted, State.granted, h.missing, h.world.2.2.1]

theorem ReadingAlike.await (h : ReadingAlike s t) (xs : List Input) : ReadingAlike (s.await xs) (t.await xs) := ⟨h.toAlike.await xs, h.acc, h.need⟩

theorem ReadingAlike.record (h : ReadingAlike s t) (e : Event) : ReadingAlike (s.record e) (t.record e) := ⟨h.toAlike.record e, h.acc, h.need⟩

theorem ReadingAlike.take (h : ReadingAlike s t) (n : Nat) : ReadingAlike (s.take n) (t.take n) := by
  have hm := h.missing
  obtain ⟨⟨⟨h1, h2, h3, h4, h5, h6, h7⟩, h8, h9, h10, h11, h12, h13⟩, h14, h15⟩ := h
  exact ⟨⟨⟨h1, h2, by simp [h3], h4, by simp [h3, h5, hm], h6, h7⟩, h8, h9, h10, h11, h12, h13⟩, by simp [h3, h14], h15⟩

end

/-- What `meanwhile` makes of a state it does not refuse: the input's offers are held and its bytes received. -/
def State.passed (x : Input) (s : State) : State := { s with offered := s.offered ++ x.offers, rxResidue := s.rxResidue ++ x.brings }

/-- Whether and how `meanwhile` refuses an input does not depend on the state. -/
theorem meanwhile_uniform (x : Input) :
    (∃ r, ∀ s : State, s.meanwhile x = .error r) ∨ ∀ s : State, s.meanwhile x = .ok (s.passed x) := by
  have nothing : x.offers = [] → x.brings = [] → ∀ s : State, s.passed x = s := fun h1 h2 s => by simp [State.passed, h1, h2]
  cases x with
  | offer r =>
    cases hf : r.fits with
    | true => exact .inr fun s => by simp [State.meanwhile, State.passed, State.hold, hf, Input.offers, Input.brings]
    | false => exact .inl ⟨.operandTooLong, fun s => by simp [State.meanwhile, hf]⟩
  | arrive b => exact .inr fun s => by simp [State.meanwhile, State.passed, State.receive, Input.offers, Input.brings]
  | hostWrite x b | hostRead x n => exact .inl ⟨.transportInterference, fun _ => rfl⟩
  | rxDeliver k | rxTimeout | rxErr e | txOk | txErr e k | reset k | proceed =>
    exact .inr fun s => by rw [nothing rfl rfl]; rfl

section
variable {s t : State}

theorem Alike.passed (h : Alike s t) (x : Input) : Alike (s.passed x) (t.passed x) := by
  obtain ⟨⟨h1, h2, h3, h4, h5, h6, h7⟩, h8, h9, h10, h11, h12, h13⟩ := h
  exact ⟨⟨h1, by simp [State.passed, h2], by simp [State.passed, h3], h4, h5, h6, h7⟩, h8, h9, h10, h11, h12, h13⟩

theorem ReadingAlike.passed (h : ReadingAlike s t) (x : Input) : ReadingAlike (s.passed x) (t.passed x) := ⟨h.toAlike.passed x, h.acc, h.need⟩

/-! ### TxWrite -/

/-- Two `TxWrite`s end in the same way, in states alike. -/
def TxResult.Alike : TxResult → TxResult → Prop
  | .ok s, .ok t => Machine.Alike s t
  | .err e s, .err e' t => e' = e ∧ Machine.Alike s t
  | .waiting s, .waiting t => Machine.Alike s t
  | .cut s, .cut t => Machine.Alike s t
  | .refused r, .refused r' => r = r'
  | _, _ => False

theorem Alike.awaitTx (h : Alike s t) (bytes : Bytes) (xs : List Input) : (awaitTx bytes xs s).Alike (awaitTx bytes xs t) := by
  induction xs generalizing s t with
  | nil => exact h
  | cons x xs ih =>
    have hx := h.await xs
    have go : TxResult.Alike (match (s.await xs).meanwhile x with | .ok s' => Machine.awaitTx bytes xs s' | .error r => .refused r)
        (match (t.await xs).meanwhile x with | .ok s' => Machine.awaitTx bytes xs s' | .error r => .refused r) := by
      rcases meanwhile_uniform x with ⟨r, hr⟩ | hok
      · rw [hr, hr]; rfl
      · rw [hok, hok]; exact ih (hx.passed x)
    cases x with
    | txOk => exact (hx.send bytes).record _
    | txErr e k => exact ⟨rfl, (hx.send _).record _⟩
    | reset k => exact (hx.send _).resetBlock
    | offer r | arrive b | hostWrite x b | hostRead x n | rxDeliver k | rxTimeout | rxErr e | proceed => exact go

theorem Alike.afterTx (h : Alike s t) (bytes : Bytes) {k : State → Result} (hk : ∀ u v, Alike u v → SameOutcome (k u) (k v)) :
    SameOutcome (afterTx bytes s k) (afterTx bytes t k) := by
  unfold Machine.afterTx
  rw [h.inputs]
  have hr := h.awaitTx bytes s.inputs
  revert hr
  cases Machine.awaitTx bytes s.inputs s <;> cases Machine.awaitTx bytes s.inputs t <;> intro hr
  case ok.ok => exact hk _ _ hr
  case err.err => obtain ⟨rfl, hr⟩ := hr; exact hr.raise _
  case waiting.waiting => exact hr.waits
  case cut.cut => exact hr.waits
  case refused.refused => exact hr
  all_goals exact hr.elim

/-! ### ReadExact -/

/-- Two `ReadExact`s end in the same way, in states alike. -/
def ReadResult.Alike : ReadResult → ReadResult → Prop
  | .full s, .full t => ReadingAlike s t
  | .short s, .short t => ReadingAlike s t
  | .err e s, .err e' t => e' = e ∧ ReadingAlike s t
  | .waiting s, .waiting t => ReadingAlike s t
  | .cut s, .cut t => Machine.Alike s t
  | .refused r, .refused r' => r = r'
  | _, _ => False

theorem ReadingAlike.readLoop (h : ReadingAlike s t) (xs : List Input) : (readLoop xs s).Alike (readLoop xs t) := by
  induction xs generalizing s t with
  | nil =>
    unfold Machine.readLoop
    rw [h.missing]
    split <;> exact h
  | cons x xs ih =>
    have hx := h.await xs
    rw [readLoop.eq_def, readLoop.eq_def (x :: xs) t]
    dsimp only
    rw [h.missing]
    split
    · exact h
    have go : ReadResult.Alike (match (s.await xs).meanwhile x with | .ok s' => Machine.readLoop xs s' | .error r => .refused r)
        (match (t.await xs).meanwhile x with | .ok s' => Machine.readLoop xs s' | .error r => .refused r) := by
      rcases meanwhile_uniform x with ⟨r, hr⟩ | hok
      · rw [hr, hr]; rfl
      · rw [hok, hok]; exact ih (hx.passed x)
    cases x with
    | rxDeliver k =>
      dsimp only
      rw [h.granted]
      split
      · exact hx.record _
      · exact ih (hx.take _)
    | rxTimeout => exact hx.record _
    | rxErr e => exact ⟨rfl, hx.record _⟩
    | reset k => exact hx.toAlike.resetBlock
    | offer r | arrive b | hostWrite x b | hostRead x n | txOk | txErr e k | proceed => exact go

/-- The rule for `afterRead`: what it goes on with is alike, and no other register has changed. -/
theorem ReadingAlike.afterRead (h : ReadingAlike s t) (onShort : ErrKind) {k : State → Result}
    (hk : ∀ u v, ReadingAlike u v → ReadFrame s u → ReadFrame t v → SameOutcome (k u) (k v)) :
    SameOutcome (afterRead s onShort k) (afterRead t onShort k) := by
  unfold Machine.afterRead
  rw [h.inputs]
  have hr := h.readLoop s.inputs
  have hs := readLoop_spec s.inputs s rfl
  have ht := readLoop_spec s.inputs t h.inputs
  revert hr hs ht
  cases Machine.readLoop s.inputs s <;> cases Machine.readLoop s.inputs t <;> intro hr hs ht
  case full.full =>
    obtain ⟨⟨_, _, -, hs⟩, -⟩ := hs
    obtain ⟨⟨_, _, -, ht⟩, -⟩ := ht
    exact hk _ _ hr hs.frame ht.frame
  case short.short => exact hr.raise _
  case err.err => obtain ⟨rfl, hr⟩ := hr; exact hr.raise _
  case waiting.waiting => exact hr.waits
  case cut.cut => exact hr.waits
  case refused.refused => exact hr
  all_goals exact hr.elim

theorem ReadingAlike.readExactLoop (h : ReadingAlike s t) : SameOutcome (readExactLoop s) (readExactLoop t) := by
  have ends : ∀ {u v : State} {k : State → Result}, ReadingAlike u v → (∀ u v, Alike u v → SameOutcome (k u) (k v)) →
      SameOutcome (Machine.writeOut u.acc u k) (Machine.writeOut v.acc v k) := fun hr hk => by rw [hr.acc]; exact hr.writeOut _ hk
  unfold Machine.readExactLoop
  rw [h.inputs]
  have hr := h.readLoop s.inputs
  revert hr
  cases Machine.readLoop s.inputs s <;> cases Machine.readLoop s.inputs t <;> intro hr
  case full.full => exact ends hr fun _ _ h => h.finish
  case short.short => exact ends hr fun _ _ h => h.finish
  case err.err => obtain ⟨rfl, hr⟩ := hr; exact ends hr fun _ _ h => h.raiseKeeping _
  case waiting.waiting => exact hr.waits
  case cut.cut => exact hr.waits
  case refused.refused => exact hr
  all_goals exact hr.elim

/-! ### The frame decoder -/

theorem Alike.extractFrom (h : Alike s t) (frame : Bytes) (b : Busy) : SameOutcome (extractFrom frame b s) (extractFrom frame b t) := by
  have hd : Alike (s.decodeLen frame) (t.decodeLen frame) := ⟨h.world, h.req, h.inBuf, h.out, h.seq, h.quiet, h.quiet'⟩
  have hl : (t.decodeLen frame).len = (s.decodeLen frame).len := by simp [h.lengthRule]
  unfold Machine.extractFrom
  split
  · exact h.raise _
  · dsimp only
    rw [hl]
    split
    · exact hd.raise _
    · unfold sliceFrame
      rw [State.goto_len, State.goto_len, hl]
      exact (hd.goto b).writeOut _ fun _ _ h => h.finish

theorem Alike.frameDone (h : Alike s t) (hf : t.fbuf = s.fbuf) (u : FrameUser) : SameOutcome (frameDone u s) (frameDone u t) := by
  cases u with
  | decodeResp =>
    simp only [Machine.frameDone, hf]
    exact h.writeOut _ fun _ _ h => h.finish
  | exchange =>
    simp only [Machine.frameDone, hf]
    exact (h.goto _).extractFrom _ _

/-- A waiting read leaves the registers of the decoder alone. -/
theorem DecodingAlike.afterRead (h : DecodingAlike s t) (onShort : ErrKind) {k : State → Result}
    (hk : ∀ u v, DecodingAlike u v → SameOutcome (k u) (k v)) : SameOutcome (afterRead s onShort k) (afterRead t onShort k) :=
  h.toReadingAlike.afterRead onShort fun u v hr hs ht =>
    hk u v ⟨hr, by rw [hs.bcc, ht.bcc, h.bcc], by rw [hs.fbuf, ht.fbuf, h.fbuf], by rw [hs.abuf, ht.abuf, h.abuf]⟩

/-- The next field's read begins in both. -/
theorem DecodingAlike.next (h : DecodingAlike s t) (b : Busy) (n : BitVec 16) :
    DecodingAlike (s.takeField.enterRead b n) (t.takeField.enterRead b n) :=
  ⟨⟨⟨h.world, h.req, h.inBuf, h.out, rfl, h.quiet, h.quiet'⟩, rfl, rfl⟩, by simp [h.bcc, h.acc], by simp [h.fbuf, h.acc], h.abuf⟩

theorem DecodingAlike.rdBcc (h : DecodingAlike s t) (u : FrameUser) : SameOutcome (rdBcc u s) (rdBcc u t) :=
  h.afterRead _ fun v w hv => by
    have hcheck : w.acc.head? = some w.bcc ↔ v.acc.head? = some v.bcc := by rw [hv.acc, hv.bcc]
    have hf : w.fbuf ++ w.acc = v.fbuf ++ v.acc := by rw [hv.fbuf, hv.acc]
    by_cases hb : v.acc.head? = some v.bcc
    · rw [if_pos hb, if_pos (hcheck.mpr hb)]
      exact Alike.frameDone (s := { v with fbuf := v.fbuf ++ v.acc }) (t := { w with fbuf := w.fbuf ++ w.acc })
        ⟨hv.world, hv.req, hv.inBuf, hv.out, hv.seq, hv.quiet, hv.quiet'⟩ hf u
    · rw [if_neg hb, if_neg (mt hcheck.mp hb)]
      exact hv.raise _

theorem DecodingAlike.rdEnd (h : DecodingAlike s t) (u : FrameUser) : SameOutcome (rdEnd u s) (rdEnd u t) :=
  h.afterRead _ fun v w hv => by
    rw [hv.acc]
    split
    · exact (hv.next _ 1).rdBcc u
    · exact hv.raise _

theorem DecodingAlike.rdPayload (h : DecodingAlike s t) (u : FrameUser) : SameOutcome (rdPayload u s) (rdPayload u t) :=
  h.afterRead _ fun _ _ hv => (hv.next _ 1).rdEnd u

theorem DecodingAlike.rdLen (h : DecodingAlike s t) (u : FrameUser) : SameOutcome (rdLen u s) (rdLen u t) :=
  h.afterRead _ fun v w hv => by
    have hl : w.readLen.takeField.len = v.readLen.takeField.len := by simp [hv.lengthRule, hv.acc]
    have hr : DecodingAlike v.readLen w.readLen :=
      ⟨⟨⟨hv.world, hv.req, hv.inBuf, hv.out, hv.seq, hv.quiet, hv.quiet'⟩, hv.acc, hv.need⟩, hv.bcc, hv.fbuf, hv.abuf⟩
    dsimp only
    rw [hl]
    exact (hr.next _ _).rdPayload u

theorem DecodingAlike.rdAddr (h : DecodingAlike s t) (u : FrameUser) : SameOutcome (rdAddr u s) (rdAddr u t) :=
  h.afterRead _ fun v w hv => by
    rw [hv.acc, hv.abuf]
    split
    · exact (hv.next _ 2).rdLen u
    · exact hv.raise _

theorem DecodingAlike.rdStart (h : DecodingAlike s t) (u : FrameUser) : SameOutcome (rdStart u s) (rdStart u t) :=
  h.afterRead _ fun v w hv => by
    rw [hv.acc]
    split
    · exact (hv.next _ 2).rdAddr u
    · exact hv.raise _

/-- `DecodeFrame` sets every register it reads before it begins (R96). -/
theorem Alike.decodeFrame (h : Alike s t) (u : FrameUser) : SameOutcome (decodeFrame u s) (decodeFrame u t) :=
  DecodingAlike.rdStart (s := s.beginFrame u) (t := t.beginFrame u)
    ⟨⟨⟨h.world, h.req, h.inBuf, h.out, rfl, h.quiet, h.quiet'⟩, rfl, rfl⟩, rfl, rfl, congrArg addrDigits h.address⟩ u

/-! ### EXCHANGE -/

theorem Alike.exchangeTxEnq (h : Alike s t) : SameOutcome (exchangeTxEnq s) (exchangeTxEnq t) := by
  unfold Machine.exchangeTxEnq
  rw [h.address]
  split
  · exact h.raise _
  · exact Alike.afterTx (s := s.assembleEnq) (t := t.assembleEnq) ⟨h.world, h.req, h.inBuf, h.out, h.seq, h.quiet, h.quiet'⟩ _
      fun _ _ hu => hu.decodeFrame .exchange

theorem ReadingAlike.exchangeRdAckAddr (h : ReadingAlike s t) (hab : t.abuf = s.abuf) :
    SameOutcome (exchangeRdAckAddr s) (exchangeRdAckAddr t) :=
  h.afterRead _ fun u v hu hs ht => by
    rw [hu.acc, ht.abuf, hs.abuf, hab]
    split
    · exact (hu.goto _).exchangeTxEnq
    · exact hu.raise _

theorem ReadingAlike.exchangeRdAck (h : ReadingAlike s t) : SameOutcome (exchangeRdAck s) (exchangeRdAck t) :=
  h.afterRead _ fun u v hu _ _ => by
    rw [hu.acc]
    split
    · exact ReadingAlike.exchangeRdAckAddr (s := u.beginAckAddr) (t := v.beginAckAddr)
        ⟨⟨hu.world, hu.req, hu.inBuf, hu.out, rfl, hu.quiet, hu.quiet'⟩, rfl, rfl⟩ (congrArg addrDigits hu.address)
    · exact hu.raise _

theorem Alike.exchangeTxCmd (h : Alike s t) (hf : t.fbuf = s.fbuf) : SameOutcome (exchangeTxCmd s) (exchangeTxCmd t) := by
  unfold Machine.exchangeTxCmd
  rw [hf]
  exact h.afterTx _ fun _ _ hu => (hu.enterRead _ 1).exchangeRdAck

/-- The frame `BuildFrame` puts into `FBUF` is made of the configuration and the request (R91). -/
theorem Alike.assemble_fbuf (h : Alike s t) : t.assemble.fbuf = s.assemble.fbuf := by simp [h.lengthRule, h.operand, h.address]

theorem Alike.assemble (h : Alike s t) : Alike s.assemble t.assemble := ⟨h.world, h.req, h.inBuf, h.out, h.seq, h.quiet, h.quiet'⟩

theorem Alike.exchangeEnc (h : Alike s t) : SameOutcome (exchangeEnc s) (exchangeEnc t) := by
  unfold Machine.exchangeEnc
  rw [h.address, h.operand]
  split
  · exact h.raise _
  · exact (h.assemble.goto _).exchangeTxCmd h.assemble_fbuf

/-! ### Whole operations -/

theorem Alike.checksumFold (h : Alike s t) : SameOutcome (checksumFold s) (checksumFold t) := by
  unfold Machine.checksumFold
  rw [h.operand]
  exact h.writeOut _ fun _ _ h => h.finish

theorem Alike.encodeCmdCheck (h : Alike s t) : SameOutcome (encodeCmdCheck s) (encodeCmdCheck t) := by
  unfold Machine.encodeCmdCheck
  rw [h.address, h.operand]
  split
  · exact h.raise _
  · have hb := h.goto (.encodeCmd .build)
    simp only [encodeCmdBuild, hb.assemble_fbuf]
    exact hb.assemble.writeOut _ fun _ _ h => h.finish

theorem Alike.encodeEnqCheck (h : Alike s t) : SameOutcome (encodeEnqCheck s) (encodeEnqCheck t) := by
  unfold Machine.encodeEnqCheck
  rw [h.address]
  split
  · exact h.raise _
  · have hb : Alike (s.goto (.encodeEnq .build)).assembleEnq (t.goto (.encodeEnq .build)).assembleEnq :=
      ⟨h.world, h.req, h.inBuf, h.out, rfl, h.quiet, h.quiet'⟩
    simp only [encodeEnqBuild, State.assembleEnq_fbuf, State.address_goto, h.address]
    exact hb.writeOut _ fun _ _ h => h.finish

theorem Alike.decodeRespCheck (h : Alike s t) : SameOutcome (decodeRespCheck s) (decodeRespCheck t) := by
  unfold Machine.decodeRespCheck
  rw [h.address]
  split
  · exact h.raise _
  · exact h.decodeFrame .decodeResp

/-- Every operation starts alike from states that agree on the configuration, the operand and the world (R28). The word of `i` is kept as it is, so that nothing computes it. -/
theorem alike_start (i : Instr) (b : Busy) (hin : t.inBuf = s.inBuf) (hw : s.SameWorld t) : Alike (s.start i b) (t.start i b) :=
  have begun (w : Word) : Alike { s with req := w, seq := .busy b, out := [], respPending := false }
      { t with req := w, seq := .busy b, out := [], respPending := false } := ⟨hw, rfl, hin, rfl, rfl, rfl, rfl⟩
  begun (encode i)

theorem exec_sameOutcome (i : Instr) (hin : t.inBuf = s.inBuf) (hw : s.SameWorld t) : SameOutcome (exec i s) (exec i t) := by
  have start := fun b => alike_start i b hin hw
  cases i with
  | readExact a c =>
    rw [exec_readExact, exec_readExact]
    exact ((start .readExact).enterRead .readExact c).readExactLoop
  | checksum a c => exact (start _).checksumFold
  | encodeCmd a c => exact (start _).encodeCmdCheck
  | encodeEnq a c => exact (start _).encodeEnqCheck
  | decodeResp a c => exact (start _).decodeRespCheck
  | extractPayload a c =>
    have h := start (.extractPayload .check)
    show SameOutcome (extractPayloadCheck _) (extractPayloadCheck _)
    unfold extractPayloadCheck
    rw [h.operand]
    exact h.extractFrom _ _
  | exchange a c => exact (start _).exchangeEnc

end

/-- Settles O54: the two outcomes are those a host cannot tell apart. -/
theorem nothingIsLeftBetweenOperations : Obligations.NothingIsLeftBetweenOperations := by
  intro i s s' hin hw
  have h := exec_sameOutcome i hin hw
  revert h
  cases exec i s <;> cases exec i s' <;> exact id

end Sys2Proof.Machine
end

section
/-! An operation that waits goes on as if the answers had been there from the start (20_memory.md R47, 10_state.md R24). Each stage is compared with itself under
a longer timeline; where it waits, taking it up is the same stage again. -/

namespace Sys2Proof.Machine

/-- `r` is what an operation answers, `r'` what it answers when `ys` comes after the timeline: where it waited, `r'` is what taking it up with `ys` answers,
and where it ended, the same end with `ys` still to come. -/
def GoesOn (ys : List Input) (r r' : Result) : Prop :=
  ∀ t, r = .next t → (t.Waits → ∃ b, t.seq = .busy b ∧ r' = resume b (t.later ys)) ∧ (t.Ended → r' = .next (t.later ys))

section
variable {ys : List Input} {s t : State}

/-! ### The ways an answer goes on -/

theorem goesOn_ended (h : t.Ended) : GoesOn ys (.next t) (.next (t.later ys)) := by
  rintro _ ⟨⟩
  exact ⟨fun hw => absurd hw h.not_waits, fun _ => rfl⟩

theorem goesOn_waiting {b : Busy} {r : Result} (hs : t.seq = .busy b) (hr : r = resume b (t.later ys)) : GoesOn ys (.next t) r := by
  rintro _ ⟨⟩
  refine ⟨fun _ => ⟨b, hs, hr⟩, fun h => ?_⟩
  rw [h.1] at hs
  cases hs

theorem goesOn_cut {r : Result} (h : t.AsReset) : GoesOn ys (.next t) r := by
  rintro _ ⟨⟩
  exact ⟨fun hw => absurd hw h.not_waits, fun he => absurd he h.not_ended⟩

theorem goesOn_refused (r : Refusal) (r' : Result) : GoesOn ys (.refused r) r' := by
  rintro _ ⟨⟩

theorem goesOn_finish (s : State) : GoesOn ys (.next s.finish) (.next (s.later ys).finish) := goesOn_ended (t := s.finish) ⟨rfl, rfl⟩

theorem goesOn_raiseKeeping (s : State) (k : ErrKind) : GoesOn ys (.next (s.raiseKeeping k)) (.next ((s.later ys).raiseKeeping k)) :=
  goesOn_ended (t := s.raiseKeeping k) ⟨rfl, rfl⟩

theorem goesOn_raise (s : State) (k : ErrKind) : GoesOn ys (.next (s.raise k)) (.next ((s.later ys).raise k)) :=
  goesOn_ended (t := s.raise k) ⟨rfl, rfl⟩

/-- A check that does not look at the timeline comes out as before. -/
theorem goesOn_ite {c : Prop} [Decidable c] {a b a' b' : Result} (h1 : c → GoesOn ys a a') (h2 : ¬ c → GoesOn ys b b') :
    GoesOn ys (if c then a else b) (if c then a' else b') := by
  split
  · exact h1 ‹_›
  · exact h2 ‹_›

theorem writeOut_goesOn (v : Bytes) (s : State) {k : State → Result} (hk : ∀ u, GoesOn ys (k u) (k (u.later ys))) :
    GoesOn ys (writeOut v s k) (writeOut v (s.later ys) k) := by
  unfold writeOut State.memWrite
  rw [show (s.later ys).out = s.out from rfl]
  by_cases hv : s.out.length + v.length ≤ Config.maxOut
  · simp only [hv, if_true]
    exact hk { s with out := s.out ++ v }
  · simp only [hv, if_false]
    exact goesOn_refused _ _

/-- The rule for a reading stage: `resume` enters it as the operation did, and what follows the read goes on. -/
theorem afterRead_goesOn {b : Busy} {onShort : ErrKind} {k : State → Result} (hs : s.seq = .busy b)
    (hb : ∀ u, resume b u = afterRead u onShort k) (hk : ∀ u, GoesOn ys (k u) (k (u.later ys))) :
    GoesOn ys (afterRead s onShort k) (afterRead (s.later ys) onShort k) := by
  have h := readLoop_spec s.inputs s rfl
  unfold afterRead
  rw [show (s.later ys).inputs = s.inputs ++ ys from rfl, readLoop_later ys s.inputs s rfl]
  revert h
  cases readLoop s.inputs s with
  | full u => exact fun _ => hk u
  | short u => exact fun _ => goesOn_raise u _
  | err e u => exact fun _ => goesOn_raise u _
  | waiting u =>
    rintro ⟨⟨_, _, -, hr, -⟩, -, hi⟩
    have hin : (u.later ys).inputs = ys := by simp [State.later, hi]
    exact goesOn_waiting (hr.frame.seq.trans hs) (by rw [hb, afterRead, hin]; rfl)
  | cut t => rintro ⟨_, _, u, -, -, rfl, -⟩; exact goesOn_cut u.resetBlock_asReset
  | refused r => exact fun _ => goesOn_refused _ _

/-- The rule for a writing stage. -/
theorem afterTx_goesOn {b : Busy} {bytes : Bytes} {k : State → Result} (hs : s.seq = .busy b) (hne : bytes ≠ [])
    (hb : ∀ u, TxFrame s u → resume b (u.later ys) = afterTx bytes (u.later ys) k) (hk : ∀ u, GoesOn ys (k u) (k (u.later ys))) :
    GoesOn ys (afterTx bytes s k) (afterTx bytes (s.later ys) k) := by
  have h := awaitTx_spec bytes s.inputs s rfl hne
  unfold afterTx
  rw [show (s.later ys).inputs = s.inputs ++ ys from rfl, awaitTx_later bytes ys s.inputs s rfl]
  revert h
  cases awaitTx bytes s.inputs s with
  | ok u => exact fun _ => hk u
  | err e u => exact fun _ => goesOn_raise u _
  | waiting u =>
    rintro ⟨-, hf, -, hi⟩
    have hin : (u.later ys).inputs = ys := by simp [State.later, hi]
    exact goesOn_waiting (hf.seq.trans hs) (by rw [hb u hf, afterTx, hin]; rfl)
  | cut t => rintro ⟨_, u, -, rfl, -⟩; exact goesOn_cut u.resetBlock_asReset
  | refused r => exact fun _ => goesOn_refused _ _

/-! ### READ_EXACT -/

theorem readExactLoop_goesOn (hs : s.seq = .busy .readExact) : GoesOn ys (readExactLoop s) (readExactLoop (s.later ys)) := by
  have h := readLoop_spec s.inputs s rfl
  unfold readExactLoop
  rw [show (s.later ys).inputs = s.inputs ++ ys from rfl, readLoop_later ys s.inputs s rfl]
  revert h
  cases readLoop s.inputs s with
  | full u => exact fun _ => writeOut_goesOn u.acc u goesOn_finish
  | short u => exact fun _ => writeOut_goesOn u.acc u goesOn_finish
  | err e u => exact fun _ => writeOut_goesOn u.acc u fun v => goesOn_raiseKeeping v _
  | waiting u =>
    rintro ⟨⟨_, _, -, hr, -⟩, -, hi⟩
    have hin : (u.later ys).inputs = ys := by simp [State.later, hi]
    exact goesOn_waiting (hr.frame.seq.trans hs) (by rw [resume, readExactLoop, hin]; rfl)
  | cut t => rintro ⟨_, _, u, -, -, rfl, -⟩; exact goesOn_cut u.resetBlock_asReset
  | refused r => exact fun _ => goesOn_refused _ _

/-- READ_EXACT begins to read (R86). -/
theorem readExactBegun_goesOn (s : State) :
    GoesOn ys (readExactLoop (s.enterRead .readExact s.count)) (readExactLoop ((s.later ys).enterRead .readExact (s.later ys).count)) :=
  readExactLoop_goesOn (s := s.enterRead .readExact s.count) rfl

/-! ### The frame decoder -/

theorem extractFrom_goesOn (frame : Bytes) (b : Busy) (s : State) : GoesOn ys (extractFrom frame b s) (extractFrom frame b (s.later ys)) :=
  goesOn_ite (fun _ => goesOn_raise s _) fun _ => goesOn_ite (fun _ => goesOn_raise (s.decodeLen frame) _)
    fun _ => writeOut_goesOn _ ((s.decodeLen frame).goto b) goesOn_finish

theorem frameDone_goesOn (u : FrameUser) (s : State) : GoesOn ys (frameDone u s) (frameDone u (s.later ys)) := by
  cases u with
  | decodeResp => exact writeOut_goesOn s.fbuf s goesOn_finish
  | exchange => exact extractFrom_goesOn s.fbuf _ (s.goto (.exchange .extract))

theorem resume_place (u : FrameUser) (f : FrameStage) (s : State) : resume (u.place f) s = resumeFrame u f s := by cases u <;> rfl

theorem rdBcc_goesOn {u : FrameUser} (hs : s.seq = .busy (u.place .rdBcc)) : GoesOn ys (rdBcc u s) (rdBcc u (s.later ys)) :=
  afterRead_goesOn hs (resume_place u .rdBcc) fun v => goesOn_ite (fun _ => frameDone_goesOn u { v with fbuf := v.fbuf ++ v.acc })
    fun _ => goesOn_raise v _

theorem rdEnd_goesOn {u : FrameUser} (hs : s.seq = .busy (u.place .rdEnd)) : GoesOn ys (rdEnd u s) (rdEnd u (s.later ys)) :=
  afterRead_goesOn hs (resume_place u .rdEnd) fun v => goesOn_ite (fun _ => rdBcc_goesOn (s := v.takeField.enterRead _ 1) rfl)
    fun _ => goesOn_raise v _

theorem rdPayload_goesOn {u : FrameUser} (hs : s.seq = .busy (u.place .rdPayload)) : GoesOn ys (rdPayload u s) (rdPayload u (s.later ys)) :=
  afterRead_goesOn hs (resume_place u .rdPayload) fun v => rdEnd_goesOn (s := v.takeField.enterRead _ 1) rfl

theorem rdLen_goesOn {u : FrameUser} (hs : s.seq = .busy (u.place .rdLen)) : GoesOn ys (rdLen u s) (rdLen u (s.later ys)) :=
  afterRead_goesOn hs (resume_place u .rdLen) fun v => rdPayload_goesOn (s := v.readLen.takeField.enterRead _ (BitVec.ofNat 16 v.readLen.len)) rfl

theorem rdAddr_goesOn {u : FrameUser} (hs : s.seq = .busy (u.place .rdAddr)) : GoesOn ys (rdAddr u s) (rdAddr u (s.later ys)) :=
  afterRead_goesOn hs (resume_place u .rdAddr) fun v => goesOn_ite (fun _ => rdLen_goesOn (s := v.takeField.enterRead _ 2) rfl)
    fun _ => goesOn_raise v _

theorem rdStart_goesOn {u : FrameUser} (hs : s.seq = .busy (u.place .rdStart)) : GoesOn ys (rdStart u s) (rdStart u (s.later ys)) :=
  afterRead_goesOn hs (resume_place u .rdStart) fun v => goesOn_ite (fun _ => rdAddr_goesOn (s := v.takeField.enterRead _ 2) rfl)
    fun _ => goesOn_raise v _

theorem decodeFrame_goesOn (u : FrameUser) (s : State) : GoesOn ys (decodeFrame u s) (decodeFrame u (s.later ys)) :=
  rdStart_goesOn (s := s.beginFrame u) rfl

/-! ### EXCHANGE -/

/-- Computing the enquiry again leaves a block that holds it as it is (R115). -/
theorem State.assembleEnq_of_fbuf (h : s.fbuf = s.enquiry) : s.assembleEnq = s := by
  rw [State.assembleEnq, show enqByte :: addrDigits s.address = s.fbuf from h.symm]

theorem exchangeTxEnq_of_le (h : s.address ≤ 15) : exchangeTxEnq s = afterTx s.enquiry s.assembleEnq (decodeFrame .exchange) := by
  rw [exchangeTxEnq, buildEnq_of_le _ h]; rfl

theorem exchangeTxEnq_goesOn (hs : s.seq = .busy (.exchange .txEnq)) : GoesOn ys (exchangeTxEnq s) (exchangeTxEnq (s.later ys)) := by
  by_cases ha : s.address ≤ 15
  · rw [exchangeTxEnq_of_le ha, exchangeTxEnq_of_le (s := s.later ys) ha]
    refine afterTx_goesOn (s := s.assembleEnq) hs (by simp [State.enquiry]) (fun u hf => ?_) (decodeFrame_goesOn .exchange)
    have hu : u.address = s.address := hf.address
    have he : (u.later ys).enquiry = s.enquiry := congrArg (fun a => enqByte :: addrDigits a) hu
    show exchangeTxEnq (u.later ys) = _
    rw [exchangeTxEnq_of_le (s := u.later ys) (by show u.address ≤ 15; rw [hu]; exact ha), State.assembleEnq_of_fbuf (s := u.later ys) (hf.fbuf.trans he.symm), he]
  · rw [exchangeTxEnq, exchangeTxEnq, show (s.later ys).address = s.address from rfl, buildEnq_of_gt _ (by omega)]
    exact goesOn_raise s _

theorem exchangeRdAckAddr_goesOn (hs : s.seq = .busy (.exchange .rdAckAddr)) :
    GoesOn ys (exchangeRdAckAddr s) (exchangeRdAckAddr (s.later ys)) :=
  afterRead_goesOn hs (fun _ => rfl) fun v => goesOn_ite (fun _ => exchangeTxEnq_goesOn (s := v.goto (.exchange .txEnq)) rfl)
    fun _ => goesOn_raise v _

theorem exchangeRdAck_goesOn (hs : s.seq = .busy (.exchange .rdAck)) : GoesOn ys (exchangeRdAck s) (exchangeRdAck (s.later ys)) :=
  afterRead_goesOn hs (fun _ => rfl) fun v => goesOn_ite (fun _ => exchangeRdAckAddr_goesOn (s := v.beginAckAddr) rfl)
    fun _ => goesOn_raise v _

theorem exchangeTxCmd_goesOn (hs : s.seq = .busy (.exchange .txCmd)) (hne : s.fbuf ≠ []) :
    GoesOn ys (exchangeTxCmd s) (exchangeTxCmd (s.later ys)) :=
  afterTx_goesOn hs hne (fun u hf => by rw [← hf.fbuf]; rfl) fun v => exchangeRdAck_goesOn (s := v.enterRead (.exchange .rdAck) 1) rfl

theorem exchangeEnc_goesOn (s : State) : GoesOn ys (exchangeEnc s) (exchangeEnc (s.later ys)) := by
  unfold exchangeEnc
  rw [show (s.later ys).address = s.address from rfl, show (s.later ys).operand = s.operand from rfl]
  split
  · exact goesOn_raise s _
  · exact exchangeTxCmd_goesOn (s := s.assemble.goto (.exchange .txCmd)) rfl (by simp [commandFrame, frameWith])

/-! ### Whole operations -/

theorem checksumFold_goesOn (s : State) : GoesOn ys (checksumFold s) (checksumFold (s.later ys)) :=
  writeOut_goesOn [xorfold s.operand] s goesOn_finish

theorem encodeCmdCheck_goesOn (s : State) : GoesOn ys (encodeCmdCheck s) (encodeCmdCheck (s.later ys)) := by
  unfold encodeCmdCheck
  rw [show (s.later ys).address = s.address from rfl, show (s.later ys).operand = s.operand from rfl]
  split
  · exact goesOn_raise s _
  · exact writeOut_goesOn _ (s.goto (.encodeCmd .build)).assemble goesOn_finish

theorem encodeEnqCheck_goesOn (s : State) : GoesOn ys (encodeEnqCheck s) (encodeEnqCheck (s.later ys)) := by
  unfold encodeEnqCheck
  rw [show (s.later ys).address = s.address from rfl]
  split
  · exact goesOn_raise s _
  · exact writeOut_goesOn _ (s.goto (.encodeEnq .build)).assembleEnq goesOn_finish

theorem decodeRespCheck_goesOn (s : State) : GoesOn ys (decodeRespCheck s) (decodeRespCheck (s.later ys)) :=
  goesOn_ite (fun _ => goesOn_raise s _) fun _ => decodeFrame_goesOn .decodeResp s

theorem extractPayloadCheck_goesOn (s : State) : GoesOn ys (extractPayloadCheck s) (extractPayloadCheck (s.later ys)) :=
  extractFrom_goesOn s.operand _ s

/-- The start of an operation does not look at the timeline. The word of `i` is kept as it is, so that nothing computes it. -/
theorem State.start_later (i : Instr) (b : Busy) (s : State) : (s.later ys).start i b = (s.start i b).later ys :=
  have begun (w : Word) : { s.later ys with req := w, seq := .busy b, out := [], respPending := false } =
      ({ s with req := w, seq := .busy b, out := [], respPending := false } : State).later ys := rfl
  begun (encode i)

theorem start_goesOn {f : State → Result} (hf : ∀ u, GoesOn ys (f u) (f (u.later ys))) (i : Instr) (b : Busy) (s : State) :
    GoesOn ys (f (s.start i b)) (f ((s.later ys).start i b)) := by
  rw [State.start_later]
  exact hf (s.start i b)

theorem exec_goesOn (i : Instr) (s : State) : GoesOn ys (exec i s) (exec i (s.later ys)) := by
  cases i with
  | readExact a c => exact start_goesOn readExactBegun_goesOn _ _ s
  | checksum a c => exact start_goesOn checksumFold_goesOn _ _ s
  | encodeCmd a c => exact start_goesOn encodeCmdCheck_goesOn _ _ s
  | encodeEnq a c => exact start_goesOn encodeEnqCheck_goesOn _ _ s
  | decodeResp a c => exact start_goesOn decodeRespCheck_goesOn _ _ s
  | extractPayload a c => exact start_goesOn extractPayloadCheck_goesOn _ _ s
  | exchange a c => exact start_goesOn exchangeEnc_goesOn _ _ s

end

/-- Settles O55: a waiting operation is taken up by `resume` at its stage, and its step settles it. -/
theorem waitingOperationGoesOn : Obligations.WaitingOperationGoesOn := by
  intro i s t later hne ht
  obtain ⟨waits, ends⟩ := exec_goesOn (ys := later) i s t ht
  refine ⟨fun hw => ?_, ends⟩
  obtain ⟨b, hs, hr⟩ := waits hw
  have hin : { t with inputs := later } = t.later later := by simp [State.later, hw.2.1]
  rw [hin, step_busy (s := t.later later) hs (State.not_hung (by simp [State.later, hne])), ← hr]
  rfl

end Sys2Proof.Machine
end

section
/-! The transport around the block (20_memory.md R38 to R51): what an operation reads and writes of it, how a failed write ends EXCHANGE, and when
the host may use it itself. -/

namespace Sys2Proof.Machine

/-! ### Accesses and received bytes -/

/-- Settles O43: the history grows by allowed accesses, and the operation's profile says of which kind they are. -/
theorem transportAccessPerOperation : Obligations.TransportAccessPerOperation := by
  intro i s t ht
  obtain ⟨used, evs, hm, -, hpr⟩ := (exec_spec i s).of_next ht
  refine ⟨evs, hm.history, hm.allowed, ?_⟩
  cases i with
  | readExact a c | decodeResp a c => exact hpr.1
  | exchange a c => trivial
  | checksum a c | encodeCmd a c | encodeEnq a c | extractPayload a c => exact hpr.1

/-- Settles O44: the bytes are conserved however the world moves on. -/
theorem receivedBytesAreConserved : Obligations.ReceivedBytesAreConserved := by
  intro i s t ht
  obtain ⟨used, evs, hm, -⟩ := (exec_spec i s).of_next ht
  exact ⟨used, evs, hm.inputs, hm.history, hm.rx⟩

/-! ### Failed writes of EXCHANGE -/

section
variable {a : BitVec 8} {c : BitVec 16} {s t : State} {seen more : Bytes} {ks : List Nat} {rest : List Input} {e : IoErr} {n : Nat}

/-- The write of an accepted command fails: nothing has been read, and the error is raised (R40, R112). -/
theorem exchange_command_fails (h : checkCommand a.toNat s.inBuf = none) (hi : s.inputs = .txErr e n :: rest) :
    ∃ v : State, exec (.exchange a c) s = .next (v.raise (.ioError e)) ∧ v.rxResidue = s.rxResidue ∧ v.inputs = rest ∧
      v.txLine = s.txLine ++ (commandFrame s.lengthRule a.toNat s.inBuf).take n ∧
      v.history = s.history ++ [.tx (commandFrame s.lengthRule a.toNat s.inBuf) (.err e)] := by
  have hfb : ((s.exchangeBegun a c).assemble.goto (.exchange .txCmd)).fbuf = commandFrame s.lengthRule a.toNat s.inBuf := by
    rw [State.goto_fbuf, State.assemble_fbuf, State.operand_eq, State.exchangeBegun_address]; rfl
  have hx := exec_exchange_of_none a c s h
  rw [exchangeTxCmd, hfb, afterTx_err (s := (s.exchangeBegun a c).assemble.goto (.exchange .txCmd)) (ks := []) hi] at hx
  exact ⟨_, hx, rfl, rfl, rfl, rfl⟩

/-- The write of the enquiry fails (R40, R115). -/
theorem exchangeTxEnq_fails (h : Sent a s seen more ks (.txErr e n :: rest) t) (ha : a.toNat ≤ 15) :
    exchangeTxEnq t = .next (State.raise (.ioError e)
      (((t.assembleEnq.await rest).send ((enqByte :: addrDigits a.toNat).take n)).record (.tx (enqByte :: addrDigits a.toNat) (.err e)))) := by
  rw [exchangeTxEnq, h.address, buildEnq_of_le _ ha]
  exact afterTx_err (s := t.assembleEnq) h.inputs

end

/-- Settles O37: the command's write fails at once; the enquiry's fails where the acknowledged exchange has come to it. -/
theorem exchangeWriteFailures : Obligations.ExchangeWriteFailures := by
  intro a c s e n more ks rest ha hlo hhi
  have hcheck := checkCommand_none ha hlo hhi
  constructor
  · intro hi
    obtain ⟨t, hx, hrx, hin, hline, hhist⟩ := exchange_command_fails (c := c) hcheck hi
    exact ⟨_, hx, ⟨rfl, rfl⟩, rfl, rfl, rfl, hrx, hin, hline, hhist⟩
  · rintro hrx ⟨hk, hl⟩ hi
    obtain ⟨js, t, hx, -, hsent⟩ := exchange_acknowledged (c := c) hcheck hrx hi hk hl
    refine ⟨_, hx.trans (exchangeTxEnq_fails hsent ha), ⟨rfl, rfl⟩, rfl, rfl, rfl, hsent.rx, rfl, ?_⟩
    exact congrArg (· ++ (enqByte :: addrDigits a.toNat).take n) hsent.line

/-! ### The host's own use of the transport -/

section
variable {s : State} {x : Input} {xs : List Input} {r : Refusal} {bytes : Bytes} {k : State → Result}

/-- A waiting write is refused with what the outside world does next. -/
theorem afterTx_refused (hi : s.inputs = x :: xs) (hx : (s.await xs).meanwhile x = .error r) : afterTx bytes s k = .refused r := by
  have : awaitTx bytes (x :: xs) s = .refused r := by
    cases x with
    | offer q | arrive b | hostWrite e b | hostRead e n | rxDeliver n | rxTimeout | rxErr e | proceed => simp only [awaitTx, hx]
    | txOk | txErr e n | reset n => cases hx
  rw [afterTx, hi, this]

/-- A waiting read is refused with what the outside world does next. -/
theorem readLoop_refused (hm : s.missing ≠ 0) (hx : (s.await xs).meanwhile x = .error r) : readLoop (x :: xs) s = .refused r := by
  cases x with
  | offer q | arrive b | hostWrite e b | hostRead e n | txOk | txErr e n | proceed => simp only [readLoop, if_neg hm, hx]
  | rxDeliver n | rxTimeout | rxErr e | reset n => cases hx

theorem afterRead_refused {onShort : ErrKind} (hm : s.missing ≠ 0) (hi : s.inputs = x :: xs) (hx : (s.await xs).meanwhile x = .error r) :
    afterRead s onShort k = .refused r := by
  rw [afterRead, hi, readLoop_refused hm hx]

theorem readExactLoop_refused (hm : s.missing ≠ 0) (hi : s.inputs = x :: xs) (hx : (s.await xs).meanwhile x = .error r) :
    readExactLoop s = .refused r := by
  rw [readExactLoop, hi, readLoop_refused hm hx]

theorem resumeFrame_refused (u : FrameUser) (f : FrameStage) (hm : s.missing ≠ 0) (hi : s.inputs = x :: xs)
    (hx : (s.await xs).meanwhile x = .error r) : resumeFrame u f s = .refused r := by
  cases f with
  | rdStart | rdAddr | rdLen | rdPayload | rdEnd | rdBcc => exact afterRead_refused hm hi hx

/-- A block that waits at a reading stage misses bytes. -/
theorem State.missing_of_awaiting {b : Busy} (hs : s.seq = .busy b) (hb : b.access = .rx) (h : s.awaiting = true) : s.missing ≠ 0 := by
  simpa [State.awaiting, hs, hb] using h

/-- A properly waiting block is refused with what the outside world does next, at whatever stage it waits (R18, R51). -/
theorem resume_refused {b : Busy} (hs : s.seq = .busy b) (h : busyInv b s) (hi : s.inputs = x :: xs)
    (hx : (s.await xs).meanwhile x = .error r) : resume b s = .refused r := by
  obtain ⟨haw, -, -, hb⟩ := h
  have hm : b.access = .rx → s.missing ≠ 0 := fun hrx => State.missing_of_awaiting hs hrx haw
  cases b with
  | readExact => exact readExactLoop_refused (hm rfl) hi hx
  | decodeResp st =>
    cases st with
    | check => exact hb.elim
    | frame f => exact resumeFrame_refused _ f (hm rfl) hi hx
  | exchange st =>
    obtain ⟨-, ha, hst⟩ := hb
    cases st with
    | enc | extract => exact hst.elim
    | txCmd => exact afterTx_refused hi hx
    | rdAck | rdAckAddr => exact afterRead_refused (hm rfl) hi hx
    | txEnq =>
      rw [resume, exchangeTxEnq_of_le ha, State.assembleEnq_of_fbuf hst]
      exact afterTx_refused hi hx
    | frame f => exact resumeFrame_refused _ f (hm rfl) hi hx
  | checksum | encodeCmd st | encodeEnq st | extractPayload st => exact hb.elim

/-- So is its step. -/
theorem step_refused_of_awaiting (hinv : s.Inv) (haw : s.awaiting = true) (hi : s.inputs = x :: xs)
    (hx : (s.await xs).meanwhile x = .error r) : step s = .refused r := by
  cases hs : s.seq with
  | idle => simp [State.awaiting, hs] at haw
  | busy b =>
    rw [step_busy hs (State.not_hung (by simp [hi])), resume_refused hs (((State.inv_iff s).mp hinv).2 b hs) hi hx]
    rfl

end

/-- Settles O51: an access in its exchange's turn goes through while the block is idle, and is refused while it waits. -/
theorem hostUsesTransportOnlyWhileIdle : Obligations.HostUsesTransportOnlyWhileIdle := by
  refine ⟨fun s x b rest hs ho hi hx => ?_, fun s x n rest hs ho hi hx => ?_,
    fun s x b rest hinv haw hi => step_refused_of_awaiting hinv haw hi rfl,
    fun s x n rest hinv haw hi => step_refused_of_awaiting hinv haw hi rfl⟩
  · rw [step_idle hs ho, stepIdle_hostWrite hi, inTurn_of_turn (s := s.await rest) fun _ => hx]
    exact ⟨_, rfl, rfl, rfl, rfl, rfl⟩
  · rw [step_idle hs ho, stepIdle_hostRead hi, inTurn_of_turn (s := s.await rest) fun _ => hx]
    exact ⟨_, rfl, rfl, rfl, rfl, rfl⟩

end Sys2Proof.Machine
end

section
/-! The request word and the operations it names (30_encoding.md R54 to R58, R75 to R77): decoding and encoding are inverse, a reserved word
ends at once, and an accepted one comes to one response at most, with a status R58 lists for it. -/

namespace Sys2Proof.Machine

/-! ### Decoding and encoding -/

/-- No bit of an operation's word is dropped: all four fields of the word are the operation's own (R54, R55). -/
theorem decodeWord_encode (i : Instr) : decodeWord (encode i) = .ok i := by
  rw [decodeWord, if_pos (rsvField_encode i), opField_encode, addrField_encode, countField_encode]
  cases i <;> rfl

/-- A word with the fields of `i` and no reserved bit set is the word of `i`. -/
theorem decodeWord_of_fields {w : Word} {i : Instr} (hr : rsvField w = 0) (ho : opField w = i.opcode) (ha : addrField w = i.addr)
    (hc : countField w = i.count) : decodeWord w = .ok i := by
  have hw : encode i = w := by rw [encode, ← ho, ← ha, ← hc, requestWord_fields w hr]
  rw [← hw, decodeWord_encode]

theorem decodeWord_of_rsv {w : Word} (h : rsvField w ≠ 0) : decodeWord w = .error .reservedBits := if_neg h

theorem decodeWord_of_op_seven {w : Word} (hr : rsvField w = 0) (ho : opField w = 7) : decodeWord w = .error .reservedOp := by
  rw [decodeWord, if_pos hr, ho]; rfl

/-- A reserved encoding is no operation (R57). -/
theorem decodeWord_of_reserved {w : Word} (h : opField w = 7 ∨ rsvField w ≠ 0) : ∃ e, decodeWord w = .error e := by
  by_cases hr : rsvField w = 0
  · exact ⟨_, decodeWord_of_op_seven hr (h.resolve_right (not_not_intro hr))⟩
  · exact ⟨_, decodeWord_of_rsv hr⟩

/-- Settles O1: the word's four fields are read back one by one, and the operation code selects the constructor. -/
theorem decodeOfEncodeIsTheOperation : Obligations.DecodeOfEncodeIsTheOperation := decodeWord_encode

/-- Settles O2: the decoder has found the reserved bits 0, so the fields make up the whole word. -/
theorem encodeOfDecodeIsTheWord : Obligations.EncodeOfDecodeIsTheWord := fun _ _ h => encode_of_decodeWord h

/-- Settles O3: with the reserved bits 0 a word is that of the operation with its fields, or has operation code 7. -/
theorem operationCodeSelectsOperation : Obligations.OperationCodeSelectsOperation := by
  intro w
  refine ⟨fun hr => ?_, decodeWord_of_rsv⟩
  have select : ∀ i : Instr, i.addr = addrField w → i.count = countField w → opField w = i.opcode → decodeWord w = .ok i :=
    fun i ha hc ho => decodeWord_of_fields hr ho ha.symm hc.symm
  exact ⟨select (.readExact _ _) rfl rfl, select (.checksum _ _) rfl rfl, select (.encodeCmd _ _) rfl rfl, select (.encodeEnq _ _) rfl rfl,
    select (.decodeResp _ _) rfl rfl, select (.extractPayload _ _) rfl rfl, select (.exchange _ _) rfl rfl, decodeWord_of_op_seven hr⟩

/-- Settles O4: seven of the words are those of the operations named, and two are reserved. -/
theorem writtenWordsDecode : Obligations.WrittenWordsDecode :=
  ⟨decodeWord_encode (.readExact 0 3), decodeWord_encode (.checksum 0x12 0xABCD), decodeWord_encode (.encodeCmd 15 0),
    decodeWord_encode (.encodeEnq 16 0), decodeWord_encode (.decodeResp 2 0), decodeWord_encode (.extractPayload 0 0),
    decodeWord_encode (.exchange 5 0), decodeWord_of_rsv (by decide), decodeWord_of_op_seven (by decide) (by decide)⟩

/-- Settles O56: an assembled EXCHANGE has no ignored field to lose, and the payloads are those of the tables. -/
theorem pseudoOperationsExpand : Obligations.PseudoOperationsExpand :=
  ⟨fun a _ => ⟨decodeWord_encode (.exchange a 0), rfl⟩, rfl, rfl, rfl, rfl, rfl, rfl, fun _ => congrArg (fun b => [0x46, 0x43, b]) (BitVec.ofNat_add ..), fun _ => rfl,
    rfl, rfl, rfl, rfl, rfl, rfl, fun _ _ => rfl, fun _ _ => rfl⟩

/-! ### The end of a request -/

/-- Settles O7: no operation is run; the end of the reserved request is handed over, since no reset is next. -/
theorem reservedEncodingEndsIllegal : Obligations.ReservedEncodingEndsIllegal := by
  intro s r rest hs ho hw hq hq'
  obtain ⟨e, hd⟩ := decodeWord_of_reserved hw
  have ht := step_rejects hs ho hq hd
  rw [State.concluded_of_quiet ((s.moved.accept r rest).illegal r.word) hq'] at ht
  exact ⟨_, ht, ⟨rfl, rfl⟩, rfl, rfl, rfl, rfl, rfl, rfl, rfl, rfl, rfl, rfl, rfl, rfl, rfl, rfl, rfl, rfl, rfl⟩

/-- What settles has ended with a response, or waits with none, or was cut off by a reset that was used up and left neither output nor response. -/
theorem Settled.one_response {w : Word} {used : List Input} {s t : State} (h : Settled w used s t) :
    t.Ended ∨ t.Waits ∨ (t.seq = .idle ∧ t.out = [] ∧ t.response = none ∧ ∃ k, Input.reset k ∈ used) := by
  rcases h with ⟨he, -⟩ | ⟨hw, -⟩ | ⟨hr, hk⟩
  · exact .inl he
  · exact .inr (.inl hw)
  · rw [← hr]
    exact .inr (.inr ⟨rfl, rfl, rfl, hk⟩)

/-- Settles O9: an operation settles, and so does the step that accepts it or takes it up, unless a reset comes before the acceptance. -/
theorem oneResponsePerOperation : Obligations.OneResponsePerOperation := by
  refine ⟨fun i s t ht => ?_, fun s t r rest hs ho ht => ?_, fun b s t hinv hs ht => ?_⟩
  · obtain ⟨used, evs, hm, hset, -⟩ := (exec_spec i s).of_next ht
    exact ⟨used, hm.inputs, hset.one_response⟩
  · rcases step_offered hs ho ht with ⟨k, xs, hi, rfl⟩ | ⟨uses, -, used, evs, hm, hset⟩
    · exact ⟨[.reset k], hi, .inr (.inr ⟨rfl, rfl, rfl, k, by simp⟩)⟩
    · obtain ⟨first, hfirst⟩ := Moves.moved s
      refine ⟨first ++ used, ?_, ?_⟩
      · rw [hfirst.inputs, List.append_assoc, ← hm.inputs]; rfl
      · exact hset.one_response.imp_right (.imp_right fun ⟨h1, h2, h3, k, hk⟩ => ⟨h1, h2, h3, k, List.mem_append_right _ hk⟩)
  · cases hh : s.hung with
    | true => rw [step_hung hs hh] at ht; cases ht
    | false =>
      rw [step_busy hs hh] at ht
      obtain ⟨used, evs, hm, hset⟩ := Settles.settle (resume_spec hs (((State.inv_iff s).mp hinv).2 b hs)) ht
      exact ⟨used, hm.inputs, hset.one_response⟩

/-- Settles O45: the profile of each operation names its statuses. -/
theorem statusesPerOperation : Obligations.StatusesPerOperation := by
  intro i s t ht he
  obtain ⟨used, evs, -, -, hpr⟩ := (exec_spec i s).of_next ht
  cases i with
  | readExact a c => exact hpr.2.1 he
  | checksum a c => exact hpr.2.2
  | encodeCmd a c => exact hpr.2.2.imp_right And.left
  | encodeEnq a c => exact hpr.2.2.imp_right And.left
  | decodeResp a c => exact (hpr.2.2 he).imp_right And.left
  | extractPayload a c => exact hpr.2.2.imp_right And.left
  | exchange a c =>
    rcases hpr he with h0 | ⟨h, -⟩
    · exact .inl (by rw [h0]; decide)
    · exact h

end Sys2Proof.Machine
end

section
/-! Frames in both directions (30_encoding.md R62 to R69, 41_codec.md R91 to R107): the length field, the command frame ENCODE_CMD builds, the
response frame DECODE_RESP takes, and what EXTRACT_PAYLOAD makes of a frame whose length field is too short for it. -/

namespace Sys2Proof.Machine

/-! ### The length field -/

/-- What is read back of a historical length field (R67). -/
theorem lendec_lenenc_historical (n : Nat) : lendec .historical (lenenc .historical n).1 (lenenc .historical n).2 = n % 256 := by
  simp [lendec, lenenc]

/-- What is read back of a FIXED length field (R68). -/
theorem lendec_lenenc_fixed {n : Nat} (h : n ≤ 65535) : lendec .fixed (lenenc .fixed n).1 (lenenc .fixed n).2 = n := by
  simp only [lendec, lenenc, BitVec.toNat_ofNat]
  omega

/-- Settles O17: a length is read back mod 256, so it comes back whole just when it is below 256. -/
theorem historicalLengthField : Obligations.HistoricalLengthField := by
  refine ⟨fun _ => rfl, fun h l => ⟨rfl, ?_⟩, lendec_lenenc_historical, fun n => ?_⟩
  · have := h.isLt
    have := l.isLt
    simp only [lendec]
    omega
  · rw [lendec_lenenc_historical]
    omega

/-- Settles O18: the two bytes are the quotient and the remainder of a division by 256. -/
theorem fixedLengthField : Obligations.FixedLengthField :=
  ⟨fun _ => rfl, fun h l => ⟨rfl, lendec_le .fixed h l⟩, fun _ => lendec_lenenc_fixed⟩

/-- The length bytes of a frame no longer than `BuildFrame` allows (R67, R68). -/
theorem lenenc_eq (rule : LengthRule) {n : Nat} (h : n ≤ 65535) :
    lenenc rule n = (if rule = .historical then 0 else BitVec.ofNat 8 (n / 256), BitVec.ofNat 8 n) := by
  have hlow : BitVec.ofNat 8 (n % 256) = BitVec.ofNat 8 n := BitVec.eq_of_toNat_eq (by simp)
  cases rule with
  | historical => simp [lenenc, hlow]
  | fixed => simp [lenenc, hlow, Nat.mod_eq_of_lt (show n / 256 < 256 by omega)]

/-! ### ENCODE_CMD -/

/-- ENCODE_CMD of a valid command ends with its frame in `OUT` and in `FBUF`, and the frame's checksum in `BCC` (R91, R93). -/
theorem exec_encodeCmd_builds {a : BitVec 8} (c : BitVec 16) {s : State} (ha : a.toNat ≤ 15) (hlo : 1 ≤ s.inBuf.length) (hhi : s.inBuf.length ≤ 65535) :
    ∃ t, exec (.encodeCmd a c) s = .next t ∧ t.Ended ∧ t.status = 0 ∧ t.out = commandFrame s.lengthRule a.toNat s.inBuf ∧ t.fbuf = t.out ∧
      t.bcc = xorfold (frameBody a.toNat (lenenc s.lengthRule s.inBuf.length).1 (lenenc s.lengthRule s.inBuf.length).2 s.inBuf) := by
  refine ⟨_, exec_encodeCmd_of_none a c s (checkCommand_none ha hlo hhi), ⟨rfl, rfl⟩, rfl, rfl, assemble_begun a c s, ?_⟩
  simp [State.encodeCmdBegun, State.operand_eq, Instr.addr]

/-- Settles O14: the length bytes of the command frame are those of R67 and R68. -/
theorem encodeCmdBuildsFrame : Obligations.EncodeCmdBuildsFrame := by
  intro a c s ha hlo hhi
  obtain ⟨t, ht, he, hst, hout, hf, hb⟩ := exec_encodeCmd_builds c ha hlo hhi
  rw [commandFrame, frameWith, lenenc_eq s.lengthRule hhi] at hout
  rw [lenenc_eq s.lengthRule hhi] at hb
  exact ⟨t, _, ht, rfl, he, hst, hout, hf, hb⟩

/-! ### EXTRACT_PAYLOAD of a frame -/

/-- The header, then what the payload's place begins with (R62). -/
theorem frameWith_eq_cons (a : Nat) (h l : Byte) (p : Bytes) :
    frameWith a h l p = startByte :: BitVec.ofNat 8 (0x30 + a / 10) :: BitVec.ofNat 8 (0x30 + a % 10) :: h :: l ::
      (p ++ [endByte, xorfold (frameBody a h l p)]) := by
  simp [frameWith, frameBody, addrDigits]

/-- EXTRACT_PAYLOAD of a frame goes by the length bytes alone: it takes as much of the payload as they say (R106, R107). -/
theorem exec_extractPayload_of_frameWith (a : BitVec 8) (c : BitVec 16) {s : State} {x : Nat} {h l : Byte} {p : Bytes}
    (hin : s.inBuf = frameWith x h l p) (hle : lendec s.lengthRule h l ≤ p.length) :
    ∃ t, exec (.extractPayload a c) s = .next t ∧ t.Ended ∧ t.status = 0 ∧ t.out = p.take (lendec s.lengthRule h l) := by
  have ht := exec_extractPayload_of_header a c s (hin.trans (frameWith_eq_cons x h l p))
  rw [if_neg (by rw [List.length_append]; omega), List.take_append_of_le_length hle] at ht
  exact ⟨_, ht, ⟨rfl, rfl⟩, rfl, rfl⟩

/-- Settles O34: the frame's length bytes say `|P| mod 256`, so EXTRACT_PAYLOAD takes that many bytes, which is fewer than there are. -/
theorem longHistoricalPayloadIsMisframed : Obligations.LongHistoricalPayloadIsMisframed := by
  intro a a3 c1 c3 s1 s3 ha hr1 hr3 hlo hhi
  obtain ⟨t1, ht1, -, hst1, hout1, -⟩ := exec_encodeCmd_builds c1 ha (by omega) hhi
  have hlen := lendec_lenenc_historical s1.inBuf.length
  rw [hr1, commandFrame] at hout1
  refine ⟨t1, ht1, hst1, by rw [hout1, frameWith_length], by rw [hout1, lenenc_eq _ hhi]; rfl, fun hin => ?_⟩
  obtain ⟨t3, ht3, -, hst3, hout3⟩ := exec_extractPayload_of_frameWith a3 c3 (hin.trans hout1) (by rw [hr3, hlen]; omega)
  rw [hr3, hlen] at hout3
  refine ⟨t3, ht3, hst3, hout3, fun heq => ?_⟩
  have := congrArg List.length (hout3.symm.trans heq)
  rw [List.length_take] at this
  omega

/-! ### DECODE_RESP -/

/-- Settles O27: the address is checked before anything else happens. -/
theorem decodeRespRejectsAddressFirst : Obligations.DecodeRespRejectsAddressFirst :=
  fun a c s h => ⟨_, exec_decodeResp_of_gt a c s h, ⟨rfl, rfl⟩, rfl, rfl, State.sameWorld_refl s⟩

/-- What DECODE_RESP answers once a whole frame is in (R104). -/
theorem frameDone_decodeResp {s t : State} {a : Nat} {h l : Byte} {p more : Bytes} {ks : List Nat} {rest : List Input}
    (hs : Seen s (frameWith a h l p) more ks rest t) (hp : p.length ≤ 65535) :
    frameDone .decodeResp t = .next { t with out := frameWith a h l p }.finish := by
  rw [frameDone, writeOut_of_le hs.out (by rw [hs.fbuf, frameWith_length]; omega), hs.fbuf]

/-- Settles O26: the decoder passes all its stages and hands the frame over. -/
theorem decodeRespAcceptsFrame : Obligations.DecodeRespAcceptsFrame := by
  intro a c s h l p body more ks rest ha hp hbody hrx ⟨hk, hl⟩ hi
  obtain rfl : body = frameBody a.toNat h l p := hbody
  have haddr : (s.decodeRespBegun a c).address = a.toNat := State.address_start s (.decodeResp a c) (.decodeResp .check)
  obtain ⟨t, js, hx, -, hlen, hbcc, hs⟩ := decode_done (s := s.decodeRespBegun a c) .decodeResp rfl (by rw [haddr]; exact hrx) hp hi hk hl
  rw [haddr] at hbcc hs
  obtain ⟨evs, hh, hread, -⟩ := hs.history
  rw [← exec_decodeResp_of_le a c s ha, frameDone_decodeResp hs (hp.trans_le (lendec_le ..))] at hx
  refine ⟨_, hx, ⟨rfl, rfl⟩, rfl, rfl, hs.rx, hs.line, ?_, hlen, hs.abuf.trans (congrArg addrDigits haddr), hbcc, deliveries js, hs.inputs⟩
  show readBytes t.history = _
  rw [hh, readBytes_append, hread]
  rfl

end Sys2Proof.Machine
end

section
/-! READ_EXACT (40_reader.md R80 to R87): how each way its `ReadExact` ends becomes the operation's response, and what it reads at most. -/

namespace Sys2Proof.Machine

/-! ### The end of the read is the end of the operation -/

section
variable {s u : State} (ho : u.out = []) (hl : u.acc.length ≤ 65535)
include ho hl

/-- All the bytes wanted are there: they are the result (R86). -/
theorem readExactLoop_of_full (h : readLoop s.inputs s = .full u) : readExactLoop s = .next { u with out := u.acc }.finish := by
  rw [readExactLoop, h]
  exact writeOut_of_le ho (by omega)

/-- A short read is no error: what was gathered is the result (R84, R86). -/
theorem readExactLoop_of_short (h : readLoop s.inputs s = .short u) : readExactLoop s = .next { u with out := u.acc }.finish := by
  rw [readExactLoop, h]
  exact writeOut_of_le ho (by omega)

/-- An error of the transport ends the operation, and `OUT` keeps what was gathered (R85, R131). -/
theorem readExactLoop_of_err {e : IoErr} (h : readLoop s.inputs s = .err e u) :
    readExactLoop s = .next ({ u with out := u.acc }.raiseKeeping (.ioError e)) := by
  rw [readExactLoop, h]
  exact writeOut_of_le ho (by omega)

end

/-- At its beginning READ_EXACT misses all the bytes it was asked for. -/
theorem State.beginRead_missing (a : BitVec 8) (c : BitVec 16) (s : State) : (s.beginRead a c).missing = c.toNat := rfl

/-! ### The transport's answers -/

/-- Settles O21: `ReadExact` fills up with exactly the bytes wanted, in whatever split. -/
theorem readExactGathersCount : Obligations.ReadExactGathersCount := by
  intro a c s bs more ks rest hr hb ⟨hk, hl⟩ hi
  have hi' : (s.beginRead a c).inputs = deliveries ks ++ rest := hi
  obtain ⟨js, evs, hfull, hread, -⟩ := readLoop_gathers hi' hr hb hk hl
  rw [← hi'] at hfull
  have hlt := c.isLt
  have hx := readExactLoop_of_full rfl (show bs.length ≤ 65535 by omega) hfull
  refine ⟨_, (exec_readExact a c s).trans hx, ⟨rfl, rfl⟩, rfl, rfl, rfl, rfl, ?_, deliveries js, rfl⟩
  rw [← hread]
  exact readBytes_append s.history evs

/-- Settles O23: at the timeout the whole residue has been gathered. -/
theorem readExactShortIsNoError : Obligations.ReadExactShortIsNoError := by
  intro a c s ks rest hb ⟨hk, hl⟩ hi
  have hi' : (s.beginRead a c).inputs = deliveries ks ++ .rxTimeout :: rest := hi
  obtain ⟨xs, evs, hshort, -⟩ := readLoop_comes_short hi' hb hk hl
  rw [← hi'] at hshort
  have hlt := c.isLt
  have hx := readExactLoop_of_short rfl (show s.rxResidue.length ≤ 65535 by omega) hshort
  exact ⟨_, (exec_readExact a c s).trans hx, ⟨rfl, rfl⟩, rfl, rfl, rfl, rfl⟩

/-- Settles O24: when the error comes, the bytes delivered before it have been gathered and no others. -/
theorem readExactErrorKeepsBytes : Obligations.ReadExactErrorKeepsBytes := by
  intro a c s bs more e rest hr hb hi
  have hi' : (s.beginRead a c).inputs = deliveries (List.replicate bs.length 1) ++ .rxErr e :: rest := hi
  obtain ⟨evs, herr, -⟩ := readLoop_errs hi' hr hb
  rw [← hi'] at herr
  have hlt := c.isLt
  have hx := readExactLoop_of_err rfl (show bs.length ≤ 65535 by omega) herr
  exact ⟨_, (exec_readExact a c s).trans hx, ⟨rfl, rfl⟩, rfl, rfl, rfl, rfl, rfl, rfl⟩

/-- Settles O22: nothing is missing from the start, so the loop ends before its first request. -/
theorem readExactOfZeroReadsNothing : Obligations.ReadExactOfZeroReadsNothing := by
  intro a s
  have hfull := readLoop_full (xs := (s.beginRead a 0).inputs) (s.beginRead_missing a 0)
  have hx := readExactLoop_of_full rfl (Nat.zero_le _) hfull
  exact ⟨_, (exec_readExact a 0 s).trans hx, ⟨rfl, rfl⟩, rfl, rfl, State.sameWorld_refl s⟩

/-! ### What READ_EXACT reads at most -/

/-- What READ_EXACT comes to has no more bytes in `OUT` than it has gathered, and where it waits one more request is outstanding (R81, R83). -/
theorem ReadPost.bounded {s t : State} (h : ReadPost s t) (ho : s.out = []) :
    ∃ evs u, t.history = s.history ++ evs ∧ Reads evs s u ∧ t.out.length ≤ u.acc.length ∧ (t.Waits → evs.length + 1 ≤ s.missing) := by
  obtain ⟨used, evs, u, hm, hr, h⟩ := h
  refine ⟨evs, u, ?_⟩
  rcases h with rfl | ⟨e, rfl⟩ | ⟨rfl, hmiss, -, hcount⟩ | ⟨rfl, -⟩
  · exact ⟨hm.history, hr, le_rfl, fun hw => (State.Ended.not_waits ⟨rfl, rfl⟩ hw).elim⟩
  · exact ⟨hm.history, hr, le_rfl, fun hw => (State.Ended.not_waits ⟨rfl, rfl⟩ hw).elim⟩
  · exact ⟨hm.history, hr, by simp [hr.frame.out, ho], fun _ => by omega⟩
  · exact ⟨hm.history, hr, Nat.zero_le _, fun hw => (u.resetBlock_asReset.not_waits hw).elim⟩

/-- Settles O25: the bounds are those of `Reads`, from a start at which `count` bytes are missing. -/
theorem readExactNeverOverreads : Obligations.ReadExactNeverOverreads := by
  intro a c s t ht
  obtain ⟨evs, u, hh, hr, hout, hw⟩ := ((exec_readExact_good a c s).of_next ht).bounded rfl
  have hacc : u.acc = readBytes evs := hr.acc
  have hfill : u.acc.length ≤ c.toNat := (hr.fill (Nat.zero_le _)).trans_eq (congrArg BitVec.toNat hr.frame.need)
  exact ⟨evs, hh, hr.count, hw, hacc ▸ hfill, hout.trans hfill, hr.rx⟩

end Sys2Proof.Machine
end

section
/-! The frame codec (41_codec.md R88 to R95 and R106 to R110): the laws of the checksum fold, what the four operations that touch no transport
answer, that no operation overruns `OUT`, and that decoding takes back what encoding built. -/

namespace Sys2Proof.Machine

/-! ### The checksum fold -/

theorem xorfold_concat (s : Bytes) (b : Byte) : xorfold (s ++ [b]) = xorfold s ^^^ b := by
  rw [← xorfold_field, xorfold_cons]
  exact congrArg (xorfold s ^^^ ·) BitVec.xor_zero

theorem xorfold_perm {s t : Bytes} (h : s.Perm t) : xorfold s = xorfold t := by
  have swap : ∀ a b c : Byte, c ^^^ a ^^^ b = c ^^^ b ^^^ a := fun a b c => by
    rw [BitVec.xor_assoc, BitVec.xor_comm a b, ← BitVec.xor_assoc]
  exact h.foldl_eq' (fun a _ b _ c => swap a b c) 0

/-- A frame ends in the fold of all before it, so it folds to 0 (R69, R90). -/
theorem xorfold_frameWith (a : Nat) (h l : Byte) (p : Bytes) : xorfold (frameWith a h l p) = 0 := by
  rw [frameWith, xorfold_concat]
  exact BitVec.xor_self

/-- The fold tells apart two sequences that differ in one place (R90). -/
theorem xorfold_change (s t : Bytes) {b c : Byte} (h : b ≠ c) : xorfold (s ++ b :: t) ≠ xorfold (s ++ c :: t) := by
  simpa [← xorfold_field, xorfold_cons] using h

/-- Settles O13: the fold is a sum in the group of bytes under XOR. -/
theorem xorfoldLaws : Obligations.XorfoldLaws :=
  ⟨xorfold_concat, fun s t => (xorfold_field s t).symm, fun _ _ => xorfold_perm, fun _ _ _ => xorfold_frameWith ..,
    fun s t _ _ => xorfold_change s t⟩

/-! ### Operations without transport -/

/-- Settles O12: CHECKSUM answers with `xorfold` of the whole operand. -/
theorem checksumFoldsOperand : Obligations.ChecksumFoldsOperand :=
  fun a c s => ⟨_, exec_checksum a c s, ⟨rfl, rfl⟩, rfl, rfl⟩

/-- Settles O16: ENCODE_ENQ goes by the address alone. -/
theorem encodeEnqBuildsEnquiry : Obligations.EncodeEnqBuildsEnquiry := by
  intro a c s
  by_cases ha : a.toNat ≤ 15
  · exact ⟨_, exec_encodeEnq_of_le a c s ha, ⟨rfl, rfl⟩, fun _ => ⟨rfl, rfl⟩, fun _ => by omega⟩
  · exact ⟨_, exec_encodeEnq_of_gt a c s (by omega), ⟨rfl, rfl⟩, fun _ => by omega, fun _ => ⟨rfl, rfl⟩⟩

/-- A command that `BuildFrame` rejects gets the kind of the first check that fails (R91). -/
theorem checkCommand_rejects {a : Nat} {p : Bytes} (h : 15 < a ∨ p = [] ∨ 65535 < p.length) :
    ∃ k, checkCommand a p = some k ∧ k.code = if 15 < a then 1 else if p = [] then 2 else 14 := by
  obtain ⟨-, ha, hlo, hhi⟩ | ⟨hk, ha⟩ | ⟨hk, ha, hp⟩ | ⟨hk, ha, hp, -⟩ := checkCommand_cases a p
  · obtain h | rfl | h := h
    · omega
    · exact absurd hlo (by decide)
    · omega
  · exact ⟨_, hk, by rw [if_pos ha]; rfl⟩
  · exact ⟨_, hk, by rw [if_neg (by omega), if_pos hp]; rfl⟩
  · exact ⟨_, hk, by rw [if_neg (by omega), if_neg hp]; rfl⟩

/-- Settles O15: a rejected command ends before anything is built. -/
theorem encodeCmdErrors : Obligations.EncodeCmdErrors := by
  intro a c s hbad
  obtain ⟨k, hk, hcode⟩ := checkCommand_rejects hbad
  exact ⟨_, exec_encodeCmd_of_some a c s hk, ⟨rfl, rfl⟩, rfl, by rw [State.raise_fbuf, State.start_fbuf],
    by rw [State.raise_bcc, State.start_bcc], hcode⟩

/-- Settles O19: after the header's length check, the comparison of the length field with the bytes behind it decides. -/
theorem extractPayloadSlices : Obligations.ExtractPayloadSlices := by
  refine fun a c s => ⟨fun hlt => ⟨_, exec_extractPayload_of_lt a c s hlt, ⟨rfl, rfl⟩, rfl, rfl⟩, fun _ _ _ h l more hin => ?_⟩
  have hx := exec_extractPayload_of_header a c s hin
  by_cases hm : more.length < lendec s.lengthRule h l
  · rw [if_pos hm] at hx
    exact ⟨_, hx, ⟨rfl, rfl⟩, rfl, fun _ => ⟨rfl, rfl⟩, fun _ => by omega⟩
  · rw [if_neg hm] at hx
    exact ⟨_, hx, ⟨rfl, rfl⟩, rfl, fun _ => by omega, fun _ => ⟨rfl, rfl⟩⟩

/-! ### Refusals -/

/-- Settles O11: by `exec_spec` the only refusals of an operation are those of a wait. -/
theorem outputNeverOverflows : Obligations.OutputNeverOverflows := by
  intro i s r hr
  have h := exec_spec i s
  rw [hr] at h
  exact h

/-! ### Encoding and decoding together -/

/-- The length field of a payload that `LENGTH_RULE` can describe is read back whole (R67, R68). -/
theorem lendec_lenenc {rule : LengthRule} {n : Nat} (h : n ≤ 255 ∨ rule = .fixed ∧ n ≤ 65535) :
    lendec rule (lenenc rule n).1 (lenenc rule n).2 = n := by
  cases rule with
  | historical =>
    have : n ≤ 255 := h.resolve_right (by simp)
    rw [lendec_lenenc_historical, Nat.mod_eq_of_lt (by omega)]
  | fixed => exact lendec_lenenc_fixed (by omega)

/-- Settles O33: the length bytes of the built frame say the payload's length, so DECODE_RESP takes the frame whole and EXTRACT_PAYLOAD the payload. -/
theorem codecRoundTrip : Obligations.CodecRoundTrip := by
  intro a c1 c2 c3 a3 s1 s2 s3 p more ks rest ha hlo hfit hr2 hr3 hin hfeeds hi
  subst hin
  have hlen : ∀ rule, rule = s1.lengthRule →
      lendec rule (lenenc s1.lengthRule s1.inBuf.length).1 (lenenc s1.lengthRule s1.inBuf.length).2 = s1.inBuf.length := by
    rintro _ rfl
    exact lendec_lenenc hfit
  obtain ⟨t1, ht1, -, hst1, hout1, -⟩ := exec_encodeCmd_builds c1 ha hlo (by omega)
  rw [commandFrame] at hout1
  refine ⟨t1, ht1, hst1, fun hrx => ?_, fun hin => ?_⟩
  · rw [hout1] at hrx
    obtain ⟨t2, ht2, -, hst2, hout2, hmore, -⟩ :=
      decodeRespAcceptsFrame a c2 s2 _ _ _ _ more ks rest ha (hlen _ hr2).symm rfl hrx hfeeds hi
    exact ⟨t2, ht2, hst2, hout2.trans hout1.symm, hmore⟩
  · obtain ⟨t3, ht3, -, hst3, hout3⟩ := exec_extractPayload_of_frameWith a3 c3 (hin.trans hout1) (hlen _ hr3).le
    exact ⟨t3, ht3, hst3, by rw [hout3, hlen _ hr3, List.take_length]⟩

end Sys2Proof.Machine
end

section
/-! Where DECODE_RESP stops on a frame that is not good (41_codec.md R97 to R103): a field with a wrong byte in it, a beginning after which the time
runs out, and one after which the transport fails. -/

namespace Sys2Proof.Machine

/-! ### A field with a wrong byte in it -/

/-- The operation ends with kind `k`, and the residue `more` is left. -/
def Raises (k : ErrKind) (more : Bytes) (r : Result) : Prop := ∃ v : State, r = .next (v.raise k) ∧ v.rxResidue = more

/-- What the host sees of it (R129, R131). -/
theorem Raises.ended {k : ErrKind} {more : Bytes} {r : Result} (h : Raises k more r) :
    ∃ t : State, r = .next t ∧ t.Ended ∧ t.status = k.code ∧ t.out = [] ∧ t.rxResidue = more := by
  obtain ⟨v, hr, hv⟩ := h
  exact ⟨_, hr, ⟨rfl, rfl⟩, rfl, rfl, hv⟩

/-- The answers that are left are enough for the bytes that are left. -/
theorem Feeds.after {ks js : List Nat} {m n : Nat} (hf : Feeds ks (m + n)) (h : After ks js m) : Feeds js n := by
  obtain ⟨hk, hl⟩ := hf
  have := h.enough
  exact ⟨fun k hk' => hk k (h.sub k hk'), by omega⟩

theorem Feeds.le {ks : List Nat} {m n : Nat} (hf : Feeds ks n) (h : m ≤ n) : Feeds ks m := ⟨hf.1, h.trans hf.2⟩

section
variable {u : FrameUser} {s t : State} {seen more : Bytes} {b x y : Byte} {ks : List Nat} {rest : List Input}

theorem rdStart_rejects (hr : Reached s seen (b :: more) ks rest 1 t) (hb : b ≠ startByte) (hf : Feeds ks 1) :
    Raises .malformedStart more (rdStart u t) := by
  obtain ⟨js, v, hx, -, hacc, -, -, hseen, -⟩ := Reached.fill (bs := [b]) hr rfl hf.1 hf.2
  exact ⟨v, by rw [rdStart, hx, if_neg (by simpa [hacc] using hb)], hseen.rx⟩

theorem rdAddr_rejects (hr : Reached s seen (x :: y :: more) ks rest 2 t) (hb : [x, y] ≠ addrDigits s.address) (hf : Feeds ks 2) :
    Raises .addressMismatch more (rdAddr u t) := by
  obtain ⟨js, v, hx, -, hacc, -, -, hseen, -⟩ := Reached.fill (bs := [x, y]) hr rfl hf.1 hf.2
  have habuf : v.abuf = addrDigits s.address := hseen.abuf
  exact ⟨v, by rw [rdAddr, hx, if_neg (by rw [hacc, habuf]; exact hb)], hseen.rx⟩

theorem rdEnd_rejects (hr : Reached s seen (b :: more) ks rest 1 t) (hb : b ≠ endByte) (hf : Feeds ks 1) :
    Raises .malformedEnd more (rdEnd u t) := by
  obtain ⟨js, v, hx, -, hacc, -, -, hseen, -⟩ := Reached.fill (bs := [b]) hr rfl hf.1 hf.2
  exact ⟨v, by rw [rdEnd, hx, if_neg (by simpa [hacc] using hb)], hseen.rx⟩

theorem rdBcc_rejects (hr : Reached s seen (b :: more) ks rest 1 t) (hb : b ≠ xorfold seen) (hf : Feeds ks 1) :
    Raises .checksumMismatch more (rdBcc u t) := by
  obtain ⟨js, v, hx, -, hacc, hbcc, -, hseen, -⟩ := Reached.fill (bs := [b]) hr rfl hf.1 hf.2
  exact ⟨v, by rw [rdBcc, hx, if_neg (by simpa [hacc, hbcc] using hb)], hseen.rx⟩

end

/-- With a valid address DECODE_RESP is `DecodeFrame`, from an empty `OUT` and with the world as it is (R104). -/
theorem exec_decodeResp_eq_decodeFrame {a : BitVec 8} (c : BitVec 16) (s : State) (ha : a.toNat ≤ 15) :
    ∃ v : State, exec (.decodeResp a c) s = decodeFrame .decodeResp v ∧ v.out = [] ∧ v.address = a.toNat ∧ v.lengthRule = s.lengthRule ∧
      v.rxResidue = s.rxResidue ∧ v.inputs = s.inputs :=
  ⟨_, exec_decodeResp_of_le a c s ha, State.start_out .., State.address_start .., State.start_lengthRule .., State.start_rxResidue ..,
    State.start_inputs ..⟩

/-- Settles O28: the decoder comes to the wrong field, reads it whole and no more. -/
theorem decodeRespRejectsStartAndAddress : Obligations.DecodeRespRejectsStartAndAddress := by
  intro a c s b x y more ks rest ha hf hi
  obtain ⟨v, hv, hout, haddr, -, hvrx, hvi⟩ := exec_decodeResp_eq_decodeFrame c s ha
  rw [hv, ← hvrx]
  rw [← hvi] at hi
  refine ⟨fun hb hrx => ?_, fun hb hrx => ?_⟩
  · obtain ⟨t, hx, hr⟩ := decode_start .decodeResp hout hrx hi
    rw [hx]
    exact (rdStart_rejects hr hb (hf.le (by omega))).ended
  · obtain ⟨t, js, hx, hafter, hr⟩ := decode_addr (more := x :: y :: more) .decodeResp hout hrx hi hf.1 (hf.le (by omega)).2
    rw [hx]
    exact (rdAddr_rejects hr (haddr ▸ hb) (hf.after hafter)).ended

section
variable {a : BitVec 8} {c : BitVec 16} {s : State} {h l b : Byte} {p more : Bytes} {ks : List Nat} {rest : List Input}
  (ha : a.toNat ≤ 15) (hp : p.length = lendec s.lengthRule h l) (hf : Feeds ks (7 + p.length)) (hi : s.inputs = deliveries ks ++ rest)
include ha hp hf hi

/-- DECODE_RESP with another byte in the end marker's place (R101). -/
theorem exec_decodeResp_of_badEnd (hb : b ≠ endByte) (hrx : s.rxResidue = startByte :: addrDigits a.toNat ++ [h, l] ++ p ++ b :: more) :
    Raises .malformedEnd more (exec (.decodeResp a c) s) := by
  obtain ⟨v, hv, hout, haddr, hrule, hvrx, hvi⟩ := exec_decodeResp_eq_decodeFrame c s ha
  rw [← hrule] at hp
  rw [← hvi] at hi
  rw [← hvrx, ← haddr] at hrx
  obtain ⟨t, js, hx, hafter, -, hr⟩ := decode_end .decodeResp hout hrx hp hi hf.1 (hf.le (by omega)).2
  rw [hv, hx]
  exact rdEnd_rejects hr hb (Feeds.after (hf.le (by omega)) hafter)

/-- DECODE_RESP with another byte in the checksum's place (R102). -/
theorem exec_decodeResp_of_badSum (hb : b ≠ xorfold (frameBody a.toNat h l p)) (hrx : s.rxResidue = frameBody a.toNat h l p ++ b :: more) :
    Raises .checksumMismatch more (exec (.decodeResp a c) s) := by
  obtain ⟨v, hv, hout, haddr, hrule, hvrx, hvi⟩ := exec_decodeResp_eq_decodeFrame c s ha
  rw [← hrule] at hp
  rw [← hvi] at hi
  rw [← hvrx, ← haddr] at hrx
  rw [← haddr] at hb
  obtain ⟨t, js, hx, hafter, -, hr⟩ := decode_bcc .decodeResp hout hrx hp hi hf.1 (hf.le (by omega)).2
  rw [hv, hx]
  exact rdBcc_rejects hr hb (Feeds.after (hf.le (by omega)) hafter)

end

/-- Settles O29: the bytes before the wrong field are the beginning of a frame. -/
theorem decodeRespRejectsEndAndChecksum : Obligations.DecodeRespRejectsEndAndChecksum := by
  intro a c s h l b p front more ks rest ha hp hfront hf hi
  replace hfront : front = startByte :: addrDigits a.toNat ++ [h, l] ++ p := hfront
  have hbody : front ++ [0x03] = frameBody a.toNat h l p := by rw [hfront]; rfl
  refine ⟨fun hb hrx => ?_, fun hb hrx => ?_⟩
  · exact (exec_decodeResp_of_badEnd ha hp hf hi hb (by rw [hrx, hfront, List.append_assoc]; rfl)).ended
  · exact (exec_decodeResp_of_badSum ha hp hf hi (hbody ▸ hb) (by rw [hrx, ← hbody]; simp)).ended

/-- Settles O32: either way the byte in the checksum's place is not the fold of the bytes read before it. -/
theorem checksumCatchesPayloadByte : Obligations.ChecksumCatchesPayloadByte := by
  intro a c s h l p q b b' sum ks rest ha hp hf hi hrx hchange
  have hlen : (p ++ b' :: q).length = (p ++ b :: q).length := by simp
  have hsum : sum ≠ xorfold (frameBody a.toNat h l (p ++ b' :: q)) := by
    obtain ⟨hb, rfl⟩ | ⟨rfl, hsum⟩ := hchange
    · have parts : ∀ x, frameBody a.toNat h l (p ++ x :: q) = (startByte :: addrDigits a.toNat ++ [h, l] ++ p) ++ x :: (q ++ [endByte]) := by
        simp [frameBody]
      rw [parts, parts]
      exact xorfold_change _ _ hb
    · exact hsum
  exact (exec_decodeResp_of_badSum ha (hlen.trans hp) (hf.le (by simp; omega)) hi hsum hrx).ended

/-! ### A frame of which only the beginning arrives -/

/-- The kind of the step that reads byte `j` of a frame with `n` payload bytes (R97 to R102). -/
def kindAt (j n : Nat) : ErrKind :=
  if j < 1 then .malformedStart else if j < 3 then .addressMismatch else if j < 5 then .shortLength
  else if j < 5 + n then .lengthMismatch else if j < 6 + n then .malformedEnd else .checksumMismatch

theorem kindAt_code (j n : Nat) : (kindAt j n).code =
    if j < 1 then 7 else if j < 3 then 8 else if j < 5 then 9 else if j < 5 + n then 10 else if j < 6 + n then 11 else 12 := by
  unfold kindAt
  split_ifs <;> rfl

/-- The answer `r` of a decoding begun in `s` is that of a read which the rest of `bs` does not fill: the decoder has passed `seen`, `part` and then
`more` are still in the residue, and the answers `js`, then `rest`, are to come. A short read there raises `o`. -/
def Halts (s : State) (bs more : Bytes) (ks : List Nat) (rest : List Input) (o : ErrKind) (r : Result) : Prop :=
  ∃ (seen part : Bytes) (js : List Nat) (n : BitVec 16) (t : State) (k : State → Result), r = afterRead t o k ∧ bs = seen ++ part ∧
    part.length < n.toNat ∧ After ks js seen.length ∧ Reached s seen (part ++ more) js rest n t

section
variable {s : State} {bs more : Bytes} {ks : List Nat} {rest : List Input} {e : IoErr} {o : ErrKind} {r : Result}

/-- The time runs out there. -/
theorem Halts.raises_short (hh : Halts s bs [] ks (.rxTimeout :: rest) o r) (hf : Feeds ks bs.length) : Raises o [] r := by
  obtain ⟨seen, part, js, n, t, k, rfl, rfl, hn, hafter, hr⟩ := hh
  rw [List.append_nil] at hr
  obtain ⟨hk, hl⟩ := Feeds.after (n := part.length) (by rwa [List.length_append] at hf) hafter
  exact hr.short hn hk hl o k

/-- The transport fails there. -/
theorem Halts.raises_error (hh : Halts s bs more (List.replicate bs.length 1) (.rxErr e :: rest) o r) :
    ∃ v : State, r = .next (v.raise (.ioError e)) ∧ v.rxResidue = more ∧ v.inputs = rest := by
  obtain ⟨seen, part, js, n, t, k, rfl, rfl, hn, hafter, hr⟩ := hh
  have ones : ∀ k ∈ List.replicate (seen ++ part).length 1, k = 1 := fun k hk => List.eq_of_mem_replicate hk
  have hlen := hafter.exact ones
  rw [List.length_replicate, List.length_append] at hlen
  exact hr.error hn (fun k hk => ones k (hafter.sub k hk)) (by omega) o k

/-- The bytes of `frame` end within a field whose read is the decoder's next once all before the field is there. -/
theorem Halts.within {frame pre field post : Bytes} {j : Nat} {n : BitVec 16} (hframe : frame = pre ++ (field ++ post))
    (hlo : pre.length ≤ j) (hhi : j < pre.length + field.length) (hn : field.length = n.toNat) (hrx : s.rxResidue = frame.take j ++ more)
    (pass : ∀ bs, s.rxResidue = pre ++ bs → ∃ t js, (∃ k, r = afterRead t o k) ∧ After ks js pre.length ∧ Reached s pre bs js rest n t) :
    Halts s (frame.take j) more ks rest o r := by
  have htake : frame.take j = pre ++ field.take (j - pre.length) := by
    rw [hframe, List.take_append, List.take_of_length_le hlo, List.take_append_of_le_length (by omega)]
  rw [htake, List.append_assoc] at hrx
  obtain ⟨t, js, ⟨k, hx⟩, hafter, hr⟩ := pass _ hrx
  exact ⟨pre, field.take (j - pre.length), js, n, t, k, hx, htake, by rw [List.length_take]; omega, hafter, hr⟩

/-- Of a good frame the first `j` bytes arrive: the decoder halts within the field that byte `j` belongs to (R97 to R102). -/
theorem decodeFrame_halts (u : FrameUser) {h l : Byte} {p : Bytes} {j : Nat} (hout : s.out = []) (hp : p.length = lendec s.lengthRule h l)
    (hj : j < 7 + p.length) (hrx : s.rxResidue = (frameWith s.address h l p).take j ++ more) (hi : s.inputs = deliveries ks ++ rest)
    (hf : Feeds ks j) : Halts s ((frameWith s.address h l p).take j) more ks rest (kindAt j p.length) (decodeFrame u s) := by
  obtain ⟨hk, hl⟩ := hf
  unfold kindAt
  split_ifs with h1 h3 h5 h5n h6n
  · refine .within (pre := []) (field := [startByte]) (n := 1) (frameWith_eq_cons ..) (Nat.zero_le _) h1 rfl hrx fun bs hbs => ?_
    obtain ⟨t, hx, hr⟩ := decode_start u hout hbs hi
    exact ⟨t, ks, ⟨_, hx⟩, .refl ks, hr⟩
  · refine .within (pre := [startByte]) (field := addrDigits s.address) (n := 2) (frameWith_eq_cons ..) (not_lt.mp h1) h3 rfl hrx fun bs hbs => ?_
    obtain ⟨t, js, hx, hafter, hr⟩ := decode_addr u hout hbs hi hk (by omega)
    exact ⟨t, js, ⟨_, hx⟩, hafter, hr⟩
  · refine .within (pre := startByte :: addrDigits s.address) (field := [h, l]) (n := 2) (frameWith_eq_cons ..) (not_lt.mp h3) h5 rfl hrx
      fun bs hbs => ?_
    obtain ⟨t, js, hx, hafter, hr⟩ := decode_len u hout hbs hi hk (by omega)
    exact ⟨t, js, ⟨_, hx⟩, hafter, hr⟩
  · refine .within (pre := startByte :: addrDigits s.address ++ [h, l]) (field := p) (frameWith_eq_cons ..) (not_lt.mp h5) h5n
      (hp.trans (ofNat_lendec ..).symm) hrx fun bs hbs => ?_
    obtain ⟨t, js, hx, hafter, -, hr⟩ := decode_payload u hout hbs hi hk (by omega)
    exact ⟨t, js, ⟨_, hx⟩, hafter, hr⟩
  · have hpre : (startByte :: addrDigits s.address ++ [h, l] ++ p).length = 5 + p.length := by rw [List.length_append]; rfl
    refine .within (pre := startByte :: addrDigits s.address ++ [h, l] ++ p) (field := [endByte]) (n := 1)
      (by rw [frameWith_eq_cons, List.append_assoc]; rfl) (by omega) (by rw [hpre, List.length_singleton]; omega) rfl hrx fun bs hbs => ?_
    obtain ⟨t, js, hx, hafter, -, hr⟩ := decode_end u hout hbs hp hi hk (by omega)
    exact ⟨t, js, ⟨_, hx⟩, hpre ▸ hafter, hr⟩
  · have hpre := frameBody_length s.address h l p
    refine .within (pre := frameBody s.address h l p) (field := [xorfold (frameBody s.address h l p)]) (n := 1)
      (by rw [List.append_nil]; rfl) (by omega) (by rw [hpre, List.length_singleton]; omega) rfl hrx fun bs hbs => ?_
    obtain ⟨t, js, hx, hafter, -, hr⟩ := decode_bcc u hout hbs hp hi hk (by omega)
    exact ⟨t, js, ⟨_, hx⟩, hpre ▸ hafter, hr⟩

end

/-- The same of DECODE_RESP (R104). -/
theorem exec_decodeResp_halts {a : BitVec 8} (c : BitVec 16) {s : State} {h l : Byte} {p more : Bytes} {j : Nat} {ks : List Nat}
    {rest : List Input} (ha : a.toNat ≤ 15) (hp : p.length = lendec s.lengthRule h l) (hj : j < 7 + p.length)
    (hrx : s.rxResidue = (frameWith a.toNat h l p).take j ++ more) (hi : s.inputs = deliveries ks ++ rest) (hf : Feeds ks j) :
    ∃ v : State, Halts v ((frameWith a.toNat h l p).take j) more ks rest (kindAt j p.length) (exec (.decodeResp a c) s) := by
  obtain ⟨v, hv, hout, haddr, hrule, hvrx, hvi⟩ := exec_decodeResp_eq_decodeFrame c s ha
  rw [← hvrx, ← haddr] at hrx
  rw [hv, ← haddr]
  exact ⟨v, decodeFrame_halts .decodeResp hout (hrule ▸ hp) hj hrx (hvi ▸ hi) hf⟩

theorem frameWith_take_length {a : Nat} {h l : Byte} {p : Bytes} {j : Nat} (hj : j < 7 + p.length) : ((frameWith a h l p).take j).length = j :=
  List.length_take_of_le (by rw [frameWith_length]; omega)

/-- Settles O30: the time runs out within the field that byte `j` belongs to. -/
theorem decodeRespShortReadKinds : Obligations.DecodeRespShortReadKinds := by
  intro a c s h l p j ks rest ha hp hj hrx hf hi
  obtain ⟨v, hh⟩ := exec_decodeResp_halts c (more := []) ha hp hj (by rw [hrx, List.append_nil]) hi hf
  obtain ⟨t, ht, hended, hst, hout, hmore⟩ := (hh.raises_short (by rwa [frameWith_take_length hj])).ended
  exact ⟨t, ht, hended, hout, hmore, hst.trans (kindAt_code j p.length)⟩

/-- Settles O31: the transport fails within the field that byte `j` belongs to, whichever it is. -/
theorem decodeRespIoErrorAtEveryStep : Obligations.DecodeRespIoErrorAtEveryStep := by
  intro a c s h l p more j e rest ha hp hj hrx hi
  have hf : Feeds (List.replicate j 1) j := ⟨fun k hk => (List.eq_of_mem_replicate hk).ge, (List.length_replicate).ge⟩
  obtain ⟨w, hh⟩ := exec_decodeResp_halts c ha hp hj hrx hi hf
  obtain ⟨v, hx, hmore, hrest⟩ := Halts.raises_error (s := w) (by rwa [frameWith_take_length hj])
  exact ⟨_, hx, ⟨rfl, rfl⟩, rfl, rfl, rfl, hmore, hrest⟩

end Sys2Proof.Machine
end

section
/-! EXCHANGE from outside (42_session.md R111 to R121): it completes when every answer is good, it ends with the error of the step that fails, and whatever
the outside world does its writes and the number of bytes it has read are those of the stage it came to. -/

namespace Sys2Proof.Machine

/-! ### The command -/

/-- Settles O36: `BuildFrame` comes before the first access. -/
theorem exchangeChecksCommandFirst : Obligations.ExchangeChecksCommandFirst := by
  intro a c s hbad
  obtain ⟨k, hk, hcode⟩ := checkCommand_rejects hbad
  exact ⟨_, exec_exchange_of_some a c s hk, ⟨rfl, rfl⟩, rfl, State.sameWorld_refl s, hcode⟩

/-- An EXCHANGE whose command is rejected ends with one of three statuses and leaves the world as it was; any other goes as `ExchangePost` says (R112). -/
theorem exec_exchange_cases {a : BitVec 8} {c : BitVec 16} {s t : State} (ht : exec (.exchange a c) s = .next t) :
    (s.SameWorld t ∧ (t.status = 1 ∨ t.status = 2 ∨ t.status = 14)) ∨
      ExchangePost (commandFrame s.lengthRule a.toNat s.inBuf) (enqByte :: addrDigits a.toNat) 3 (s.exchangeBegun a c) t := by
  by_cases hbad : 15 < a.toNat ∨ s.inBuf = [] ∨ 65535 < s.inBuf.length
  · obtain ⟨k, hk, hcode⟩ := checkCommand_rejects hbad
    rw [exec_exchange_of_some a c s hk] at ht
    cases ht
    refine .inl ⟨State.sameWorld_refl s, ?_⟩
    rw [State.raise_status, hcode]
    split_ifs <;> decide
  · have hlo : s.inBuf.length ≠ 0 := fun h => hbad (.inr (.inl (List.eq_nil_of_length_eq_zero h)))
    have hk : checkCommand a.toNat s.inBuf = none := checkCommand_none (by omega) (by omega) (by omega)
    exact .inr ((exec_exchange_good a c s hk).of_next ht)

/-! ### The acknowledgement -/

/-- The operation ends with kind `k`, `more` is left in the residue, and EXCHANGE, begun from `s`, has sent its command frame and nothing else. -/
def EndsUnacknowledged (a : BitVec 8) (s : State) (k : ErrKind) (more : Bytes) (r : Result) : Prop :=
  ∃ v : State, r = .next (v.raise k) ∧ v.rxResidue = more ∧ v.txLine = s.txLine ++ commandFrame s.lengthRule a.toNat s.inBuf

section
variable {a : BitVec 8} {c : BitVec 16} {s t : State} {b x y : Byte} {bs seen more : Bytes} {ks : List Nat} {rest : List Input} {e : IoErr}
  {r : Result} {o : ErrKind} {k : State → Result}

/-- What the host sees of it (R129, R131). -/
theorem EndsUnacknowledged.ended (h : EndsUnacknowledged a s o more r) :
    ∃ t : State, r = .next t ∧ t.Ended ∧ t.status = o.code ∧ t.out = [] ∧ t.rxResidue = more ∧
      t.txLine = s.txLine ++ commandFrame s.lengthRule a.toNat s.inBuf := by
  obtain ⟨v, hr, hrx, hline⟩ := h
  exact ⟨_, hr, ⟨rfl, rfl⟩, rfl, rfl, hrx, hline⟩

/-- With `IoError` it sees the transport's error value too (R125). -/
theorem EndsUnacknowledged.failed (h : EndsUnacknowledged a s (.ioError e) more r) :
    ∃ t : State, r = .next t ∧ t.Ended ∧ t.status = 3 ∧ t.ioerr = e ∧ t.out = [] ∧ t.rxResidue = more ∧
      t.txLine = s.txLine ++ commandFrame s.lengthRule a.toNat s.inBuf := by
  obtain ⟨v, hr, hrx, hline⟩ := h
  exact ⟨_, hr, ⟨rfl, rfl⟩, rfl, rfl, rfl, hrx, hline⟩

/-- A `Timeout` is the first answer to the read, whatever the residue holds. -/
theorem Sent.times_out (h : Sent a s seen more [] (.rxTimeout :: rest) t) (hm : t.missing ≠ 0) :
    EndsUnacknowledged a s o more (afterRead t o k) := by
  have hi : t.inputs = .rxTimeout :: rest := h.inputs
  refine ⟨(t.await rest).record (.rx t.missing .timeout), ?_, h.rx, h.line⟩
  rw [afterRead, hi, readLoop, if_neg hm]

/-- The read comes up short: the residue is used up. -/
theorem Sent.short (h : Sent a s seen more ks (.rxTimeout :: rest) t) (hm : more.length < t.missing) (hf : Feeds ks more.length) :
    EndsUnacknowledged a s o [] (afterRead t o k) := by
  rw [← h.rx] at hm hf
  obtain ⟨xs, evs, hx⟩ := afterRead_comes_short (onShort := o) (k := k) h.inputs hm hf.1 hf.2
  exact ⟨_, hx, rfl, h.line⟩

/-- The read meets an error after `bs`. -/
theorem Sent.error (h : Sent a s seen (bs ++ more) (List.replicate bs.length 1) (.rxErr e :: rest) t) (hm : bs.length < t.missing) :
    EndsUnacknowledged a s (.ioError e) more (afterRead t o k) := by
  obtain ⟨evs, hx⟩ := afterRead_errs (onShort := o) (k := k) h.inputs h.rx hm
  exact ⟨_, hx, rfl, h.line⟩

theorem exchangeRdAck_rejects (h : Sent a s seen (b :: more) ks rest t) (hacc : t.acc = []) (hm : t.missing = 1) (hb : b ≠ ackByte)
    (hf : Feeds ks 1) : EndsUnacknowledged a s .notAcknowledged more (exchangeRdAck t) := by
  obtain ⟨js, v, hx, -, hv, -, hsent⟩ := Sent.read (bs := [b]) h hacc hm.symm hf.1 hf.2
  exact ⟨v, by rw [exchangeRdAck, hx, if_neg (by simpa [hv] using hb)], hsent.rx, hsent.line⟩

theorem exchangeRdAckAddr_rejects (h : Sent a s seen (x :: y :: more) ks rest t) (hacc : t.acc = []) (hm : t.missing = 2)
    (hab : t.abuf = addrDigits a.toNat) (hb : [x, y] ≠ addrDigits a.toNat) (hf : Feeds ks 2) :
    EndsUnacknowledged a s .ackAddressMismatch more (exchangeRdAckAddr t) := by
  obtain ⟨js, v, hx, -, hv, hvab, hsent⟩ := Sent.read (bs := [x, y]) h hacc hm.symm hf.1 hf.2
  exact ⟨v, by rw [exchangeRdAckAddr, hx, if_neg (by rw [hv, hvab, hab]; exact hb)], hsent.rx, hsent.line⟩

/-- From the start to the acknowledgement's address (R112, R113). -/
theorem exchange_acked (h : checkCommand a.toNat s.inBuf = none) (hrx : s.rxResidue = ackByte :: more)
    (hi : s.inputs = .txOk :: (deliveries ks ++ rest)) (hf : Feeds ks 1) :
    ∃ js t, exec (.exchange a c) s = exchangeRdAckAddr t ∧ After ks js 1 ∧ t.acc = [] ∧ t.missing = 2 ∧ t.abuf = addrDigits a.toNat ∧
      Sent a s [ackByte] more js rest t := by
  obtain ⟨t, hx, hm, hacc, hsent⟩ := exchange_sent (c := c) h hrx hi
  obtain ⟨js, t', hx', hrest⟩ := exchangeRdAck_pass hsent hacc hm hf.1 hf.2
  exact ⟨js, t', hx.trans hx', hrest⟩

end

/-- Settles O38: the first three clauses fail at one of the two checks or at the first read, the last three at a read that does not fill up. -/
theorem exchangeAcknowledgementFailures : Obligations.ExchangeAcknowledgementFailures := by
  intro a c s b x y more e ks rest ha hlo hhi hf
  have hcheck := checkCommand_none ha hlo hhi
  refine ⟨fun hrx hb hi => ?_, fun hi => ?_, fun hrx hi hb => ?_, fun z hz hrx hi => ?_, fun hi => ?_, fun z hz hrx hi => ?_⟩
  · obtain ⟨t, hx, hm, hacc, hsent⟩ := exchange_sent (c := c) hcheck hrx hi
    rw [hx]
    exact (exchangeRdAck_rejects hsent hacc hm hb (hf.le (by omega))).ended
  · obtain ⟨t, hx, hm, -, hsent⟩ := exchange_sent (c := c) (ks := []) hcheck rfl hi
    rw [hx]
    exact (hsent.times_out (by omega)).ended
  · obtain ⟨js, t, hx, hafter, hacc, hm, hab, hsent⟩ := exchange_acked (c := c) (more := x :: y :: more) hcheck hrx hi (hf.le (by omega))
    rw [hx]
    exact (exchangeRdAckAddr_rejects hsent hacc hm hab hb (hf.after hafter)).ended
  · obtain ⟨js, t, hx, hafter, -, hm, -, hsent⟩ := exchange_acked (c := c) hcheck hrx hi (hf.le (by omega))
    rw [hx]
    exact (hsent.short (by omega) ((hf.after hafter).le hz.le)).ended
  · obtain ⟨t, hx, hm, -, hsent⟩ := exchange_sent (c := c) (ks := []) hcheck rfl hi
    rw [hx]
    exact (Sent.error (bs := []) hsent (by rw [hm]; exact Nat.zero_lt_one)).failed
  · have ones : ∀ k ∈ List.replicate (1 + z.length) 1, k = 1 := fun k hk => List.eq_of_mem_replicate hk
    obtain ⟨js, t, hx, hafter, -, hm, -, hsent⟩ := exchange_acked (c := c) (more := z ++ more) hcheck hrx hi
      ⟨fun k hk => (ones k hk).ge, by rw [List.length_replicate]; omega⟩
    have hlen := hafter.exact ones
    rw [List.length_replicate] at hlen
    rw [List.eq_replicate_of_mem fun k hk => ones k (hafter.sub k hk), show js.length = z.length by omega] at hsent
    rw [hx]
    exact (hsent.error (by omega)).failed

/-! ### The response -/

/-- From the start to `DecodeFrame`, with the command and the enquiry on the line and the acknowledgement read (R112 to R116). -/
theorem exchange_decodes {a : BitVec 8} {c : BitVec 16} {s : State} {more : Bytes} {ks : List Nat} {rest : List Input} (ha : a.toNat ≤ 15)
    (h : checkCommand a.toNat s.inBuf = none) (hrx : s.rxResidue = ackByte :: addrDigits a.toNat ++ more)
    (hi : s.inputs = .txOk :: (deliveries ks ++ .txOk :: rest)) (hf : Feeds ks 3) :
    ∃ v : State, exec (.exchange a c) s = decodeFrame .exchange v ∧ v.out = [] ∧ v.address = a.toNat ∧ v.lengthRule = s.lengthRule ∧
      v.rxResidue = more ∧ v.inputs = rest ∧
      v.txLine = s.txLine ++ commandFrame s.lengthRule a.toNat s.inBuf ++ enqByte :: addrDigits a.toNat ∧
      readBytes v.history = readBytes s.history ++ ackByte :: addrDigits a.toNat := by
  obtain ⟨js, t, hx, -, hsent⟩ := exchange_acknowledged (c := c) h hrx hi hf.1 hf.2
  refine ⟨_, hx.trans (exchangeTxEnq_sent hsent ha), hsent.out, hsent.address, hsent.rule, hsent.rx, rfl, ?_, ?_⟩
  · exact congrArg (· ++ enqByte :: addrDigits a.toNat) hsent.line
  · show readBytes (t.history ++ [.tx _ .ok]) = _
    rw [readBytes_append, hsent.history]
    exact List.append_nil _

/-- Settles O35: after the enquiry the decoder passes all its stages. -/
theorem exchangeCompletes : Obligations.ExchangeCompletes := by
  intro a c s h l reply more ks js rest ha hlo hhi hreply hrx hks hjs hi
  obtain ⟨v, hx, hout, haddr, hrule, hvrx, hvi, hline, hread⟩ := exchange_decodes (c := c) (more := frameWith a.toNat h l reply ++ more)
    (rest := deliveries js ++ rest) ha (checkCommand_none ha hlo hhi) (by rw [hrx, List.append_assoc]; rfl) (by rw [hi, List.append_assoc]; rfl) hks
  obtain ⟨t, ls, hdone, -, hlen, -, hseen⟩ := decode_done .exchange hout (haddr.symm ▸ hvrx) (hrule ▸ hreply) hvi hjs.1 hjs.2
  rw [hdone, frameDone_exchange hseen hlen (hrule ▸ hreply)] at hx
  refine ⟨_, hx, ⟨rfl, rfl⟩, rfl, rfl, hseen.rx, hseen.line.trans hline, ?_⟩
  obtain ⟨evs, hhist, hevs, -⟩ := hseen.history
  show (readBytes t.history).length = _
  rw [hhist, readBytes_append, hread, hevs, List.length_append, List.length_append, frameWith_length, List.length_cons, addrDigits_length]
  omega

/-- Settles O39: the two decoders are twins, and EXCHANGE never ends with `FrameTooShort`. -/
theorem exchangeDecodesResponse : Obligations.ExchangeDecodesResponse := by
  intro a c c' s d t' ks ha hlo hhi hks hrule hrx hi hd hended
  obtain ⟨v, hx, hout, haddr, hvrule, hvrx, hvi, -⟩ := exchange_decodes (c := c) ha (checkCommand_none ha hlo hhi) hrx hi hks
  rw [exec_decodeResp_of_le a c' d ha] at hd
  have twins : Twin s.lengthRule ((d.decodeRespBegun a c').beginFrame .decodeResp) (v.beginFrame .exchange) :=
    ⟨hrule, hvrule, hvrx, hvi, rfl, hout, rfl, rfl, rfl, rfl,
      congrArg addrDigits (haddr.trans (State.address_start d (.decodeResp a c') (.decodeResp .check)).symm), rfl⟩
  obtain ⟨t, ht, hend, hsame | hshort⟩ := rdStart_alike twins t' hd hended
  · exact ⟨t, hx.trans ht, hend, hsame⟩
  · obtain ⟨_, _, -, -, hprofile⟩ := (exec_spec (.exchange a c) s).of_next (hx.trans ht)
    have hstatuses := hprofile hend
    rw [hshort] at hstatuses
    simp at hstatuses

/-! ### Whatever the outside world does -/

/-- What accesses have sent, from the writes among them. -/
theorem sentBytes_of_writesOf {evs w : List Event} (h : writesOf evs = w) : sentBytes evs = sentBytes w := by
  rw [← sentBytes_writesOf, h]

theorem sentOk_commandFrame (rule : LengthRule) (a : Nat) (p : Bytes) :
    sentOk (commandFrame rule a p) = [.tx (commandFrame rule a p) .ok] :=
  if_neg (List.ne_nil_of_length_pos (by rw [commandFrame_length]; omega))

/-- The four ways to an `IoError`, with what was sent on each (R112 to R115, R119). -/
theorem StoppedAt.trace {C E : Bytes} {n : Nat} {io : IoErr} {evs : List Event} (hC : sentOk C = [.tx C .ok]) (h : StoppedAt C E n io evs) :
    evs = [.tx C (.err io)] ∨
      ((readBytes evs).length < n ∧ writesOf evs = [.tx C .ok] ∧ sentBytes evs = C) ∨
      ((readBytes evs).length = n ∧ writesOf evs = [.tx C .ok, .tx E (.err io)] ∧ sentBytes evs = C) ∨
      (n ≤ (readBytes evs).length ∧ writesOf evs = [.tx C .ok, .tx E .ok] ∧ sentBytes evs = C ++ E) := by
  rw [StoppedAt, hC] at h
  obtain ⟨-, hevs⟩ | ⟨hread, hw⟩ | ⟨hread, hw⟩ | ⟨hread, hw⟩ := h
  · exact .inl hevs
  · exact .inr (.inl ⟨hread, hw, (sentBytes_of_writesOf hw).trans (List.append_nil C)⟩)
  · exact .inr (.inr (.inl ⟨hread, hw, (sentBytes_of_writesOf hw).trans (List.append_nil C)⟩))
  · exact .inr (.inr (.inr ⟨hread, hw, (sentBytes_of_writesOf hw).trans (congrArg (C ++ ·) (List.append_nil E))⟩))

/-- Settles O40: one case for each class of statuses, and `StoppedAt.trace` within `IoError`. -/
theorem exchangeTxTrace : Obligations.ExchangeTxTrace := by
  intro a c s t C E hC hE ht hend
  replace hE : E = enqByte :: addrDigits a.toNat := hE
  have hsentC : sentOk C = [.tx C .ok] := hC ▸ sentOk_commandFrame ..
  obtain ⟨hworld, hst⟩ | hpost := exec_exchange_cases ht
  · obtain ⟨-, -, -, -, hhist, -⟩ := hworld
    exact ⟨[], by rw [hhist, List.append_nil], by rw [if_pos hst]⟩
  rw [← hC, ← hE] at hpost
  obtain ⟨used, evs, hm, ⟨-, -, -, -, h⟩ | ⟨hw, -⟩ | ⟨hr, -⟩⟩ := hpost
  · refine ⟨evs, hm.history, ?_⟩
    obtain ⟨hst, -, hstop⟩ | ⟨hst, -, hw⟩ | ⟨hw, hst⟩ := h
    · rw [if_neg (by rw [hst]; decide), if_neg (by rw [hst]; decide), if_pos hst]
      exact hstop.trace hsentC
    · rw [hsentC] at hw
      rw [if_neg (by rcases hst with hst | hst | hst <;> rw [hst] <;> decide), if_pos hst]
      exact ⟨hw, (sentBytes_of_writesOf hw).trans (List.append_nil C)⟩
    · rw [hsentC] at hw
      have hrange : t.status = 0 ∨ 7 ≤ t.status.toNat ∧ t.status.toNat ≤ 12 := hst.imp (·.1) fun h => ⟨h.1, h.2.1⟩
      rw [if_neg (by bv_omega), if_neg (by bv_omega), if_neg (by bv_omega)]
      exact ⟨hw, (sentBytes_of_writesOf hw).trans (congrArg (C ++ ·) (List.append_nil E))⟩
  · exact absurd hw hend.not_waits
  · exact absurd hend hr.not_ended

/-- Settles O41: an exchange that ends with `OK` has read the acknowledgement and the whole response frame, and `OUT` is the frame's payload. -/
theorem exchangeRxConsumption : Obligations.ExchangeRxConsumption := by
  intro a c s t ht hend hok
  obtain ⟨-, hst⟩ | ⟨used, evs, hm, ⟨-, -, -, -, h⟩ | ⟨hw, -⟩ | ⟨hr, -⟩⟩ := exec_exchange_cases ht
  · rw [hok] at hst
    exact absurd hst (by decide)
  · rw [hok] at h
    obtain ⟨hst, -⟩ | ⟨hst, -⟩ | ⟨-, ⟨-, hread, hout, -⟩ | ⟨hst, -⟩⟩ := h
    · exact absurd hst (by decide)
    · exact absurd hst (by decide)
    · refine ⟨?_, hout⟩
      rw [hm.history, readBytes_append, List.length_append, hread]
      show (readBytes s.history).length + _ = _
      omega
    · exact absurd hst (by decide)
  · exact absurd hw hend.not_waits
  · exact absurd hend hr.not_ended

end Sys2Proof.Machine
end

section
/-! What a host sees of errors, resets and exchanges (60_exceptions.md): what `OUT` holds after an error, whether a reset or the response ends an
operation, and which exchange each step lets use the connection. -/

namespace Sys2Proof.Machine

/-! ### `OUT` after an error -/

/-- READ_EXACT ends with all the bytes it has read in `OUT`, whether they were enough, fell short or came before an error (R86, R131). -/
theorem ReadPost.out_of_ended {s t : State} (h : ReadPost s t) (ha : s.acc = []) (hp : s.respPending = false) (he : t.Ended) :
    ∃ evs, t.history = s.history ++ evs ∧ t.out = readBytes evs := by
  obtain ⟨used, evs, u, hm, hr, h⟩ := h
  have hacc : u.acc = readBytes evs := by rw [hr.acc, ha, List.nil_append]
  refine ⟨evs, ?_⟩
  rcases h with rfl | ⟨e, rfl⟩ | ⟨rfl, -⟩ | ⟨rfl, -⟩
  · exact ⟨hm.history, hacc⟩
  · exact ⟨hm.history, hacc⟩
  · exact absurd (he.2.symm.trans (hr.frame.respPending.trans hp)) (by decide)
  · exact absurd he u.resetBlock_asReset.not_ended

/-- Settles O46: READ_EXACT keeps what its history says it has read; the profile of every other operation has `OUT` empty with each of its errors. -/
theorem outAfterError : Obligations.OutAfterError := by
  refine ⟨fun a c s t ht he _ => ((exec_readExact_good a c s).of_next ht).out_of_ended rfl rfl he, fun i s t ht he hst hkeep => ?_⟩
  obtain ⟨used, evs, -, -, hpr⟩ := (exec_spec i s).of_next ht
  cases i with
  | readExact a c => exact ((hpr.2.1 he).elim hst (hkeep a c rfl)).elim
  | checksum a c => exact absurd hpr.2.2 hst
  | encodeCmd a c | encodeEnq a c | extractPayload a c => exact (hpr.2.2.resolve_left hst).2
  | decodeResp a c => exact ((hpr.2.2 he).resolve_left hst).2
  | exchange a c => exact ((hpr he).resolve_left hst).2

/-! ### A reset at the end of an operation -/

/-- The step of an operation that ended concludes it. -/
theorem settle_of_ended {t : State} (h : t.Ended) : settle (.next t) = .next t.concluded := by
  rw [settle, if_pos h.2]

/-- Settles O58: the step is the conclusion of the operation, whether it was accepted in this step or taken up from a wait. -/
theorem resetWinsOverResponse : Obligations.ResetWinsOverResponse := by
  intro s t he h
  have ht : step s = .next t.concluded := by
    rw [← settle_of_ended he]
    rcases h with ⟨r, rest, i, hs, ho, hd, hq, hx, ht⟩ | ⟨b, hs, hi, ht⟩
    · rw [← ht]
      exact step_accepts hs ho hq hd hx
    · rw [← ht]
      exact step_busy hs (State.not_hung hi)
  constructor
  · intro k later hi
    rw [State.concluded_of_reset t hi] at ht
    exact ⟨_, ht, rfl, rfl, rfl, rfl, rfl, rfl, rfl, rfl, rfl⟩
  · intro hq
    rw [ht, State.concluded_of_quiet t hq]
    rfl

/-! ### The exchange that a step lets use the connection -/

section
variable {s : State} {r : Offer} {rest : List Offer} {xs : List Input}

theorem State.nextUse_busy {b : Busy} (hs : s.seq = .busy b) : s.nextUse = none := by simp [State.nextUse, hs]

/-- A reset that is next comes before any use. -/
theorem State.nextUse_reset {k : Nat} (hi : s.inputs = .reset k :: xs) : s.nextUse = none := by
  cases hs : s.seq with
  | busy b => exact State.nextUse_busy hs
  | idle =>
    cases ho : s.offered with
    | nil => simp [State.nextUse, hs, ho, hi]
    | cons r rest => simp only [State.nextUse, hs, ho, hi, resetNext_reset, if_true]; split <;> rfl

/-- The exchange of an accepted request uses the connection if its operation does (R38). -/
theorem State.nextUse_legal {i : Instr} (hs : s.seq = .idle) (ho : s.offered = r :: rest) (hq : resetNext s.inputs = false)
    (hd : decodeWord r.word = .ok i) : s.nextUse = if usesTransport i then some r.exchange else none := by
  cases i <;> simp [State.nextUse, usesTransport, hs, ho, hq, hd]

/-- A reserved request uses no connection (R57). -/
theorem State.nextUse_reserved {e : DecodeError} (hs : s.seq = .idle) (ho : s.offered = r :: rest) (hd : decodeWord r.word = .error e) :
    s.nextUse = none := by
  simp [State.nextUse, hs, ho, hd]

end

/-- A result whose next state, if there is one, notes the exchanges `xs`, and which is not refused as interleaved. -/
def Notes (xs : List Nat) : Result → Prop
  | .next t => t.exchanges = xs
  | .fault _ => True
  | .refused r => r ≠ .exchangesInterleaved

theorem Notes.of_good {Q : State → Prop} {xs : List Nat} {r : Result} (h : Good Q r) (hq : ∀ t, Q t → t.exchanges = xs) : Notes xs r := by
  cases r with
  | next t => exact hq t h
  | fault f => trivial
  | refused x => rcases h with rfl | rfl <;> exact nofun

/-- The end of an operation notes no exchange, whether a reset wins or the response is handed over. -/
theorem State.concluded_exchanges (s : State) : s.concluded.exchanges = s.exchanges := by
  rcases resetNext_cases s.inputs with hq | ⟨k, xs, hi⟩
  · rw [s.concluded_of_quiet hq]; rfl
  · rw [s.concluded_of_reset hi]; rfl

theorem Notes.settle {xs : List Nat} {r : Result} (h : Notes xs r) : Notes xs (settle r) := by
  cases r with
  | next t =>
    cases hp : t.respPending with
    | true => simpa [Machine.settle, hp, Notes, t.concluded_exchanges] using h
    | false => simpa [Machine.settle, hp] using h
  | fault f => trivial
  | refused x => exact h

/-- An operation notes no exchange: that is done when it is accepted. -/
theorem exec_notes (i : Instr) (s : State) : Notes s.exchanges (exec i s) :=
  .of_good (exec_spec i s) fun _ ⟨_, _, hm, _⟩ => hm.exchanges

/-- Nor does a waiting block that goes on. -/
theorem resume_notes {b : Busy} {s : State} (hs : s.seq = .busy b) (h : busyInv b s) : Notes s.exchanges (resume b s) :=
  .of_good (resume_spec hs h) fun _ ⟨_, _, hm, _⟩ => hm.exchanges

/-- What becomes of the connection in a step from `s` with result `r`: no exchange uses it, or one that would be interleaved with another is refused, or
one in its turn is noted (R139, R153). -/
inductive Turn (s : State) (r : Result) : Prop
  | unused (hu : s.nextUse = none) (hr : Notes s.exchanges r)
  | interleaved (x : Nat) (hu : s.nextUse = some x) (hx : returnsTo x s.exchanges = true) (hr : r = .refused .exchangesInterleaved)
  | noted (x : Nat) (hu : s.nextUse = some x) (hx : returnsTo x s.exchanges = false) (hr : Notes (joined x s.exchanges) r)

/-- A host's own use of the transport comes in its turn or is refused. -/
theorem Turn.of_host {s : State} {x : Nat} {xs : List Input} {k : State → State} (hu : s.nextUse = some x)
    (hk : ∀ u, (k u).exchanges = u.exchanges) : Turn s (inTurn true x (s.await xs) fun u => .next (k u)) := by
  rcases inTurn_cases true x (s.await xs) fun u => .next (k u) with ⟨-, hx, hr⟩ | ⟨hx, hr⟩
  · exact .interleaved x hu hx hr
  · exact .noted x hu (hx rfl) (by rw [hr]; exact hk _)

/-- With no request offered, only the host's own accesses use the connection (R51). -/
theorem stepIdle_turn {s : State} (hs : s.seq = .idle) (ho : s.offered = []) : Turn s (stepIdle s) := by
  cases hi : s.inputs with
  | nil => exact .unused (by simp [State.nextUse, hs, ho, hi]) (by simp [stepIdle, hi, Notes])
  | cons x xs =>
    cases x with
    | hostWrite e b =>
      rw [stepIdle_hostWrite hi]
      exact .of_host (by simp [State.nextUse, hs, ho, hi]) fun _ => rfl
    | hostRead e n =>
      rw [stepIdle_hostRead hi]
      exact .of_host (k := fun u => { u with rxResidue := u.rxResidue.drop n }) (by simp [State.nextUse, hs, ho, hi]) fun _ => rfl
    | offer r =>
      refine .unused (by simp [State.nextUse, hs, ho, hi]) ?_
      cases hf : r.fits <;> simp [stepIdle, hi, hf, Notes]
    | reset k | arrive b | rxDeliver k | rxTimeout | rxErr e | txOk | txErr e k | proceed =>
      exact .unused (by simp [State.nextUse, hs, ho, hi]) (by simp [stepIdle, hi, Notes])

/-- Every step gives the connection to the exchange that is next to use it, if that comes in its turn, and to no other. -/
theorem step_turn {s : State} (hbusy : ∀ b, s.seq = .busy b → busyInv b s) : Turn s (step s) := by
  rcases step_cases s with ⟨hs, ho, hr⟩ | ⟨k, xs, hs, hi, hr⟩ | ⟨r, rest, i, hs, ho, hq, hd, hx, hr⟩ | ⟨r, rest, i, hs, ho, hq, hd, ht, hx, hr⟩ |
    ⟨r, rest, e, hs, ho, hq, hd, hr⟩ | ⟨b, hs, -, hr⟩ | ⟨b, hs, -, hr⟩
  · rw [hr]
    exact stepIdle_turn hs ho
  · exact .unused (State.nextUse_reset hi) (by rw [hr]; rfl)
  · have hu := State.nextUse_legal hs ho hq hd
    have hn := (exec_notes i ((s.moved.accept r rest).noted (usesTransport i) r.exchange)).settle
    rw [← hr] at hn
    cases ht : usesTransport i with
    | true =>
      rw [ht] at hu hn
      exact .noted r.exchange hu (hx ht) hn
    | false =>
      rw [ht] at hu hn
      exact .unused hu hn
  · exact .interleaved r.exchange (by rw [State.nextUse_legal hs ho hq hd, if_pos ht]) hx hr
  · exact .unused (State.nextUse_reserved hs ho hd) (by rw [hr]; exact State.concluded_exchanges _)
  · exact .unused (State.nextUse_busy hs) (by rw [hr]; exact (resume_notes hs (hbusy b hs)).settle)
  · exact .unused (State.nextUse_busy hs) (by rw [hr]; trivial)

/-- A busy block lets no exchange use the connection anew. -/
theorem State.not_busy_of_nextUse {s : State} {x : Nat} (hu : s.nextUse = some x) (b : Busy) : s.seq ≠ .busy b :=
  fun hs => by rw [State.nextUse_busy hs] at hu; cases hu

/-- An exchange comes back only where another used the connection last. -/
theorem exists_of_returnsTo {x : Nat} {xs : List Nat} (h : returnsTo x xs = true) : ∃ c past, xs = c :: past ∧ x ≠ c ∧ x ∈ past := by
  cases xs with
  | nil => cases h
  | cons c past => exact ⟨c, past, rfl, returnsTo_iff.mp h⟩

/-- Settles O59: of the ways a step can turn out, only the interleaved one is refused so; a block that lets an exchange use the connection is idle, so
the invariant has nothing to say of it. -/
theorem interleavedExchangesAreRefused : Obligations.InterleavedExchangesAreRefused := by
  constructor
  · intro s x c past hu hc hne hmem
    have hret : returnsTo x s.exchanges = true := hc ▸ returnsTo_iff.mpr ⟨hne, hmem⟩
    obtain ⟨hu', -⟩ | ⟨-, -, -, hr⟩ | ⟨y, hu', hx, -⟩ := step_turn fun b hs => absurd hs (State.not_busy_of_nextUse hu b)
    · rw [hu] at hu'; cases hu'
    · exact hr
    · rw [hu] at hu'
      cases hu'
      rw [hret] at hx; cases hx
  · intro s hinv ht
    obtain ⟨-, hr⟩ | ⟨x, hu, hx, -⟩ | ⟨x, -, -, hr⟩ := step_turn ((State.inv_iff s).mp hinv).2
    · rw [ht] at hr; exact absurd rfl hr
    · obtain ⟨c, past, h⟩ := exists_of_returnsTo hx
      exact ⟨x, c, past, hu, h⟩
    · rw [ht] at hr; exact absurd rfl hr

/-- An exchange is put first unless it stands there already. -/
theorem joined_eq (x : Nat) (xs : List Nat) : joined x xs = if xs.head? = some x then xs else x :: xs := by
  cases xs with
  | nil => rfl
  | cons c past => simp [joined, eq_comm]

/-- Settles O60: a step with a next state leaves the exchanges alone if none uses the connection, and else notes the one whose turn it is. -/
theorem exchangesAreNotedInTurn : Obligations.ExchangesAreNotedInTurn := by
  intro s t hinv ht
  have hturn := step_turn ((State.inv_iff s).mp hinv).2
  rw [ht] at hturn
  obtain ⟨hu, hr⟩ | ⟨-, -, -, hr⟩ | ⟨x, hu, -, hr⟩ := hturn
  · rw [hu]; exact hr
  · cases hr
  · rw [hu]; exact hr.trans (joined_eq x s.exchanges)

end Sys2Proof.Machine
end

section
/-! Resets and stuck runs (60_exceptions.md R154, 70_reset_and_hazards.md R142 to R149): what every step keeps and the one fault, and how a reset cuts the
block off while it is idle, while it waits, and right after it has accepted a request. -/

namespace Sys2Proof.Machine

/-! ### What every step keeps, and the one fault -/

section
variable {s t : State} {r : Result} {x : Nat} {uses : Bool} {k : State → Result}

theorem Drifts.lengthRule (h : Drifts s r) (hr : r = .next t) : t.lengthRule = s.lengthRule := by
  subst hr
  obtain ⟨_, -, -, hrule⟩ := h
  exact hrule

theorem Drifts.ne_fault (h : Drifts s r) (f : Fault) : r ≠ .fault f := by
  rintro rfl
  exact h

/-- Noting a use of the connection changes nothing `Drift` speaks of. -/
theorem inTurn_drifts (h : ∀ u, Drifts u (k u)) : Drifts s (inTurn uses x s k) := by
  obtain ⟨-, -, hr⟩ | ⟨-, hr⟩ := inTurn_cases uses x s k
  · rw [hr]; trivial
  · rw [hr]
    exact Drifts.after (u := s.noted uses x) ⟨[], rfl, by simp, rfl⟩ (h _)

end

/-- The idle block with nothing offered lets the timeline go on by one input at most (R34). -/
theorem stepIdle_drifts (s : State) : Drifts s (stepIdle s) := by
  cases hi : s.inputs with
  | nil =>
    simp only [stepIdle, hi]
    exact .of_sameWorld (State.sameWorld_refl s)
  | cons x xs =>
    have one : ∀ t : State, t.inputs = xs → t.offered = s.offered ++ x.offers → t.lengthRule = s.lengthRule → Drift s t :=
      fun t h1 h2 h3 => ⟨[x], by simp [hi, h1], by simp [h2], h3⟩
    have host : x.offers = [] → ∀ (e : Nat) (k : State → Result), (∀ u, Drifts u (k u)) → Drifts s (inTurn true e (s.await xs) k) :=
      fun ho e k hk => .after (one (s.await xs) rfl (by simp [ho]) rfl) (inTurn_drifts hk)
    cases x with
    | offer r =>
      cases hf : r.fits with
      | true =>
        simp only [stepIdle, hi, hf, if_true]
        exact one ((s.await xs).hold r) rfl rfl rfl
      | false => simp [stepIdle, hi, hf, Drifts]
    | hostWrite e b =>
      rw [stepIdle_hostWrite hi]
      exact host rfl e _ fun u => ⟨[], rfl, by simp, rfl⟩
    | hostRead e n =>
      rw [stepIdle_hostRead hi]
      exact host rfl e _ fun u => ⟨[], rfl, by simp, rfl⟩
    | reset k | arrive b | rxDeliver k | rxTimeout | rxErr e | txOk | txErr e k | proceed =>
      simp only [stepIdle, hi]
      exact one _ rfl (by simp [Input.offers]) rfl

theorem State.hung_iff (s : State) : s.hung = true ↔ s.awaiting = true ∧ s.inputs = [] := by simp [State.hung]

/-- Every step gets stuck at a request that is never answered, or goes on without a fault from a state with the configuration of `s`: `s` itself, or the
one in which the request is accepted. -/
theorem step_drifts (s : State) :
    (s.hung = true ∧ step s = .fault .transportHang) ∨ ∃ u : State, u.lengthRule = s.lengthRule ∧ Drifts u (step s) := by
  rcases step_cases s with ⟨-, -, hr⟩ | ⟨k, xs, -, hi, hr⟩ | ⟨r, rest, i, -, -, -, -, -, hr⟩ | ⟨-, -, -, -, -, -, -, -, -, hr⟩ |
    ⟨r, rest, e, -, -, -, -, hr⟩ | ⟨b, -, -, hr⟩ | ⟨b, -, hh, hr⟩
  · exact .inr ⟨s, rfl, hr ▸ stepIdle_drifts s⟩
  · exact .inr ⟨s, rfl, hr ▸ Drift.of_moves (Moves.pass hi rfl rfl).resetBlock⟩
  · exact .inr ⟨s.accepted r rest (usesTransport i), rfl, hr ▸ (exec_drifts i _).settle⟩
  · exact .inr ⟨s, rfl, hr ▸ trivial⟩
  · exact .inr ⟨s.moved.accept r rest, rfl, hr ▸ Drifts.settle (r := .next ((s.moved.accept r rest).illegal r.word)) (.of_sameWorld (State.sameWorld_refl _))⟩
  · exact .inr ⟨s, rfl, hr ▸ (resume_drifts b s).settle⟩
  · exact .inl ⟨hh, hr⟩

/-- Settles O10: the block that waits with the timeline used up is stuck, and every other step goes on without a fault. -/
theorem onlyAnUnansweredRequestIsStuck : Obligations.OnlyAnUnansweredRequestIsStuck := by
  refine ⟨fun s haw hi => ?_, fun s f hf => ?_, fun i s => (exec_drifts i s).ne_fault⟩
  · cases hs : s.seq with
    | idle => simp [State.awaiting, hs] at haw
    | busy b => exact step_hung hs (s.hung_iff.mpr ⟨haw, hi⟩)
  · obtain ⟨hh, hr⟩ | ⟨u, -, hd⟩ := step_drifts s
    · rw [hf] at hr
      cases hr
      exact ⟨rfl, s.hung_iff.mp hh⟩
    · exact absurd hf (hd.ne_fault f)

/-- Settles O50: a step with a next state is not the stuck one, and the others go on with the configuration of `s`. -/
theorem configurationNeverChanges : Obligations.ConfigurationNeverChanges := by
  intro s t ht
  obtain ⟨-, hr⟩ | ⟨u, hu, hd⟩ := step_drifts s
  · rw [ht] at hr; cases hr
  · exact (hd.lengthRule ht).trans hu

/-! ### A reset cuts the block off -/

/-- With a reset next and `later` to come after it, the block has been cut off: from `s` it has come to `t`, where it stands as reset leaves it, and of
the world only the timeline has gone on and the line has got the bytes `sent` (R142 to R149). -/
structure CutOff (sent : Bytes) (later : List Input) (s t : State) : Prop where
  asReset : t.AsReset
  rule : t.lengthRule = s.lengthRule
  offered : t.offered = s.offered
  residue : t.rxResidue = s.rxResidue
  line : t.txLine = s.txLine ++ sent
  history : t.history = s.history
  inputs : t.inputs = later

/-- The result is a next state in which the block has been cut off. -/
def CutsOff (sent : Bytes) (later : List Input) (s : State) (r : Result) : Prop := ∃ t, r = .next t ∧ CutOff sent later s t

/-- What R30 says of a block that stands as reset leaves it. -/
theorem State.AsReset.quiet {t : State} (h : t.AsReset) : t.seq = .idle ∧ t.out = [] ∧ t.response = none := by
  rw [← (h : t.resetBlock = t)]
  exact ⟨rfl, rfl, rfl⟩

/-- Settles O48: the step of the idle block is the reset alone. -/
theorem resetWhileIdle : Obligations.ResetWhileIdle := by
  intro s n later hs hi
  exact ⟨_, step_reset hs hi, State.resetBlock_asReset _, rfl, rfl, rfl, rfl, rfl, rfl, rfl, rfl, rfl⟩

section
variable {s u t : State} {sent bytes : Bytes} {later : List Input} {r : Result} {n : Nat} {k : State → Result}

/-- Only the world counts of the state the reset comes in. -/
theorem CutsOff.from_world (h : CutsOff sent later u r) (hw : s.SameWorld u) : CutsOff sent later s r := by
  obtain ⟨t, hr, ht⟩ := h
  obtain ⟨hrule, hoff, hres, hline, hhist, -, -⟩ := hw
  exact ⟨t, hr, ht.asReset, ht.rule.trans hrule, ht.offered.trans hoff, ht.residue.trans hres, hline ▸ ht.line, ht.history.trans hhist, ht.inputs⟩

/-- A block that was cut off holds no response, so `settle` leaves it as it is. -/
theorem CutsOff.settle (h : CutsOff sent later s r) : CutsOff sent later s (settle r) := by
  obtain ⟨t, rfl, ht⟩ := h
  have hp : t.respPending = false := congrArg State.respPending ht.asReset.symm
  exact ⟨t, by simp [Machine.settle, hp], ht⟩

/-- A reset with no write begun. -/
theorem cutsOff_resetBlock (s : State) (later : List Input) : CutsOff [] later s (.next (s.await later).resetBlock) :=
  ⟨_, rfl, State.resetBlock_asReset _, rfl, rfl, rfl, (List.append_nil _).symm, rfl, rfl⟩

/-- An operation that is at its end, the world as it was, is cut off there (R146). -/
theorem settle_cutsOff_of_ended (he : t.Ended) (hw : s.SameWorld t) (hi : s.inputs = .reset n :: later) : CutsOff [] later s (settle (.next t)) := by
  have hin : t.inputs = s.inputs := by
    obtain ⟨-, -, -, -, -, h, -⟩ := hw
    exact h
  rw [settle_of_ended he, State.concluded_of_reset t (hin.trans hi)]
  exact (cutsOff_resetBlock t later).from_world hw

/-! ### A reset at a wait -/

section
variable (hi : s.inputs = .reset n :: later)
include hi

/-- A write that is cut off has put the first `n` of its bytes on the line (R149). -/
theorem afterTx_cutsOff : CutsOff (bytes.take n) later s (afterTx bytes s k) :=
  ⟨((s.await later).send (bytes.take n)).resetBlock, by rw [afterTx, hi]; rfl, State.resetBlock_asReset _, rfl, rfl, rfl, rfl, rfl, rfl⟩

theorem readLoop_reset (hm : s.missing ≠ 0) : readLoop s.inputs s = .cut (s.await later).resetBlock := by
  rw [hi, readLoop, if_neg hm]

theorem afterRead_cutsOff {onShort : ErrKind} (hm : s.missing ≠ 0) : CutsOff [] later s (afterRead s onShort k) := by
  rw [afterRead, readLoop_reset hi hm]
  exact cutsOff_resetBlock s later

theorem readExactLoop_cutsOff (hm : s.missing ≠ 0) : CutsOff [] later s (readExactLoop s) := by
  rw [readExactLoop, readLoop_reset hi hm]
  exact cutsOff_resetBlock s later

theorem resumeFrame_cutsOff (u : FrameUser) (f : FrameStage) (hm : s.missing ≠ 0) : CutsOff [] later s (resumeFrame u f s) := by
  cases f with
  | rdStart | rdAddr | rdLen | rdPayload | rdEnd | rdBcc => exact afterRead_cutsOff hi hm

end

/-- At a reading stage no write is outstanding. -/
theorem State.pendingTx_of_rx {b : Busy} (hs : s.seq = .busy b) (hb : b.access = .rx) : s.pendingTx = [] := by
  rw [State.pendingTx, hs]
  split
  next h => cases h; cases hb
  next h => cases h; cases hb
  · rfl

/-- A properly waiting block is cut off, at whatever stage it waits (R146, R149). -/
theorem resume_cutsOff {b : Busy} (hs : s.seq = .busy b) (h : busyInv b s) (hi : s.inputs = .reset n :: later) :
    CutsOff (s.pendingTx.take n) later s (resume b s) := by
  obtain ⟨haw, -, -, hb⟩ := h
  have read : b.access = .rx → (s.missing ≠ 0 → CutsOff [] later s (resume b s)) → CutsOff (s.pendingTx.take n) later s (resume b s) := by
    intro hrx hr
    rw [State.pendingTx_of_rx hs hrx, List.take_nil]
    exact hr (State.missing_of_awaiting hs hrx haw)
  cases b with
  | readExact => exact read rfl (readExactLoop_cutsOff hi)
  | decodeResp st =>
    cases st with
    | check => exact hb.elim
    | frame f => exact read rfl (resumeFrame_cutsOff hi _ f)
  | exchange st =>
    obtain ⟨-, ha, hst⟩ := hb
    cases st with
    | enc | extract => exact hst.elim
    | txCmd =>
      rw [State.pendingTx, hs]
      exact afterTx_cutsOff hi
    | rdAck | rdAckAddr => exact read rfl (afterRead_cutsOff hi)
    | txEnq =>
      have hp : s.pendingTx = s.enquiry := by rw [State.pendingTx, hs]; exact hst
      rw [hp, resume, exchangeTxEnq_of_le ha, State.assembleEnq_of_fbuf hst]
      exact afterTx_cutsOff hi
    | frame f => exact read rfl (resumeFrame_cutsOff hi _ f)
  | checksum | encodeCmd st | encodeEnq st | extractPayload st => exact hb.elim

end

/-- Settles O49: the busy block's step is the operation taken up at its wait, where the reset cuts it off. -/
theorem resetWhileWaiting : Obligations.ResetWhileWaiting := by
  intro s n later hinv haw hi
  cases hs : s.seq with
  | idle => simp [State.awaiting, hs] at haw
  | busy b =>
    obtain ⟨t, ht, hcut⟩ := (resume_cutsOff hs (((State.inv_iff s).mp hinv).2 b hs) hi).settle
    obtain ⟨hseq, hout, hresp⟩ := hcut.asReset.quiet
    exact ⟨t, (step_busy hs (State.not_hung (by simp [hi]))).trans ht, hcut.asReset, hseq, hout, hresp, hcut.rule, hcut.offered, hcut.residue,
      hcut.line, hcut.history, hcut.inputs⟩

/-! ### A reset right after acceptance -/

/-- The write an operation accepted in `s` begins before it waits for anything: the command of an EXCHANGE that `BuildFrame` accepts, or none (R112). -/
def openingWrite (i : Instr) (s : State) : Bytes :=
  match i with
  | .exchange a _ => if checkCommand a.toNat s.inBuf = none then commandFrame s.lengthRule a.toNat s.inBuf else []
  | .readExact _ _ | .checksum _ _ | .encodeCmd _ _ | .encodeEnq _ _ | .decodeResp _ _ | .extractPayload _ _ => []

theorem openingWrite_of_none {a : BitVec 8} {c : BitVec 16} {s : State} (h : checkCommand a.toNat s.inBuf = none) :
    openingWrite (.exchange a c) s = commandFrame s.lengthRule a.toNat s.inBuf := if_pos h

theorem openingWrite_of_rejected {i : Instr} {s : State}
    (h : ∀ a c, i = .exchange a c → 15 < a.toNat ∨ s.inBuf = [] ∨ 65535 < s.inBuf.length) : openingWrite i s = [] := by
  cases i with
  | exchange a c =>
    obtain ⟨e, he, -⟩ := checkCommand_rejects (h a c rfl)
    exact if_neg (by simp [he])
  | readExact a c | checksum a c | encodeCmd a c | encodeEnq a c | decodeResp a c | extractPayload a c => rfl

section
variable {s : State} {n : Nat} {later : List Input} (a : BitVec 8) (c : BitVec 16) (hi : s.inputs = .reset n :: later)
include hi

/-- READ_EXACT is cut off at its first read, or at its end if it reads nothing. -/
theorem exec_readExact_cutsOff : CutsOff [] later s (settle (exec (.readExact a c) s)) := by
  rw [exec_readExact]
  by_cases hm : (s.beginRead a c).missing = 0
  · rw [readExactLoop_of_full rfl (Nat.zero_le _) (readLoop_full hm)]
    exact settle_cutsOff_of_ended ⟨rfl, rfl⟩ (State.sameWorld_refl s) hi
  · exact ((readExactLoop_cutsOff (s := s.beginRead a c) hi hm).from_world (State.sameWorld_refl s)).settle

/-- DECODE_RESP is cut off at its first read, or at its end if its address is above 15. -/
theorem exec_decodeResp_cutsOff : CutsOff [] later s (settle (exec (.decodeResp a c) s)) := by
  by_cases ha : a.toNat ≤ 15
  · rw [exec_decodeResp_of_le a c s ha]
    have h : CutsOff [] later ((s.decodeRespBegun a c).beginFrame .decodeResp) (decodeFrame .decodeResp (s.decodeRespBegun a c)) :=
      afterRead_cutsOff (s := (s.decodeRespBegun a c).beginFrame .decodeResp) hi (by decide : (1 : Nat) ≠ 0)
    exact (h.from_world (State.sameWorld_refl s)).settle
  · rw [exec_decodeResp_of_gt a c s (by omega)]
    exact settle_cutsOff_of_ended ⟨rfl, rfl⟩ (State.sameWorld_refl s) hi

/-- EXCHANGE is cut off at the write of its command, or at its end if `BuildFrame` rejects the command (R112, R149). -/
theorem exec_exchange_cutsOff : CutsOff ((openingWrite (.exchange a c) s).take n) later s (settle (exec (.exchange a c) s)) := by
  cases hc : checkCommand a.toNat s.inBuf with
  | none =>
    have hfb : ((s.exchangeBegun a c).assemble.goto (.exchange .txCmd)).fbuf = commandFrame s.lengthRule a.toNat s.inBuf := by
      rw [State.goto_fbuf, State.assemble_fbuf, State.operand_eq, State.exchangeBegun_address]; rfl
    rw [exec_exchange_of_none a c s hc, exchangeTxCmd, hfb, openingWrite_of_none hc]
    exact ((afterTx_cutsOff (s := (s.exchangeBegun a c).assemble.goto (.exchange .txCmd)) hi).from_world (State.sameWorld_refl s)).settle
  | some e =>
    have hw : openingWrite (.exchange a c) s = [] := if_neg (by simp [hc])
    rw [exec_exchange_of_some a c s hc, hw, List.take_nil]
    exact settle_cutsOff_of_ended ⟨rfl, rfl⟩ (State.sameWorld_refl s) hi

/-- Whatever operation is accepted with a reset next is cut off, at its first wait or at its end (R142, R146). -/
theorem exec_cutsOff (i : Instr) : CutsOff ((openingWrite i s).take n) later s (settle (exec i s)) := by
  have quiet : openingWrite i s = [] → CutsOff [] later s (settle (exec i s)) → CutsOff ((openingWrite i s).take n) later s (settle (exec i s)) := by
    intro h
    rw [h, List.take_nil]
    exact id
  have ended : openingWrite i s = [] → ∀ t : State, exec i s = .next t → t.Ended → s.SameWorld t →
      CutsOff ((openingWrite i s).take n) later s (settle (exec i s)) := by
    intro h t ht he hw
    exact quiet h (ht ▸ settle_cutsOff_of_ended he hw hi)
  cases i with
  | readExact a c => exact quiet rfl (exec_readExact_cutsOff a c hi)
  | decodeResp a c => exact quiet rfl (exec_decodeResp_cutsOff a c hi)
  | exchange a c => exact exec_exchange_cutsOff a c hi
  | checksum a c => exact ended rfl _ (exec_checksum a c s) ⟨rfl, rfl⟩ (State.sameWorld_refl s)
  | encodeCmd a c =>
    obtain ⟨t, ht, he, ⟨hw, -⟩, -⟩ := exec_encodeCmd_cases a c s
    exact ended rfl t ht he hw
  | encodeEnq a c =>
    obtain ⟨t, ht, he, ⟨hw, -⟩, -⟩ := exec_encodeEnq_cases a c s
    exact ended rfl t ht he hw
  | extractPayload a c =>
    obtain ⟨t, ht, he, ⟨hw, -⟩, -⟩ := exec_extractPayload_cases a c s
    exact ended rfl t ht he hw

end

section
variable {s : State} {q : Offer} {rest : List Offer} {n : Nat} {later : List Input} (hs : s.seq = .idle) (ho : s.offered = q :: rest)
  (hi : s.inputs = .proceed :: .reset n :: later)
include hs ho hi

/-- A legal request, accepted in its exchange's turn with a reset right behind, is cut off (R142, R145). -/
theorem step_legal_cutsOff {i : Instr} (hd : decodeWord q.word = .ok i)
    (hx : usesTransport i = true → returnsTo q.exchange s.exchanges = false) :
    CutsOff ((openingWrite i (s.accepted q rest (usesTransport i))).take n) later (s.accepted q rest (usesTransport i)) (step s) := by
  rw [step_accepts hs ho (by rw [hi]; rfl) hd hx]
  exact exec_cutsOff (s := s.accepted q rest (usesTransport i)) (by show afterMove s.inputs = _; rw [hi]; rfl) i

/-- A reserved request, accepted with a reset right behind, is cut off at its end (R57, R146). -/
theorem step_reserved_cutsOff {e : DecodeError} (hd : decodeWord q.word = .error e) : CutsOff [] later (s.accepted q rest false) (step s) := by
  have hend : ((s.accepted q rest false).illegal q.word).Ended := ⟨rfl, rfl⟩
  rw [step_rejects hs ho (by rw [hi]; rfl) hd]
  change CutsOff [] later _ (.next ((s.accepted q rest false).illegal q.word).concluded)
  rw [← settle_of_ended hend]
  exact settle_cutsOff_of_ended (n := n) hend (State.sameWorld_refl _) (by show afterMove s.inputs = _; rw [hi]; rfl)

end

/-- Settles O57: the accepted request is cut off, and only a command that `BuildFrame` accepts has begun a write. -/
theorem resetCutsAcceptedOperation : Obligations.ResetCutsAcceptedOperation := by
  intro s q rest n later hs ho hi hx
  cases hd : decodeWord q.word with
  | ok i =>
    obtain ⟨t, ht, hcut⟩ := step_legal_cutsOff hs ho hi hd (hx i hd)
    obtain ⟨hseq, hout, hresp⟩ := hcut.asReset.quiet
    refine ⟨t, ht, hseq, hout, hresp, hcut.rule, hcut.offered, hcut.residue, hcut.history, hcut.inputs, ?_, fun hrej => ?_⟩
    · rintro a c ⟨⟩ ha hlo hhi
      rw [hcut.line, openingWrite_of_none (checkCommand_none ha hlo hhi)]
      rfl
    · rw [hcut.line, openingWrite_of_rejected fun a c h => hrej a c (h ▸ rfl), List.take_nil, List.append_nil]
      rfl
  | error e =>
    obtain ⟨t, ht, hcut⟩ := step_reserved_cutsOff hs ho hi hd
    obtain ⟨hseq, hout, hresp⟩ := hcut.asReset.quiet
    exact ⟨t, ht, hseq, hout, hresp, hcut.rule, hcut.offered, hcut.residue, hcut.history, hcut.inputs, nofun,
      fun _ => hcut.line.trans (List.append_nil _)⟩

end Sys2Proof.Machine
end
